-- ==== Sys2Proof/Word.lean ====
section
/-!
DEFINITION. The word type of the block, the two engines, and the shape of what crosses its channels: a command on CMD and a
response on RSP (00_scope.md R1; 10_state.md R20; 30_encoding.md R60).
-/

namespace Sys2Proof

/-- A value of the block: an unsigned 64-bit word, bit 0 the least significant (R1). The arithmetic of R2 is `BitVec`'s own:
`+` and `*` modulo 2^64, `^^^`, and the logical shifts `<<<` and `>>>`. -/
abbrev Word := BitVec 64

/-- The two engines of the block (R20). -/
inductive Engine where
  /-- SplitMix64, `ENG = 0`. -/
  | sm
  /-- xoshiro256**, `ENG = 1`. -/
  | xs
  deriving DecidableEq, Repr

/-- A command as it crosses CMD: the command byte `C` and the operand words `A` and `B` (R60). -/
structure Command where
  /-- The command byte `C[7:0]`. -/
  byte : BitVec 8
  /-- The operand word `A`. -/
  a : Word
  /-- The operand word `B`. -/
  b : Word
  deriving DecidableEq, Repr

/-- A response as it crosses RSP (R60, R62). -/
structure Response where
  /-- `STATUS[3:0]`: 0 is OK, 1 to 6 are the error codes of R181; 7 to 15 are never produced. -/
  status : BitVec 4
  /-- `DATA[63:0]`. -/
  data : Word
  deriving DecidableEq, Repr

end Sys2Proof
end

