-- ==== Sys2Proof/Syntax.lean ====
section
/-!
DEFINITION. The commands of CORE-CMD v1: one constructor per row of spec/opcode_table.json (30_encoding.md R63), each carrying
exactly the operand words its command reads (R65). A word that a command does not read is ignored (R66), so no constructor holds
one: assumption log, entry 11.
-/

namespace Sys2Proof

/-- The 21 commands (R63). -/
inductive Instr where
  /-- SEED.SM, `C = 0x00`, `A` = seed (R84). -/
  | seedSm (seed : Word)
  /-- SEED.XS, `C = 0x10`, `A` = seed (R104). -/
  | seedXs (seed : Word)
  /-- SEED_ENT.SM, `C = 0x01` (R85). -/
  | seedEntSm
  /-- SEED_ENT.XS, `C = 0x11` (R105). -/
  | seedEntXs
  /-- DRAW.SM, `C = 0x02` (R83). -/
  | drawSm
  /-- DRAW.XS, `C = 0x12` (R103). -/
  | drawXs
  /-- BOUNDED.SM, `C = 0x03`, `A` = n (R120). -/
  | boundedSm (n : Word)
  /-- BOUNDED.XS, `C = 0x13`, `A` = n (R120). -/
  | boundedXs (n : Word)
  /-- BOUNDED_REJ.SM, `C = 0x04`, `A` = n (R125). -/
  | boundedRejSm (n : Word)
  /-- BOUNDED_REJ.XS, `C = 0x14`, `A` = n (R125). -/
  | boundedRejXs (n : Word)
  /-- REAL01.SM, `C = 0x05` (R140). -/
  | real01Sm
  /-- REAL01.XS, `C = 0x15` (R140). -/
  | real01Xs
  /-- REAL_BETWEEN.SM, `C = 0x06`, `A` = lo and `B` = hi as binary64 bit patterns (R142). -/
  | realBetweenSm (lo hi : Word)
  /-- REAL_BETWEEN.XS, `C = 0x16`, `A` = lo and `B` = hi as binary64 bit patterns (R142). -/
  | realBetweenXs (lo hi : Word)
  /-- MIN.SM, `C = 0x07` (R126). -/
  | minSm
  /-- MIN.XS, `C = 0x17` (R126). -/
  | minXs
  /-- MAX.SM, `C = 0x08` (R127). -/
  | maxSm
  /-- MAX.XS, `C = 0x18` (R127). -/
  | maxXs
  /-- STATE_RD.SM, `C = 0x09`, `A` = index (R86). -/
  | stateRdSm (index : Word)
  /-- STATE_RD.XS, `C = 0x19`, `A` = index (R106). -/
  | stateRdXs (index : Word)
  /-- STATUS, `C = 0x0A` (R160). -/
  | status
  deriving DecidableEq, Repr

end Sys2Proof
end

