-- ==== Sys2Proof/WellFormed.lean ====
section
/-!
DEFINITION. When a command `(C, A, B)` is well formed: the three checks of 30_encoding.md R64 on its byte, and the canonical form
of R68 in which an operand word the command does not read is 0. Every term of `Instr` is well formed as it stands, since its
operands are whole words of which every value is legal (R65): BOUNDED with n = 0 is a legal command that answers BOUND_ZERO.
These checks are written from the list of legal bytes, apart from the decoder, so that the two can be held against each other.
-/

namespace Sys2Proof

/-- Check (a) of R64: the reserved bits `C[7:5]` are zero. -/
def Command.reservedZero (k : Command) : Bool := k.byte < 0x20#8

/-- Check (b) of R64: OP, the low four bits, is at most 0xA. -/
def Command.opDefined (k : Command) : Bool := k.byte &&& 0x0F#8 ≤ 0x0A#8

/-- Check (c) of R64: the byte is not STATUS with ENG = 1. -/
def Command.notStatusXs (k : Command) : Bool := k.byte != 0x1A#8

/-- The command byte is legal (R64). -/
def Command.legal (k : Command) : Bool := k.reservedZero && k.opDefined && k.notStatusXs

/-- The 21 legal bytes as R63 lists them. -/
def legalBytes : List (BitVec 8) :=
  [0x00#8, 0x01#8, 0x02#8, 0x03#8, 0x04#8, 0x05#8, 0x06#8, 0x07#8, 0x08#8, 0x09#8, 0x0A#8,
   0x10#8, 0x11#8, 0x12#8, 0x13#8, 0x14#8, 0x15#8, 0x16#8, 0x17#8, 0x18#8, 0x19#8]

/-- The bytes of the commands that read operand word A (R65): SEED, BOUNDED, BOUNDED_REJ, REAL_BETWEEN and STATE_RD. -/
def Command.readsA (k : Command) : Bool :=
  k.byte ∈ [0x00#8, 0x10#8, 0x03#8, 0x13#8, 0x04#8, 0x14#8, 0x06#8, 0x16#8, 0x09#8, 0x19#8]

/-- The bytes of the commands that read operand word B (R65): REAL_BETWEEN alone. -/
def Command.readsB (k : Command) : Bool := k.byte ∈ [0x06#8, 0x16#8]

/-- An operand word that the command does not read is 0, as the assembler of R68 encodes it. -/
def Command.operandsCanonical (k : Command) : Bool := (k.readsA || k.a == 0) && (k.readsB || k.b == 0)

/-- A well-formed command: a legal byte and canonical operands. -/
def Command.wellFormed (k : Command) : Bool := k.legal && k.operandsCanonical

end Sys2Proof
end

