-- ==== Sys2Proof/Decode.lean ====
section
/-!
DEFINITION. The decoder of commands, total on any `(C, A, B)` and rejecting by name (30_encoding.md R61, R63, R64), and after it
the encoder, written from R63's list of full byte values.
-/

namespace Sys2Proof

/-- Why a command byte is illegal: the three cases of R64. -/
inductive Reject where
  /-- Case (a): `C[7:5] != 000`. -/
  | reservedBits
  /-- Case (b): OP is in 0xB..0xF. -/
  | reservedOp
  /-- Case (c): STATUS with ENG = 1. -/
  | statusOnXs
  deriving DecidableEq, Repr

/-- The field OP, `C[3:0]` (R61). -/
def fieldOp (c : BitVec 8) : Nat := (c.extractLsb' 0 4).toNat

/-- The field ENG, `C[4]`: 0 is SM and 1 is XS (R61). -/
def fieldEng (c : BitVec 8) : Engine := if c.getLsbD 4 then .xs else .sm

/-- The field RSV, `C[7:5]` (R61). -/
def fieldRsv (c : BitVec 8) : Nat := (c.extractLsb' 5 3).toNat

/-- The operation map of R63, for a byte whose reserved bits are zero. -/
def decodeOp (op : Nat) (e : Engine) (a b : Word) : Except Reject Instr :=
  match op, e with
  | 0x0, .sm => .ok (.seedSm a)
  | 0x0, .xs => .ok (.seedXs a)
  | 0x1, .sm => .ok .seedEntSm
  | 0x1, .xs => .ok .seedEntXs
  | 0x2, .sm => .ok .drawSm
  | 0x2, .xs => .ok .drawXs
  | 0x3, .sm => .ok (.boundedSm a)
  | 0x3, .xs => .ok (.boundedXs a)
  | 0x4, .sm => .ok (.boundedRejSm a)
  | 0x4, .xs => .ok (.boundedRejXs a)
  | 0x5, .sm => .ok .real01Sm
  | 0x5, .xs => .ok .real01Xs
  | 0x6, .sm => .ok (.realBetweenSm a b)
  | 0x6, .xs => .ok (.realBetweenXs a b)
  | 0x7, .sm => .ok .minSm
  | 0x7, .xs => .ok .minXs
  | 0x8, .sm => .ok .maxSm
  | 0x8, .xs => .ok .maxXs
  | 0x9, .sm => .ok (.stateRdSm a)
  | 0x9, .xs => .ok (.stateRdXs a)
  | 0xA, .sm => .ok .status
  | 0xA, .xs => .error .statusOnXs
  | _, _ => .error .reservedOp

/-- The command that `(C, A, B)` stands for, or why its byte is illegal (R61, R63, R64). -/
def decode : Command → Except Reject Instr
  | ⟨c, a, b⟩ => if fieldRsv c ≠ 0 then .error .reservedBits else decodeOp (fieldOp c) (fieldEng c) a b

/-- The command word of an instruction: R63's full byte values, an operand that is not read encoded as 0 (R66, R68). -/
def encode : Instr → Command
  | .seedSm seed => ⟨0x00#8, seed, 0⟩
  | .seedXs seed => ⟨0x10#8, seed, 0⟩
  | .seedEntSm => ⟨0x01#8, 0, 0⟩
  | .seedEntXs => ⟨0x11#8, 0, 0⟩
  | .drawSm => ⟨0x02#8, 0, 0⟩
  | .drawXs => ⟨0x12#8, 0, 0⟩
  | .boundedSm n => ⟨0x03#8, n, 0⟩
  | .boundedXs n => ⟨0x13#8, n, 0⟩
  | .boundedRejSm n => ⟨0x04#8, n, 0⟩
  | .boundedRejXs n => ⟨0x14#8, n, 0⟩
  | .real01Sm => ⟨0x05#8, 0, 0⟩
  | .real01Xs => ⟨0x15#8, 0, 0⟩
  | .realBetweenSm lo hi => ⟨0x06#8, lo, hi⟩
  | .realBetweenXs lo hi => ⟨0x16#8, lo, hi⟩
  | .minSm => ⟨0x07#8, 0, 0⟩
  | .minXs => ⟨0x17#8, 0, 0⟩
  | .maxSm => ⟨0x08#8, 0, 0⟩
  | .maxXs => ⟨0x18#8, 0, 0⟩
  | .stateRdSm index => ⟨0x09#8, index, 0⟩
  | .stateRdXs index => ⟨0x19#8, index, 0⟩
  | .status => ⟨0x0A#8, 0, 0⟩

/-- The command whose bits are `w`: the table numbers the byte `C` as bits 7..0 and gives the operand words no bits; this model
goes on with A as bits 71..8 and B as bits 135..72. Every bit at or above `nbits` is 0 (assumption log, entry 13). -/
def commandOfTableWord (nbits w : Nat) : Command :=
  let v := w % 2 ^ nbits
  ⟨BitVec.ofNat 8 v, BitVec.ofNat 64 (v / 2 ^ 8), BitVec.ofNat 64 (v / 2 ^ 72)⟩

/-- The command that the decoder reads from the table's word `w` of `nbits` bits, none where it refuses. -/
def decodeTableWord (nbits w : Nat) : Option Instr :=
  match decode (commandOfTableWord nbits w) with
  | .ok i => some i
  | .error _ => none

end Sys2Proof
end

