-- ==== Sys2Proof/Machine/State.lean ====
section
/-!
DEFINITION. The state of the machine as plain data: the block's architectural state (10_state.md), its channels (30_encoding.md
R60, 70_reset_and_hazards.md R203) and what the two other agents of 60_exceptions.md R192 do next; the state after reset; and the
reasons a step can stop.
-/

namespace Sys2Proof.Machine

/-- The four words `XS[0..3]` of the xoshiro256** engine (R22). -/
structure XsWords where
  /-- `XS[0]`. -/
  s0 : Word
  /-- `XS[1]`. -/
  s1 : Word
  /-- `XS[2]`. -/
  s2 : Word
  /-- `XS[3]`. -/
  s3 : Word
  deriving DecidableEq, Repr

/-- The six error codes (R181). -/
inductive ErrCode where
  /-- Code 1: an illegal command byte. -/
  | illegalCmd
  /-- Code 2: engine `e` is read while `SEEDED[e] = 0`. -/
  | notSeeded
  /-- Code 3: `A = 0` given as the bound. -/
  | boundZero
  /-- Code 4: a NaN or an infinity given to REAL_BETWEEN. -/
  | badFloat
  /-- Code 5: the ENT channel answered `Fail`. -/
  | entropyFail
  /-- Code 6: a STATE_RD index outside R41. -/
  | badIndex
  deriving DecidableEq, Repr

/-- What the entropy source does at one request of the block (R8, R193, R205). -/
inductive EntAct where
  /-- It answers `Word(w)`. -/
  | word (w : Word)
  /-- It answers `Fail`. -/
  | fail
  /-- It does not answer this request: the command waits, and only a reset ends it. -/
  | silent
  deriving DecidableEq, Repr

/-- What the host does next (R192). -/
inductive HostAct where
  /-- It sends a command on CMD. -/
  | send (k : Command)
  /-- It takes the response from RSP. -/
  | take
  /-- It asserts reset. -/
  | reset
  deriving DecidableEq, Repr

/-- The state of one instance of the block and of the agents around it. The fields down to `rsp` are the block's; the last four
are the model's own (INVENTORY.md, State). -/
structure State where
  /-- `SM`, the SplitMix64 counter (R21). -/
  sm : Word
  /-- `XS[0..3]`, the xoshiro256** state words (R22). -/
  xs : XsWords
  /-- `SEEDED[1:0]`: bit 0 is SM, bit 1 is XS (R24). -/
  seeded : BitVec 2
  /-- `ERR[7:0]`, the sticky error bits; bits 0 and 7 read as 0 (R25; read through `readErr`). -/
  err : BitVec 8
  /-- CMD: the command the block has accepted and not yet answered (R44, R203). -/
  cmd : Option Command
  /-- RSP: the response the host has not yet taken (R203). -/
  rsp : Option Response
  /-- What the host does next, in order: no law (R192). Empty: nothing more. -/
  host : List HostAct
  /-- What the entropy source does at each request to come, in order: no law (R193). Empty: it answers no more. -/
  ent : List EntAct
  /-- The responses the host has taken, oldest first: the observation of a run (R207). DESIGN CHOICE: a reset that the host asserts
  keeps the earlier ones (assumption log, entry 17). -/
  taken : List Response
  /-- How many resets were asserted during the run: the index of the free values a reset leaves (`Config.resetSm`). -/
  resets : Nat
  deriving DecidableEq, Repr

/-- The state right after reset (R31, R200): `SEEDED = 00`, `ERR = 0x00`, both channels empty. `SM` and `XS[0..3]` are
unspecified there and no command can observe them: DESIGN CHOICE 0, unsafe (assumption log, entries 4 and 5). The agents' lists
are empty: nothing is placed yet (entry 15). -/
def State.reset : State where
  sm := 0
  xs := ⟨0, 0, 0, 0⟩
  seeded := 0
  err := 0
  cmd := none
  rsp := none
  host := []
  ent := []
  taken := []
  resets := 0

/-- Why the machine stops with a fault. -/
inductive Fault where
  /-- Raised by BOUNDED_REJ.SM and BOUNDED_REJ.XS when `Config.rejFuel` draws in a row were rejected: the hardware's loop then
  never ends (R125, U18). Safe: a stop, never a value (assumption log, entry 8). -/
  | rejFuelExhausted
  deriving DecidableEq, Repr

/-- Why the machine refuses. -/
inductive Refusal where
  /-- Raised by `exec` alone, for an instruction that has no meaning yet. Safe. No arm of `exec` answers it any more. -/
  | notModelled (mnemonic : String)
  deriving DecidableEq, Repr

end Sys2Proof.Machine
end

