-- ==== Sys2Proof/Machine/Engines.lean ====
section
/-!
DEFINITION. The functions of the two engines on plain words: rotation and the high product (00_scope.md R3, R4), SplitMix64
(40_splitmix64.md R80 to R82) and xoshiro256** (41_xoshiro256ss.md R100, R101, R104).
-/

namespace Sys2Proof.Machine

/-- `rotl(x, k)`, the left rotation by `1 <= k <= 63` (R3). -/
def rotl (x : Word) (k : Nat) : Word := (x <<< k) ^^^ (x >>> (64 - k))

/-- `mulhi(a, b)`, the high 64 bits of the exact 128-bit product (R4). -/
def mulhi (a b : Word) : Word := BitVec.ofNat 64 (a.toNat * b.toNat / 2 ^ 64)

/-- GAMMA, the state increment (R80). -/
def gamma : Word := 0x9E3779B97F4A7C15#64

/-- M1, the first multiplier (R80). -/
def mixM1 : Word := 0xBF58476D1CE4E5B9#64

/-- M2, the second multiplier (R80). -/
def mixM2 : Word := 0x94D049BB133111EB#64

/-- The counter's increment, `SM + 0x9E3779B97F4A7C15` modulo 2^64 (R82). The constant stands first: `+` commutes, and Lean's
kernel then never counts through it in unary. -/
def smNext (w : Word) : Word := gamma + w

/-- `Mix64(z)`, the output transform of SplitMix64 (R81). The multiplier stands first, for the reason given at `smNext`. -/
def mix64 (z : Word) : Word :=
  let z1 := mixM1 * (z ^^^ (z >>> 30))
  let z2 := mixM2 * (z1 ^^^ (z1 >>> 27))
  z2 ^^^ (z2 >>> 31)

/-- `XSOut(x)`, the output scrambler of xoshiro256** (R100). -/
def xsOut (x : Word) : Word := rotl (x * 5) 7 * 9

/-- `XSNext`, the state update of xoshiro256**, each line reading what the lines before it wrote (R101). -/
def xsNext (x : XsWords) : XsWords :=
  let t := x.s1 <<< 17
  let s2 := x.s2 ^^^ x.s0
  let s3 := x.s3 ^^^ x.s1
  let s1 := x.s1 ^^^ s2
  let s0 := x.s0 ^^^ s3
  let s2 := s2 ^^^ t
  let s3 := rotl s3 45
  ⟨s0, s1, s2, s3⟩

/-- The four words SEED.XS leaves: successive outputs of a transient SplitMix64 that starts from the seed (R104). -/
def xsOfSeed (seed : Word) : XsWords :=
  let t1 := smNext seed
  let t2 := smNext t1
  let t3 := smNext t2
  let t4 := smNext t3
  ⟨mix64 t1, mix64 t2, mix64 t3, mix64 t4⟩

end Sys2Proof.Machine
end

