-- ==== Sys2Proof/Config.lean ====
section
/-!
DEFINITION. What an implementation fixes, and the free values. The parameters HOST_BYTE_ORDER, PLATFORM_MAPPING and LATENCY(op)
of 00_scope.md are read by no rule and so have no place here (assumption log, entry 14).
-/

namespace Sys2Proof

/-- REJ_FUEL (42_bounded.md R125, 92_eei_decisions.md D29): how many draws the model lets one BOUNDED_REJ make. No engine has
more than 2^256 states and a draw is a function of the state, so a loop that accepts none of its first 2^256 draws never ends in
the hardware either: at this fuel the model's fault is exactly the hardware's endless loop. DESIGN CHOICE, safe (assumption log,
entry 8). -/
def Config.rejFuel : Nat := 2 ^ 256

/-- FREE VALUE: the content of `SM` after the `n`-th reset asserted during a run, which R31 leaves unspecified (U9, U10;
assumption log, entry 6). -/
opaque Config.resetSm : Nat → Word

/-- FREE VALUE: the content of `XS[i]` after the `n`-th reset asserted during a run, as `Config.resetXs n i`, which R31 leaves
unspecified (U9, U10; assumption log, entry 6). -/
opaque Config.resetXs : Nat → Nat → Word

end Sys2Proof
end

