-- ==== Sys2Proof/Machine/Flags.lean ====
section
/-!
DEFINITION. The status bits: `SEEDED[1:0]`, the sticky `ERR[7:0]`, and the word STATUS makes of them (10_state.md R24, R25;
44_control.md R160). The block has no condition flags (R28).
-/

namespace Sys2Proof.Machine

/-- The number of an engine, which is also its bit of `SEEDED` (R20, R24). -/
def engineIndex : Engine → Nat
  | .sm => 0
  | .xs => 1

/-- `SEEDED[e]` (R24). -/
def seededBit (e : Engine) (s : State) : Bool := s.seeded.getLsbD (engineIndex e)

/-- `SEEDED[e] <- 1` (R84, R104). -/
def markSeeded (e : Engine) (s : State) : State := { s with seeded := s.seeded ||| (1#2 <<< engineIndex e) }

/-- The status code of an error (R181). -/
def errCode : ErrCode → BitVec 4
  | .illegalCmd => 1
  | .notSeeded => 2
  | .boundZero => 3
  | .badFloat => 4
  | .entropyFail => 5
  | .badIndex => 6

/-- `ERR[7:0]` as it reads: bits 0 and 7 are hardwired to 0 (R25; assumption log, entry 9). -/
def readErr (s : State) : BitVec 8 := s.err &&& 0x7E#8

/-- `ERR[S] <- 1` for the code of the error (R184). -/
def recordError (k : ErrCode) (s : State) : State := { s with err := s.err ||| (1#8 <<< (errCode k).toNat) }

/-- The data of STATUS: `zext_64({ ERR[7:0], 0b000000, SEEDED[1:0] })` (R160). -/
def statusWord (s : State) : Word := (readErr s ++ 0#6 ++ s.seeded : BitVec 16).setWidth 64

end Sys2Proof.Machine
end

