-- ==== Sys2Proof/Machine/Ops.lean ====
section
/-!
DEFINITION. The named operations over the state: the two ways a command ends (00_scope.md R9), which are all the block has of
taking an exception and of returning from one (60_exceptions.md R184, R187), seeding and drawing (R82, R84, R102, R104), the
read of the entropy source (R8, R193), reset (R200), and the host's actions on the channels (R192, R203).
-/

namespace Sys2Proof.Machine

/-- The outcome type of every meaning. -/
abbrev Result := Host.Outcome State Fault Refusal

/-- Status code 0, OK (R181). -/
def statusOk : BitVec 4 := 0

/-- The command ends: CMD is free again and RSP holds its one response (R60). -/
def endCommand (r : Response) (s : State) : State := { s with cmd := none, rsp := some r }

/-- `respond(d)`: the command ends with status OK and data `d` (R9). -/
def respond (d : Word) (s : State) : State := endCommand ⟨statusOk, d⟩ s

/-- `raise S`: the response is `(S, 0)`, `ERR[S] <- 1`, nothing else changes (R9, R184). -/
def raise (k : ErrCode) (s : State) : State := endCommand ⟨errCode k, 0⟩ (recordError k s)

/-- The check of every command that reads engine `e`: NOT_SEEDED while `SEEDED[e] = 0` (R182), before any other (R185). -/
def ifSeeded (e : Engine) (s : State) (body : Result) : Result :=
  if seededBit e s then body else .next (raise .notSeeded s)

/-- MINV, hardwired (R26). -/
def minv : Word := 0

/-- MAXV, hardwired (R26). -/
def maxv : Word := 0xFFFFFFFFFFFFFFFF#64

/-- `SM <- w`. -/
def writeSm (w : Word) (s : State) : State := { s with sm := w }

/-- `XS[0..3] <- x`. -/
def writeXs (x : XsWords) (s : State) : State := { s with xs := x }

/-- Seeding engine `e` with a word: its whole state is written and `SEEDED[e]` is set. The transient SplitMix64 of XS seeding
neither reads nor writes `SM` (R84, R104). -/
def seedEngine : Engine → Word → State → State
  | .sm, w, s => markSeeded .sm (writeSm w s)
  | .xs, w, s => markSeeded .xs (writeXs (xsOfSeed w) s)

/-- `Draw(SM)`: the counter advances, and the output is of the new value (R82). -/
def drawSm (s : State) : Word × State :=
  (mix64 (smNext s.sm), writeSm (smNext s.sm) s)

/-- `Draw(XS)`: the output is of the old state, which then advances (R102). -/
def drawXs (s : State) : Word × State := (xsOut s.xs.s1, writeXs (xsNext s.xs) s)

/-- `Draw(e)` (R7). -/
def draw : Engine → State → Word × State
  | .sm, s => drawSm s
  | .xs, s => drawXs s

/-- What one request on ENT brings: an answer, or none yet. -/
inductive EntRead where
  /-- `Word(w)`, with the answer consumed. -/
  | word (w : Word) (s : State)
  /-- `Fail`, with the answer consumed. -/
  | fail (s : State)
  /-- No answer: the command holds (R205). -/
  | waiting
  deriving DecidableEq, Repr

/-- The entropy source's next act is used up. -/
def dropEnt (s : State) : State := { s with ent := s.ent.tail }

/-- `EntropyRead()`: one request on ENT and its answer (R8, R193; assumption log, entry 2). -/
def entropyRead (s : State) : EntRead :=
  match s.ent with
  | .word w :: _ => .word w (dropEnt s)
  | .fail :: _ => .fail (dropEnt s)
  | .silent :: _ => .waiting
  | [] => .waiting

/-- Whether an instruction is one that requests entropy: SEED_ENT alone (R193). -/
def requestsEntropy : Instr → Bool
  | .seedEntSm => true
  | .seedEntXs => true
  | _ => false

/-- Whether an instruction, at its turn, waits for the entropy source (R205). -/
def holds (i : Instr) (s : State) : Bool := requestsEntropy i && entropyRead s == .waiting

/-- Whether the outstanding command is one that waits for the entropy source. -/
def blockHolds (s : State) : Bool :=
  match s.cmd with
  | none => false
  | some k =>
    match decode k with
    | .ok i => holds i s
    | .error _ => false

/-- Reset asserted by the host (R31, R200): `SEEDED` and `ERR` are 0, `SM` and `XS[0..3]` are unspecified (free values), no
response is produced and no ENT request is sent. A command still outstanding, waiting for ENT or for its response to be taken,
gives no response (U10; assumption log, entries 6 and 7); its unanswered ENT request is dropped with it. DESIGN CHOICE: `taken`
keeps the responses taken before the reset; R207 does not say that the observation starts anew (assumption log, entry 17). -/
def resetBlock (s : State) : State where
  sm := Config.resetSm s.resets
  xs := ⟨Config.resetXs s.resets 0, Config.resetXs s.resets 1, Config.resetXs s.resets 2, Config.resetXs s.resets 3⟩
  seeded := 0
  err := 0
  cmd := none
  rsp := none
  host := s.host
  ent := if blockHolds s then s.ent.tail else s.ent
  taken := s.taken
  resets := s.resets + 1

/-- The host sends a command. CMD accepts it only when no command is outstanding and the last response has been taken; otherwise
the host waits, its action still to come (R203). -/
def hostSend (k : Command) (rest : List HostAct) (s : State) : State :=
  if s.cmd = none ∧ s.rsp = none then { s with cmd := some k, host := rest } else s

/-- The host takes the response from RSP; with none there it waits, its action still to come (R192). -/
def hostTake (rest : List HostAct) (s : State) : State :=
  match s.rsp with
  | some r => { s with rsp := none, taken := s.taken ++ [r], host := rest }
  | none => s

/-- The host asserts reset (R200). -/
def hostReset (rest : List HostAct) (s : State) : State := resetBlock { s with host := rest }

/-- The host's next action; with none to come, or while it waits, nothing changes. -/
def hostStep (s : State) : State :=
  match s.host with
  | [] => s
  | .send k :: rest => hostSend k rest s
  | .take :: rest => hostTake rest s
  | .reset :: rest => hostReset rest s

/-- A command is placed on CMD as the outstanding one, with RSP free, and an answer ready for the request of a SEED_ENT where the
entropy source has none (assumption log, entry 13). -/
def placeCommand (k : Command) (s : State) : State :=
  let s1 := { s with cmd := some k, rsp := none }
  if blockHolds s1 then { s1 with ent := .word 0 :: s1.ent } else s1

end Sys2Proof.Machine
end

