-- ==== Sys2Proof/Machine/Draws.lean ====
section
/-!
DEFINITION. The meanings of DRAW (40_splitmix64.md R83; 41_xoshiro256ss.md R103).
-/

namespace Sys2Proof.Machine

/-- One draw of a seeded engine `e`, answered through `f`: the shape DRAW, BOUNDED, REAL01 and REAL_BETWEEN share once their
checks have passed (R83, R103, R120, R140, R142). -/
def drawAndAnswer (e : Engine) (f : Word → Word) (s : State) : Result :=
  .next (respond (f (draw e s).1) (draw e s).2)

/-- DRAW on engine `e`. -/
def drawCommand (e : Engine) (s : State) : Result := ifSeeded e s (drawAndAnswer e id s)

/-- DRAW.SM (R83). -/
def execDrawSm (s : State) : Result := drawCommand .sm s

/-- DRAW.XS (R103). -/
def execDrawXs (s : State) : Result := drawCommand .xs s

end Sys2Proof.Machine
end

