-- ==== Sys2Proof/Machine/Float64.lean ====
section
/-!
DEFINITION. IEEE-754 binary64 on 64-bit words: the fields of 00_scope.md R5, and `f64_sub` and `f64_mul`, each rounded once under
roundTiesToEven with gradual underflow and no flags (43_real.md R143). Both compute the exact result on integers and round it once.
The operations themselves are general knowledge of IEEE-754 (93_implementation_defined.md G1; assumption log, entry 12).
-/

namespace Sys2Proof.Machine

/-- The sign `f[63]` (R5). -/
def f64Sign (f : Word) : Bool := f.getLsbD 63

/-- The biased exponent `f[62:52]` (R5). -/
def f64Exp (f : Word) : Nat := (f.extractLsb' 52 11).toNat

/-- The fraction `f[51:0]` (R5). -/
def f64Frac (f : Word) : Nat := (f.extractLsb' 0 52).toNat

/-- `isNaN(f)` (R5). -/
def isNaN (f : Word) : Bool := f64Exp f == 0x7FF && f64Frac f != 0

/-- `isInf(f)` (R5). -/
def isInf (f : Word) : Bool := f64Exp f == 0x7FF && f64Frac f == 0

/-- The quiet NaN of R144. -/
def f64NaN : Word := 0x7FF8000000000000#64

/-- The bit pattern of an infinity without its sign, as a number: exponent 0x7FF, fraction 0. -/
def f64InfMag : Nat := 0x7FF * 2 ^ 52

/-- A word from a sign and the 63 bits below it. -/
def f64Pack (neg : Bool) (mag : Nat) : Word := BitVec.ofNat 64 ((if neg then 2 ^ 63 else 0) + mag)

/-- The magnitude of a finite `f` as a whole number of units of `2^-1074`, the spacing of the subnormals. -/
def f64Units (f : Word) : Nat :=
  if f64Exp f = 0 then f64Frac f else (2 ^ 52 + f64Frac f) * 2 ^ (f64Exp f - 1)

/-- The value of a finite `f` as a whole number of units of `2^-1074`. -/
def f64Value (f : Word) : Int := if f64Sign f then -(f64Units f : Int) else (f64Units f : Int)

/-- `n / 2^d` rounded to a whole number, a tie to the even one. -/
def roundShift (n d : Nat) : Nat :=
  let q := n / 2 ^ d
  let r := n % 2 ^ d
  if 2 * r > 2 ^ d ∨ (2 * r = 2 ^ d ∧ q % 2 = 1) then q + 1 else q

/-- The binary64 nearest to `n * 2^-(1074 + sh)` under roundTiesToEven, with the given sign (R143). The kept bits are at most 53
and never finer than the subnormal spacing `2^-1074` (gradual underflow); what reaches the infinity's pattern is the infinity. -/
def f64Round (neg : Bool) (n sh : Nat) : Word :=
  let d := max (n.log2 - 52) sh
  f64Pack neg (min ((d - sh) * 2 ^ 52 + roundShift n d) f64InfMag)

/-- `f64_sub(a, b)` (R5, R143). An exact zero is `+0`, except `(-0) - (+0) = -0`. -/
def f64Sub (a b : Word) : Word :=
  if isNaN a || isNaN b then f64NaN
  else if isInf a then (if isInf b && f64Sign a == f64Sign b then f64NaN else a)
  else if isInf b then f64Pack (!f64Sign b) f64InfMag
  else
    let d := f64Value a - f64Value b
    if d = 0 then f64Pack (f64Sign a && !f64Sign b) 0
    else f64Round (decide (d < 0)) d.natAbs 0

/-- `f64_mul(a, b)` (R5, R143). -/
def f64Mul (a b : Word) : Word :=
  let neg := f64Sign a != f64Sign b
  if isNaN a || isNaN b then f64NaN
  else if isInf a then (if !isInf b && f64Units b == 0 then f64NaN else f64Pack neg f64InfMag)
  else if isInf b then (if f64Units a == 0 then f64NaN else f64Pack neg f64InfMag)
  else f64Round neg (f64Units a * f64Units b) 1074

/-- The binary64 bit pattern of 1.0. -/
def f64One : Word := 0x3FF0000000000000#64

/-- `Real01Bits(w)`: `v - 1.0` for the `v` whose top 12 bits are 0x3FF and whose low 52 bits are `w >> 12` (R141). -/
def real01Bits (w : Word) : Word := f64Sub (f64One ||| (w >>> 12)) f64One

/-- `(hi - lo) * real01`, without adding `lo`, a NaN replaced by the one of R144 (R142). -/
def realBetweenBits (lo hi w : Word) : Word :=
  let x := f64Mul (f64Sub hi lo) (real01Bits w)
  if isNaN x then f64NaN else x

end Sys2Proof.Machine
end

