-- ==== Sys2Proof/Machine/Operands.lean ====
section
/-!
DEFINITION. The operand forms (30_encoding.md R65): the state index of STATE_RD (20_memory.md R41), the bound `n` of BOUNDED and
BOUNDED_REJ (42_bounded.md R120, R125) and the binary64 operands of REAL_BETWEEN (43_real.md R142), each with its own error. A
seed is used as it stands and has no check.
-/

namespace Sys2Proof.Machine

/-- The state index space: the word at an index of engine `e`, or none outside it. The index is a full 64-bit number and is never
truncated (R41). -/
def stateWord (e : Engine) (index : Word) (s : State) : Option Word :=
  match e, index.toNat with
  | .sm, 0 => some s.sm
  | .xs, 0 => some s.xs.s0
  | .xs, 1 => some s.xs.s1
  | .xs, 2 => some s.xs.s2
  | .xs, 3 => some s.xs.s3
  | _, _ => none

/-- A bound `n` must not be 0 (R120, R125). -/
def ifBound (n : Word) (s : State) (body : Result) : Result :=
  if n = 0 then .next (raise .boundZero s) else body

/-- An operand that REAL_BETWEEN accepts: neither a NaN nor an infinity (R142). -/
def f64Finite (f : Word) : Bool := !(isNaN f || isInf f)

/-- Both binary64 operands must be finite (R142). -/
def ifFinite (lo hi : Word) (s : State) (body : Result) : Result :=
  if f64Finite lo && f64Finite hi then body else .next (raise .badFloat s)

end Sys2Proof.Machine
end

