-- ==== Sys2Proof/Machine/Bounded.lean ====
section
/-!
DEFINITION. The meanings of BOUNDED, BOUNDED_REJ, MIN and MAX (42_bounded.md R120, R122, R125, R126, R127).
-/

namespace Sys2Proof.Machine

/-- BOUNDED on engine `e`: one draw, wide multiply (R120). -/
def bounded (e : Engine) (n : Word) (s : State) : Result :=
  ifSeeded e s (ifBound n s (drawAndAnswer e (mulhi n) s))

/-- `Threshold(n) = (0 - n) mod n` (R122). -/
def threshold (n : Word) : Word := (0 - n) % n

/-- The loop of BOUNDED_REJ under fuel: draw until a word is at or above the threshold, and answer it modulo `n`; none when the
fuel runs out (R123, R125). -/
def rejLoop (e : Engine) (n : Word) : Nat → State → Option (Word × State)
  | 0, _ => none
  | fuel + 1, s =>
    if threshold n ≤ (draw e s).1 then some ((draw e s).1 % n, (draw e s).2)
    else rejLoop e n fuel (draw e s).2

/-- BOUNDED_REJ on engine `e` (R125). -/
def boundedRej (e : Engine) (n : Word) (s : State) : Result :=
  ifSeeded e s (ifBound n s
    (match rejLoop e n Config.rejFuel s with
      | some (w, s1) => .next (respond w s1)
      | none => .fault .rejFuelExhausted))

/-- BOUNDED.SM (R120). -/
def execBoundedSm (n : Word) (s : State) : Result := bounded .sm n s

/-- BOUNDED.XS (R120). -/
def execBoundedXs (n : Word) (s : State) : Result := bounded .xs n s

/-- BOUNDED_REJ.SM (R125). -/
def execBoundedRejSm (n : Word) (s : State) : Result := boundedRej .sm n s

/-- BOUNDED_REJ.XS (R125). -/
def execBoundedRejXs (n : Word) (s : State) : Result := boundedRej .xs n s

/-- MIN.SM: the engine need not be seeded (R126). -/
def execMinSm (s : State) : Result := .next (respond minv s)

/-- MIN.XS: the engine need not be seeded (R126). -/
def execMinXs (s : State) : Result := .next (respond minv s)

/-- MAX.SM: the engine need not be seeded (R127). -/
def execMaxSm (s : State) : Result := .next (respond maxv s)

/-- MAX.XS: the engine need not be seeded (R127). -/
def execMaxXs (s : State) : Result := .next (respond maxv s)

end Sys2Proof.Machine
end

