-- ==== Sys2Proof/Machine/Control.lean ====
section
/-!
DEFINITION. The meanings of STATE_RD and STATUS, and of an illegal command byte (40_splitmix64.md R86; 41_xoshiro256ss.md R106;
44_control.md R160; 60_exceptions.md R180).
-/

namespace Sys2Proof.Machine

/-- STATE_RD on engine `e`: NOT_SEEDED, then BAD_INDEX, then the word; the engine does not advance (R86, R106). -/
def stateRead (e : Engine) (index : Word) (s : State) : Result :=
  ifSeeded e s
    (match stateWord e index s with
      | some w => .next (respond w s)
      | none => .next (raise .badIndex s))

/-- STATE_RD.SM (R86). -/
def execStateRdSm (index : Word) (s : State) : Result := stateRead .sm index s

/-- STATE_RD.XS (R106). -/
def execStateRdXs (index : Word) (s : State) : Result := stateRead .xs index s

/-- STATUS: it clears nothing and needs no engine seeded (R160). -/
def execStatus (s : State) : Result := .next (respond (statusWord s) s)

/-- A command whose byte is illegal ends with ILLEGAL_CMD, before anything else (R64, R180, R185). -/
def execIllegal (s : State) : Result := .next (raise .illegalCmd s)

end Sys2Proof.Machine
end

