-- ==== Sys2Proof/Machine/Real.lean ====
section
/-!
DEFINITION. The meanings of REAL01 and REAL_BETWEEN (43_real.md R140, R142).
-/

namespace Sys2Proof.Machine

/-- REAL01 on engine `e` (R140). -/
def real01 (e : Engine) (s : State) : Result := ifSeeded e s (drawAndAnswer e real01Bits s)

/-- REAL_BETWEEN on engine `e` (R142). -/
def realBetween (e : Engine) (lo hi : Word) (s : State) : Result :=
  ifSeeded e s (ifFinite lo hi s (drawAndAnswer e (realBetweenBits lo hi) s))

/-- REAL01.SM (R140). -/
def execReal01Sm (s : State) : Result := real01 .sm s

/-- REAL01.XS (R140). -/
def execReal01Xs (s : State) : Result := real01 .xs s

/-- REAL_BETWEEN.SM (R142). -/
def execRealBetweenSm (lo hi : Word) (s : State) : Result := realBetween .sm lo hi s

/-- REAL_BETWEEN.XS (R142). -/
def execRealBetweenXs (lo hi : Word) (s : State) : Result := realBetween .xs lo hi s

end Sys2Proof.Machine
end

