-- ==== Sys2Proof/Machine/Seeding.lean ====
section
/-!
DEFINITION. The meanings of SEED and SEED_ENT (40_splitmix64.md R84, R85; 41_xoshiro256ss.md R104, R105).
-/

namespace Sys2Proof.Machine

/-- SEED on engine `e`: total, legal whether or not the engine is seeded (R84, R104). -/
def seed (e : Engine) (w : Word) (s : State) : Result := .next (respond 0 (seedEngine e w s))

/-- SEED_ENT on engine `e`: one word is read on ENT; on `Fail` the engine is as it was; without an answer the command holds and
nothing changes (R85, R105, R194, R205). -/
def seedEnt (e : Engine) (s : State) : Result :=
  match entropyRead s with
  | .word w s1 => .next (respond 0 (seedEngine e w s1))
  | .fail s1 => .next (raise .entropyFail s1)
  | .waiting => .next s

/-- SEED.SM (R84). -/
def execSeedSm (w : Word) (s : State) : Result := seed .sm w s

/-- SEED.XS (R104). -/
def execSeedXs (w : Word) (s : State) : Result := seed .xs w s

/-- SEED_ENT.SM (R85). -/
def execSeedEntSm (s : State) : Result := seedEnt .sm s

/-- SEED_ENT.XS (R105). -/
def execSeedEntXs (s : State) : Result := seedEnt .xs s

end Sys2Proof.Machine
end

