-- ==== Sys2Proof/Machine/Dispatch.lean ====
section
/-!
DEFINITION. The dispatch of 60_exceptions.md R180: one arm per command, each one call of its meaning.
-/

namespace Sys2Proof.Machine

/-- The effect of one command on the state (R180). -/
def exec (i : Instr) (s : State) : Host.Outcome State Fault Refusal :=
  match i with
  | .seedSm w => Sys2Proof.Machine.execSeedSm w s
  | .seedXs w => Sys2Proof.Machine.execSeedXs w s
  | .seedEntSm => Sys2Proof.Machine.execSeedEntSm s
  | .seedEntXs => Sys2Proof.Machine.execSeedEntXs s
  | .drawSm => Sys2Proof.Machine.execDrawSm s
  | .drawXs => Sys2Proof.Machine.execDrawXs s
  | .boundedSm n => Sys2Proof.Machine.execBoundedSm n s
  | .boundedXs n => Sys2Proof.Machine.execBoundedXs n s
  | .boundedRejSm n => Sys2Proof.Machine.execBoundedRejSm n s
  | .boundedRejXs n => Sys2Proof.Machine.execBoundedRejXs n s
  | .real01Sm => Sys2Proof.Machine.execReal01Sm s
  | .real01Xs => Sys2Proof.Machine.execReal01Xs s
  | .realBetweenSm lo hi => Sys2Proof.Machine.execRealBetweenSm lo hi s
  | .realBetweenXs lo hi => Sys2Proof.Machine.execRealBetweenXs lo hi s
  | .minSm => Sys2Proof.Machine.execMinSm s
  | .minXs => Sys2Proof.Machine.execMinXs s
  | .maxSm => Sys2Proof.Machine.execMaxSm s
  | .maxXs => Sys2Proof.Machine.execMaxXs s
  | .stateRdSm index => Sys2Proof.Machine.execStateRdSm index s
  | .stateRdXs index => Sys2Proof.Machine.execStateRdXs index s
  | .status => Sys2Proof.Machine.execStatus s

end Sys2Proof.Machine
end

