-- ==== Sys2Proof/Machine/Step.lean ====
section
/-!
DEFINITION. One step of the machine (60_exceptions.md R180, R192): the block performs the outstanding command as one indivisible
transition (20_memory.md R45), and where it has none to perform, or waits for the entropy source or for its response to be taken,
the host makes its next action (assumption log, entry 3).
-/

namespace Sys2Proof.Machine

/-- One step. The block has its turn when a command is outstanding and RSP is free; an illegal byte is answered by
ILLEGAL_CMD (R64), a command that waits for ENT leaves the turn to the host (R205), and any other is performed (R180). -/
def step (s : State) : Host.Outcome State Fault Refusal :=
  match s.cmd, s.rsp with
  | some k, none =>
    match decode k with
    | .error _ => execIllegal s
    | .ok i => if holds i s then .next (hostStep s) else exec i s
  | _, _ => .next (hostStep s)

/-- `s` with the command of the table's word `w` outstanding on CMD, so that the very next step performs it (assumption log,
entry 13). -/
def State.withFetchWord (s : State) (nbits w : Nat) : State := placeCommand (commandOfTableWord nbits w) s

end Sys2Proof.Machine
end

