-- ==== Sys2Proof/Machine/Assembler.lean ====
section
/-!
DEFINITION. The assembler of 30_encoding.md R68: the textual form `MNEMONIC[.ENG] [operand[, operand]]` of a command and the
command it encodes. No step reads it: it is the host's tool. What R68 leaves open of the text (spaces, the case of hexadecimal
digits, a minus sign) is settled in the assumption log, entry 16.
-/

namespace Sys2Proof.Machine

/-- The value of a digit in the given base, none for any other character. -/
def digitValue (base : Nat) (c : Char) : Option Nat :=
  let v :=
    if '0' ≤ c ∧ c ≤ '9' then c.toNat - 48
    else if 'A' ≤ c ∧ c ≤ 'F' then c.toNat - 55
    else if 'a' ≤ c ∧ c ≤ 'f' then c.toNat - 87
    else base
  if v < base then some v else none

/-- The digits that follow those read so far. -/
def readDigits (base : Nat) : Nat → List Char → Option Nat
  | acc, [] => some acc
  | acc, c :: rest =>
    match digitValue base c with
    | some d => readDigits base (acc * base + d) rest
    | none => none

/-- A number of at least one digit. -/
def readNumber (base : Nat) (cs : List Char) : Option Nat := if cs = [] then none else readDigits base 0 cs

/-- A value that does not fit in 64 bits unsigned is rejected. -/
def fitWord (n : Nat) : Option Word := if n < 2 ^ 64 then some (BitVec.ofNat 64 n) else none

/-- An integer operand, hexadecimal (`0x7B`) or decimal (`123`). -/
def integerOperand : List Char → Option Word
  | '0' :: 'x' :: hex => (readNumber 16 hex).bind fitWord
  | cs => (readNumber 10 cs).bind fitWord

/-- `n / d` rounded to a whole number, a tie to the even one. -/
def roundRatio (n d : Nat) : Nat :=
  if d < 2 * (n % d) ∨ (2 * (n % d) = d ∧ n / d % 2 = 1) then n / d + 1 else n / d

/-- The binary64 nearest to `num / den` under roundTiesToEven, with the given sign (93_implementation_defined.md G2). -/
def f64OfRatio (neg : Bool) (num den : Nat) : Word :=
  let u := num * 2 ^ 1074
  let e := (u / den).log2 - 52
  f64Pack neg (min (e * 2 ^ 52 + roundRatio u (den * 2 ^ e)) f64InfMag)

/-- A decimal literal: digits around one `.`. -/
def decimalOperand (neg : Bool) (cs : List Char) : Option Word :=
  let whole := cs.takeWhile (· != '.')
  match cs.dropWhile (· != '.') with
  | [] => none
  | _ :: frac => (readNumber 10 (whole ++ frac)).map fun n => f64OfRatio neg n (10 ^ frac.length)

/-- A binary64 operand: a raw bit pattern `f64:0x…`, or a decimal literal containing a `.`. -/
def floatOperand : List Char → Option Word
  | 'f' :: '6' :: '4' :: ':' :: '0' :: 'x' :: hex => (readNumber 16 hex).bind fitWord
  | '-' :: cs => decimalOperand true cs
  | cs => decimalOperand false cs

/-- Which operands a mnemonic takes. -/
inductive OperandForm where
  /-- None. -/
  | noOperand
  /-- One integer. -/
  | integer
  /-- Two binary64 values, `lo` and `hi`. -/
  | floats
  deriving DecidableEq, Repr

/-- The mnemonics with their engine suffix, required on all but STATUS, the byte of R63 and the operands of R65. -/
def mnemonicTable : List (String × BitVec 8 × OperandForm) :=
  [("SEED.SM", 0x00#8, .integer), ("SEED.XS", 0x10#8, .integer), ("SEED_ENT.SM", 0x01#8, .noOperand),
   ("SEED_ENT.XS", 0x11#8, .noOperand), ("DRAW.SM", 0x02#8, .noOperand), ("DRAW.XS", 0x12#8, .noOperand),
   ("BOUNDED.SM", 0x03#8, .integer), ("BOUNDED.XS", 0x13#8, .integer), ("BOUNDED_REJ.SM", 0x04#8, .integer),
   ("BOUNDED_REJ.XS", 0x14#8, .integer), ("REAL01.SM", 0x05#8, .noOperand), ("REAL01.XS", 0x15#8, .noOperand),
   ("REAL_BETWEEN.SM", 0x06#8, .floats), ("REAL_BETWEEN.XS", 0x16#8, .floats), ("MIN.SM", 0x07#8, .noOperand),
   ("MIN.XS", 0x17#8, .noOperand), ("MAX.SM", 0x08#8, .noOperand), ("MAX.XS", 0x18#8, .noOperand),
   ("STATE_RD.SM", 0x09#8, .integer), ("STATE_RD.XS", 0x19#8, .integer), ("STATUS", 0x0A#8, .noOperand)]

/-- The text without the spaces around it. -/
def trimSpaces (cs : List Char) : List Char :=
  ((cs.dropWhile (· == ' ')).reverse.dropWhile (· == ' ')).reverse

/-- The parts of a text between its commas. -/
def splitCommas : List Char → List (List Char)
  | [] => [[]]
  | c :: rest =>
    if c = ',' then [] :: splitCommas rest
    else match splitCommas rest with
      | [] => [[c]]
      | part :: parts => (c :: part) :: parts

/-- The operands written after a mnemonic. -/
def operandTexts (cs : List Char) : List (List Char) :=
  if trimSpaces cs = [] then [] else (splitCommas cs).map trimSpaces

/-- The command that a text encodes; an operand word that the command does not read is encoded as 0 (R66). None where the assembler
rejects the text. DESIGN CHOICE: a text with another number of operands than its command reads (R65) is rejected, whether one is
left out (`BOUNDED.XS`) or one is written that is not read (`DRAW.SM 5`); R68 gives no rule for it (assumption log, entry 16). -/
def assemble (cs : List Char) : Option Command :=
  let line := trimSpaces cs
  match mnemonicTable.find? fun row => row.1.toList == line.takeWhile (· != ' ') with
  | none => none
  | some (_, c, form) =>
    match form, operandTexts (line.dropWhile (· != ' ')) with
    | .noOperand, [] => some ⟨c, 0, 0⟩
    | .integer, [a] => (integerOperand a).map fun w => ⟨c, w, 0⟩
    | .floats, [lo, hi] => (floatOperand lo).bind fun x => (floatOperand hi).map fun y => ⟨c, x, y⟩
    | _, _ => none

/-- A word as `0x` and sixteen hexadecimal digits. -/
def hexText (w : Word) : List Char :=
  '0' :: 'x' :: (List.range 16).map fun i => (w.toNat / 16 ^ (15 - i) % 16).digitChar

/-- A textual form of each command: its mnemonic and its operands in hexadecimal. DESIGN CHOICE: sixteen digits each, in lower case
(assumption log, entry 16). -/
def textOf : Instr → List Char
  | .seedSm w => "SEED.SM ".toList ++ hexText w
  | .seedXs w => "SEED.XS ".toList ++ hexText w
  | .seedEntSm => "SEED_ENT.SM".toList
  | .seedEntXs => "SEED_ENT.XS".toList
  | .drawSm => "DRAW.SM".toList
  | .drawXs => "DRAW.XS".toList
  | .boundedSm n => "BOUNDED.SM ".toList ++ hexText n
  | .boundedXs n => "BOUNDED.XS ".toList ++ hexText n
  | .boundedRejSm n => "BOUNDED_REJ.SM ".toList ++ hexText n
  | .boundedRejXs n => "BOUNDED_REJ.XS ".toList ++ hexText n
  | .real01Sm => "REAL01.SM".toList
  | .real01Xs => "REAL01.XS".toList
  | .realBetweenSm lo hi => "REAL_BETWEEN.SM f64:".toList ++ hexText lo ++ ", f64:".toList ++ hexText hi
  | .realBetweenXs lo hi => "REAL_BETWEEN.XS f64:".toList ++ hexText lo ++ ", f64:".toList ++ hexText hi
  | .minSm => "MIN.SM".toList
  | .minXs => "MIN.XS".toList
  | .maxSm => "MAX.SM".toList
  | .maxXs => "MAX.XS".toList
  | .stateRdSm index => "STATE_RD.SM ".toList ++ hexText index
  | .stateRdXs index => "STATE_RD.XS ".toList ++ hexText index
  | .status => "STATUS".toList

end Sys2Proof.Machine
end

