-- ==== Sys2Proof/Safety.lean ====
section
/-!
DEFINITION. What counts as a safe state and the terms the statements use: the invariant of the block (10_state.md R25;
41_xoshiro256ss.md R107; 30_encoding.md R62; 70_reset_and_hazards.md R203), iterated draws, and commands performed one after the
other (20_memory.md R44).
-/

namespace Sys2Proof.Machine

/-- `ERR[0]` and `ERR[7]` are 0 (R25). -/
def errReservedClear (s : State) : Bool := s.err &&& 0x81#8 == 0

/-- A seeded XS engine is not in the all-zero state (R22, R107). -/
def xsNonzeroWhenSeeded (s : State) : Bool := !seededBit .xs s || s.xs != ⟨0, 0, 0, 0⟩

/-- A response the block may give: a status of 0 to 6, and data 0 with every error (R62). -/
def responseLegal (r : Response) : Bool := r.status ≤ 6#4 && (r.status == 0 || r.data == 0)

/-- Every response on RSP or taken from it is one the block may give. -/
def responsesLegal (s : State) : Bool := s.rsp.toList.all responseLegal && s.taken.all responseLegal

/-- At most one command is outstanding: while a response waits on RSP no command is on CMD (R203). -/
def oneOutstanding (s : State) : Bool := s.cmd.isNone || s.rsp.isNone

/-- An error response waiting on RSP has its `ERR` bit set (R25, R184). -/
def errorRecorded (s : State) : Bool :=
  match s.rsp with
  | none => true
  | some r => r.status == 0 || s.err.getLsbD r.status.toNat

/-- The invariant of the machine. -/
abbrev State.Inv (s : State) : Prop :=
  errReservedClear s = true ∧ xsNonzeroWhenSeeded s = true ∧ responsesLegal s = true ∧ oneOutstanding s = true ∧
    errorRecorded s = true

/-- The state after `k` draws of engine `e`. -/
def afterDraws (e : Engine) : Nat → State → State
  | 0, s => s
  | k + 1, s => afterDraws e k (draw e s).2

/-- The output of the draw that engine `e` makes after `k` earlier ones. -/
def drawnWord (e : Engine) (k : Nat) (s : State) : Word := (draw e (afterDraws e k s)).1

/-- The command seeds engine SM or draws from it. -/
def usesSm : Instr → Bool
  | .seedSm _ | .seedEntSm | .drawSm | .boundedSm _ | .boundedRejSm _ | .real01Sm | .realBetweenSm _ _ => true
  | .seedXs _ | .seedEntXs | .drawXs | .boundedXs _ | .boundedRejXs _ | .real01Xs | .realBetweenXs _ _ => false
  | .minSm | .minXs | .maxSm | .maxXs | .stateRdSm _ | .stateRdXs _ | .status => false

/-- The command seeds engine XS or draws from it. -/
def usesXs : Instr → Bool
  | .seedXs _ | .seedEntXs | .drawXs | .boundedXs _ | .boundedRejXs _ | .real01Xs | .realBetweenXs _ _ => true
  | .seedSm _ | .seedEntSm | .drawSm | .boundedSm _ | .boundedRejSm _ | .real01Sm | .realBetweenSm _ _ => false
  | .minSm | .minXs | .maxSm | .maxXs | .stateRdSm _ | .stateRdXs _ | .status => false

/-- An outcome with its next state mapped. -/
def mapNext (f : State → State) : Result → Result
  | .next t => .next (f t)
  | .fault r => .fault r
  | .refused r => .refused r

/-- One command performed to its response; none where it holds or the machine stops. -/
def perform (i : Instr) (s : State) : Option (Response × State) :=
  if holds i s then none
  else match exec i s with
    | .next t => t.rsp.map fun r => (r, t)
    | .fault _ => none
    | .refused _ => none

/-- Commands performed in order, each after the response to the one before it (R44), with their responses. -/
def performAll : List Instr → State → Option (List (Instr × Response) × State)
  | [], s => some ([], s)
  | i :: rest, s =>
    match perform i s with
    | none => none
    | some (r, t) =>
      match performAll rest t with
      | none => none
      | some (rs, u) => some ((i, r) :: rs, u)

/-- The responses to the commands equal to `i`, in order. -/
def responsesTo (i : Instr) (rs : List (Instr × Response)) : List Response :=
  (rs.filter fun p => p.1 = i).map fun p => p.2

end Sys2Proof.Machine
end

