-- ==== Sys2Proof/Certificates/Slice0/Obligations.lean ====
section
/-!
DEFINITION. The statements for the provers. Where a rule adds or multiplies by a large constant, the constant stands first
(`0x9E3779B97F4A7C15#64 + s.sm` for `SM + 0x9E3779B97F4A7C15`), as in the model. Error outcomes are written out as R184 gives them:
the response `(S, 0)`, bit `S` of `ERR` set, CMD free again, and nothing else changed.
-/

open Sys2Proof Sys2Proof.Machine

/-! ## The step, the encoding and the channels -/

/-- 60_exceptions.md section 1: a legal command is performed by one step, which is `exec` of the decoded instruction; an illegal
byte is answered by ILLEGAL_CMD; and where the block has no command to perform, or its command waits for the entropy source, or
its response is not yet taken, the step is the host's action (model's choice of who moves: log entry 3). -/
def Obligations.StepPerformsDecodedCommand : Prop :=
  (∀ s k i, s.cmd = some k → s.rsp = none → decode k = .ok i → holds i s = false → step s = exec i s) ∧
  (∀ s k r, s.cmd = some k → s.rsp = none → decode k = .error r →
    step s = .next { s with cmd := none, rsp := some ⟨1#4, 0⟩, err := s.err ||| 0x02#8 }) ∧
  (∀ s k i, s.cmd = some k → s.rsp = none → decode k = .ok i → holds i s = true → step s = .next (hostStep s)) ∧
  (∀ s, (s.cmd = none ∨ s.rsp ≠ none) → step s = .next (hostStep s)) ∧
  (∀ i s, holds i s = true ↔
    (i = .seedEntSm ∨ i = .seedEntXs) ∧ (s.ent = [] ∨ ∃ rest, s.ent = .silent :: rest))

/-- 30_encoding.md sections 1, 2 and 4: decoding an encoded instruction gives it back with every operand, and every legal command
is the encoding of its instruction but for operand words it does not read. -/
def Obligations.DecodeAndEncodeAgree : Prop :=
  (∀ i, decode (encode i) = .ok i) ∧
  (∀ k i, decode k = .ok i →
    encode i = ⟨k.byte, if k.readsA then k.a else 0, if k.readsB then k.b else 0⟩)

/-- R64: exactly the listed cases are illegal, exactly 21 bytes are legal and 235 are not, and an illegal byte ends with
ILLEGAL_CMD. -/
def Obligations.IllegalBytesAreExactlyThree : Prop :=
  (∀ k, (∃ r, decode k = .error r) ↔
    (k.byte.toNat / 32 ≠ 0 ∨ 0xB ≤ k.byte.toNat % 16 ∨ (k.byte.toNat % 16 = 0xA ∧ k.byte.toNat / 16 % 2 = 1))) ∧
  (∀ k, (∃ i, decode k = .ok i) ↔ k.byte ∈ legalBytes) ∧
  legalBytes.Nodup ∧ legalBytes.length = 21 ∧
  ((List.range 256).filter fun n => BitVec.ofNat 8 n ∉ legalBytes).length = 235 ∧
  (∀ s k r, s.cmd = some k → s.rsp = none → decode k = .error r →
    step s = .next { s with cmd := none, rsp := some ⟨1#4, 0⟩, err := s.err ||| 0x02#8 })

/-- 30_encoding.md section 2: a few command words written out from the opcode map, and one word of each kind that is refused. -/
def Obligations.OpcodeMapWords : Prop :=
  decode ⟨0x10#8, 0x7B#64, 0#64⟩ = .ok (.seedXs 0x7B#64) ∧
  decode ⟨0x03#8, 0x20#64, 0#64⟩ = .ok (.boundedSm 0x20#64) ∧
  decode ⟨0x16#8, 0x4000000000000000#64, 0x4014000000000000#64⟩ =
    .ok (.realBetweenXs 0x4000000000000000#64 0x4014000000000000#64) ∧
  decode ⟨0x18#8, 5#64, 7#64⟩ = .ok .maxXs ∧
  decode ⟨0x0A#8, 0#64, 0#64⟩ = .ok .status ∧
  decode ⟨0x1A#8, 0#64, 0#64⟩ = .error .statusOnXs ∧
  decode ⟨0x0B#8, 0#64, 0#64⟩ = .error .reservedOp ∧
  decode ⟨0x20#8, 0#64, 0#64⟩ = .error .reservedBits

/-- 30_encoding.md section 6: the examples of textual forms, and a text of each kind that the assembler rejects. That
a missing operand (`BOUNDED.XS`) is rejected is the model's choice (log entry 16). -/
def Obligations.AssemblerExamples : Prop :=
  assemble "SEED.XS 123".toList = some ⟨0x10#8, 0x7B#64, 0⟩ ∧
  assemble "BOUNDED.SM 32".toList = some ⟨0x03#8, 0x20#64, 0⟩ ∧
  assemble "REAL_BETWEEN.XS 2.0, 5.0".toList = some ⟨0x16#8, 0x4000000000000000#64, 0x4014000000000000#64⟩ ∧
  assemble "STATUS".toList = some ⟨0x0A#8, 0, 0⟩ ∧
  assemble "REAL_BETWEEN.SM f64:0x3FF0000000000000, f64:0x7FF0000000000000".toList =
    some ⟨0x06#8, 0x3FF0000000000000#64, 0x7FF0000000000000#64⟩ ∧
  assemble "SEED.SM 18446744073709551615".toList = some ⟨0x00#8, 0xFFFFFFFFFFFFFFFF#64, 0⟩ ∧
  assemble "SEED.SM 18446744073709551616".toList = none ∧ assemble "SEED 5".toList = none ∧
  assemble "STATUS.SM".toList = none ∧ assemble "BOUNDED.XS".toList = none ∧ assemble "MOVE.XS 1".toList = none

/-- 30_encoding.md section 6: the text of every instruction, with every operand at every value, assembles to its encoding. The
texts are the model's choice where the spec leaves them open (lower-case hexadecimal digits, sixteen of them: log entry 16). -/
def Obligations.TextOfEveryInstructionAssembles : Prop :=
  ∀ i, assemble (textOf i) = some (encode i)

/-- 30_encoding.md section 6, a decimal literal of either sign (general knowledge, 93_implementation_defined.md G2; that a minus
sign may stand before it is the model's choice, log entry 16): it becomes a finite binary64 nearest to its value, the even one on a
tie, or the infinity exactly where its value is at least half a spacing beyond the largest finite one, with the literal's sign. -/
def Obligations.DecimalLiteralIsNearest : Prop :=
  (∀ neg whole frac n, (∀ c ∈ whole, c ≠ '.') → readNumber 10 (whole ++ frac) = some n →
    decimalOperand neg (whole ++ '.' :: frac) = some (f64OfRatio neg n (10 ^ frac.length))) ∧
  (∀ cs, floatOperand ('-' :: cs) = decimalOperand true cs) ∧
  (∀ cs, cs.head? ≠ some '-' → cs.head? ≠ some 'f' → floatOperand cs = decimalOperand false cs) ∧
  (∀ neg num den, 0 < den →
    f64Sign (f64OfRatio neg num den) = neg ∧ isNaN (f64OfRatio neg num den) = false ∧
    (isInf (f64OfRatio neg num den) = true ↔ (2 ^ 54 - 1) * 2 ^ 2044 * den ≤ num * 2 ^ 1074) ∧
    ∀ g r : Word, r = f64OfRatio neg num den → f64Finite r = true → f64Finite g = true →
      let exact : Int := if neg then -(num * 2 ^ 1074) else num * 2 ^ 1074
      (f64Value r * den - exact).natAbs ≤ (f64Value g * den - exact).natAbs ∧
      ((f64Value r * den - exact).natAbs = (f64Value g * den - exact).natAbs → f64Value g ≠ f64Value r →
        r.getLsbD 0 = false))

/-- R66: an operand word that a command does not read decides neither which instruction is performed nor anything the step does,
and it is encoded as 0. -/
def Obligations.IgnoredOperandsHaveNoEffect : Prop :=
  (∀ k k' : Command, k.byte = k'.byte → (k.readsA = true → k.a = k'.a) → (k.readsB = true → k.b = k'.b) →
    decode k = decode k' ∧
    ∀ s : State, s.rsp = none → blockHolds { s with cmd := some k } = false →
      step { s with cmd := some k } = step { s with cmd := some k' }) ∧
  (∀ i, ((encode i).readsA = false → (encode i).a = 0) ∧ ((encode i).readsB = false → (encode i).b = 0))

/-- R203: CMD accepts no new command while one is outstanding or its response is not taken; a host that does not take it is stuck;
the accepted command is the one the host sends next; taking a response frees RSP and delivers it. -/
def Obligations.OneCommandOutstanding : Prop :=
  (∀ s k rest, s.host = .send k :: rest → s.cmd = none → s.rsp = none →
    step s = .next { s with cmd := some k, host := rest }) ∧
  (∀ s k rest r, s.host = .send k :: rest → s.rsp = some r → step s = .next s) ∧
  (∀ s r, s.host = [] → s.rsp = some r → step s = .next s) ∧
  (∀ s k rest, s.host = .send k :: rest → s.rsp = none → blockHolds s = true → step s = .next s) ∧
  (∀ s r rest, s.host = .take :: rest → s.rsp = some r →
    step s = .next { s with rsp := none, taken := s.taken ++ [r], host := rest })

/-- 30_encoding.md section 1: a performed command leaves exactly one response, with a status of 0 to 6; the data is 0 with every
error, and 0 for SEED and SEED_ENT. -/
def Obligations.EveryCommandAnswersOnce : Prop :=
  ∀ s k t, s.cmd = some k → s.rsp = none → blockHolds s = false → step s = .next t →
    t.cmd = none ∧ t.taken = s.taken ∧ t.host = s.host ∧
    ∃ r, t.rsp = some r ∧ r.status.toNat ≤ 6 ∧ (r.status ≠ 0 → r.data = 0) ∧
      (k.byte ∈ [0x00#8, 0x10#8, 0x01#8, 0x11#8] → r.data = 0)

/-- 42_bounded.md section 2 and log entry 8 (the model's choice of REJ_FUEL): the machine never refuses, and it faults only in a
BOUNDED_REJ whose every draw, without end, is below the threshold, where the hardware's loop never ends. -/
def Obligations.FaultsExactlyInEndlessLoops : Prop :=
  (∀ s r, step s ≠ .refused r) ∧
  (∀ s n, s.seeded.getLsbD 0 = true → n ≠ 0 →
    (exec (.boundedRejSm n) s = .fault .rejFuelExhausted ↔
      ∀ j, mix64 (0x9E3779B97F4A7C15#64 * BitVec.ofNat 64 (j + 1) + s.sm) < (0 - n) % n)) ∧
  (∀ s n, s.seeded.getLsbD 1 = true → n ≠ 0 →
    (exec (.boundedRejXs n) s = .fault .rejFuelExhausted ↔ ∀ j, xsOut (xsNext^[j] s.xs).s1 < (0 - n) % n)) ∧
  (∀ i s f, exec i s = .fault f → (∃ n, i = .boundedRejSm n) ∨ ∃ n, i = .boundedRejXs n)

/-! ## Reset -/

/-- 10_state.md section 6: `SEEDED = 00`, `ERR = 0x00`, the hardwired constants, and both channels empty (the other fields at reset
are the model's choice, log entries 4, 5 and 15, and nothing is said of them). -/
def Obligations.ResetLeavesUnseeded : Prop :=
  State.reset.seeded = 0 ∧ State.reset.err = 0 ∧ State.reset.cmd = none ∧ State.reset.rsp = none ∧
  minv = 0 ∧ maxv = 0xFFFFFFFFFFFFFFFF#64

/-- 70_reset_and_hazards.md section 1 and 93_implementation_defined.md U10: reset asserted by the host, between commands or while
one is outstanding, leaves `SEEDED = 00`, `ERR = 0x00`, no response and no command; between commands it sends no ENT request; and
the block then accepts a command. What it leaves in `SM` and `XS` is free, and nothing is said of it. Two clauses are the model's
choice: that the responses taken before the reset stay in `taken` (log entry 17), and that the command still outstanding, or the
response not yet taken, is lost, so that no response is there and `taken` has not grown (log entry 7). -/
def Obligations.HostResetClearsStatus : Prop :=
  ∀ s rest, s.host = .reset :: rest → (s.cmd = none ∨ s.rsp ≠ none ∨ blockHolds s = true) →
    ∃ t, step s = .next t ∧ t.seeded = 0 ∧ t.err = 0 ∧ t.cmd = none ∧ t.rsp = none ∧ t.taken = s.taken ∧ t.host = rest ∧
      (s.cmd = none → t.ent = s.ent) ∧
      (∀ k later, rest = .send k :: later → step t = .next { t with cmd := some k, host := later })

/-! ## The SplitMix64 engine -/

/-- R81: the output transform, line by line. -/
def Obligations.Mix64Transform : Prop :=
  ∀ z z1 z2 : Word,
    z1 = 0xBF58476D1CE4E5B9#64 * (z ^^^ (z >>> 30)) → z2 = 0x94D049BB133111EB#64 * (z1 ^^^ (z1 >>> 27)) →
    mix64 z = z2 ^^^ (z2 >>> 31)

/-- R83: DRAW.SM, with its encoding, its error and its corner cases. -/
def Obligations.DrawSmAdvancesThenAnswers : Prop :=
  (∀ a b, decode ⟨0x02#8, a, b⟩ = .ok .drawSm) ∧
  (∀ s, s.seeded.getLsbD 0 = false →
    exec .drawSm s = .next { s with cmd := none, rsp := some ⟨2#4, 0⟩, err := s.err ||| 0x04#8 }) ∧
  (∀ s, s.seeded.getLsbD 0 = true →
    exec .drawSm s = .next { s with
      sm := 0x9E3779B97F4A7C15#64 + s.sm, cmd := none,
      rsp := some ⟨0#4, mix64 (0x9E3779B97F4A7C15#64 + s.sm)⟩ }) ∧
  (∀ m : Word, mix64 (0x9E3779B97F4A7C15#64 + m) = 0 ↔ m = 0x61C8864680B583EB#64) ∧
  mix64 (0x9E3779B97F4A7C15#64 + 0x31628AF67B2131AB#64) = 0xFFFFFFFFFFFFFFFF#64 ∧
  mix64 (0x9E3779B97F4A7C15#64 + 0#64) = 0xE220A8397B1DCDAF#64

/-- R84: SEED.SM, legal in every state, with the first draw after it and Scenario A. -/
def Obligations.SeedSmWritesCounter : Prop :=
  (∀ a b, decode ⟨0x00#8, a, b⟩ = .ok (.seedSm a)) ∧
  (∀ s w, exec (.seedSm w) s = .next { s with
    sm := w, seeded := s.seeded ||| 0b01#2, cmd := none, rsp := some ⟨0#4, 0⟩ }) ∧
  (∀ s w t, exec (.seedSm w) s = .next t →
    ∃ u, exec .drawSm t = .next u ∧ u.rsp = some ⟨0#4, mix64 (0x9E3779B97F4A7C15#64 + w)⟩) ∧
  (∀ s t, exec (.seedSm 0) s = .next t →
    ∃ rs u, performAll [.drawSm, .drawSm, .drawSm, .drawSm] t = some (rs, u) ∧
      rs.map (fun p => p.2.data) =
        [0xE220A8397B1DCDAF#64, 0x6E789E6AA1B965F4#64, 0x06C45D188009454F#64, 0xF88BB8A8724C81EC#64])

/-- R85: SEED_ENT.SM on a word, on `Fail`, and while the entropy source has not answered. -/
def Obligations.SeedEntSmTakesOneWord : Prop :=
  (∀ a b, decode ⟨0x01#8, a, b⟩ = .ok .seedEntSm) ∧
  (∀ s w rest, s.ent = .word w :: rest → exec .seedEntSm s = .next { s with
    sm := w, seeded := s.seeded ||| 0b01#2, ent := rest, cmd := none, rsp := some ⟨0#4, 0⟩ }) ∧
  (∀ s rest, s.ent = .fail :: rest → exec .seedEntSm s = .next { s with
    ent := rest, cmd := none, rsp := some ⟨5#4, 0⟩, err := s.err ||| 0x20#8 }) ∧
  (∀ s, (s.ent = [] ∨ ∃ rest, s.ent = .silent :: rest) → exec .seedEntSm s = .next s) ∧
  (∀ s rest t, s.ent = .word 0x61C8864680B583EB#64 :: rest → exec .seedEntSm s = .next t →
    ∃ u, exec .drawSm t = .next u ∧ u.rsp = some ⟨0#4, 0⟩)

/-- R86: STATE_RD.SM, with the order of its errors, what it reads after seeding and drawing, and that it does not advance. -/
def Obligations.StateRdSmReadsCounter : Prop :=
  (∀ a b, decode ⟨0x09#8, a, b⟩ = .ok (.stateRdSm a)) ∧
  (∀ s a, s.seeded.getLsbD 0 = false →
    exec (.stateRdSm a) s = .next { s with cmd := none, rsp := some ⟨2#4, 0⟩, err := s.err ||| 0x04#8 }) ∧
  (∀ s a, s.seeded.getLsbD 0 = true → a ≠ 0 →
    exec (.stateRdSm a) s = .next { s with cmd := none, rsp := some ⟨6#4, 0⟩, err := s.err ||| 0x40#8 }) ∧
  (∀ s, s.seeded.getLsbD 0 = true →
    exec (.stateRdSm 0) s = .next { s with cmd := none, rsp := some ⟨0#4, s.sm⟩ }) ∧
  (∀ s w t, exec (.seedSm w) s = .next t → ∃ u, exec (.stateRdSm 0) t = .next u ∧ u.rsp = some ⟨0#4, w⟩) ∧
  (∀ s t, s.seeded.getLsbD 0 = true → exec .drawSm s = .next t →
    ∃ u, exec (.stateRdSm 0) t = .next u ∧ u.rsp = some ⟨0#4, 0x9E3779B97F4A7C15#64 + s.sm⟩)

/-- 40_splitmix64.md section 3, first property (marked as derived there): `Mix64` is a bijection that fixes 0 alone, and from any
counter each output comes exactly once in 2^64 draws. -/
def Obligations.Mix64IsABijection : Prop :=
  Function.Bijective mix64 ∧ (∀ z, mix64 z = 0 ↔ z = 0) ∧
  (∀ s w, ∃! k, k < 2 ^ 64 ∧ drawnWord .sm k s = w)

/-- 40_splitmix64.md section 3, second property (marked as derived there): after SEED.SM `w` the k-th draw answers
`Mix64(w + k * GAMMA)`, whatever commands that neither draw from nor seed SM run in between. -/
def Obligations.SmDrawsDependOnSeedAlone : Prop :=
  ∀ s w t is rs u, exec (.seedSm w) s = .next t → (∀ i ∈ is, i = .drawSm ∨ usesSm i = false) →
    performAll is t = some (rs, u) →
    responsesTo .drawSm rs =
      (List.range (is.count .drawSm)).map fun j =>
        ⟨0#4, mix64 (0x9E3779B97F4A7C15#64 * BitVec.ofNat 64 (j + 1) + w)⟩

/-! ## The xoshiro256** engine -/

/-- R100: the output scrambler is multiply, rotate, multiply, and the draw applies it to `XS[1]` as it stands before the update. -/
def Obligations.XsOutScrambler : Prop :=
  (∀ x : Word, xsOut x = (x * 5).rotateLeft 7 * 9) ∧
  (∀ s : State, s.seeded.getLsbD 1 = true →
    ∃ t, exec .drawXs s = .next t ∧ t.rsp = some ⟨0#4, (s.xs.s1 * 5).rotateLeft 7 * 9⟩)

/-- 41_xoshiro256ss.md section 1: the update in its closed form on the old words (marked as derived there). -/
def Obligations.XsNextClosedForm : Prop :=
  ∀ x : XsWords,
    (xsNext x).s0 = x.s0 ^^^ x.s3 ^^^ x.s1 ∧
    (xsNext x).s1 = x.s1 ^^^ x.s2 ^^^ x.s0 ∧
    (xsNext x).s2 = x.s2 ^^^ x.s0 ^^^ (x.s1 <<< 17) ∧
    (xsNext x).s3 = (x.s3 ^^^ x.s1).rotateLeft 45

/-- R103: DRAW.XS answers from the old state and then advances it, with its error and corner cases. -/
def Obligations.DrawXsAnswersThenAdvances : Prop :=
  (∀ a b, decode ⟨0x12#8, a, b⟩ = .ok .drawXs) ∧
  (∀ s, s.seeded.getLsbD 1 = false →
    exec .drawXs s = .next { s with cmd := none, rsp := some ⟨2#4, 0⟩, err := s.err ||| 0x04#8 }) ∧
  (∀ s, s.seeded.getLsbD 1 = true →
    exec .drawXs s = .next { s with xs := xsNext s.xs, cmd := none, rsp := some ⟨0#4, xsOut s.xs.s1⟩ }) ∧
  (∀ x : Word, xsOut x = 0 ↔ x = 0) ∧
  (∀ x : XsWords, x ≠ ⟨0, 0, 0, 0⟩ → xsNext x ≠ ⟨0, 0, 0, 0⟩) ∧ (∀ w, xsOfSeed w ≠ ⟨0, 0, 0, 0⟩) ∧
  (∀ s t, exec (.seedXs 123) s = .next t →
    ∃ u, exec .drawXs t = .next u ∧ u.rsp = some ⟨0#4, 0x325A8FA1D1A069F9#64⟩ ∧
      u.xs = ⟨0xE10CA331022977A8#64, 0x92CC742C41C03DBF#64, 0x111DA81ADF578AC3#64, 0xE6D06ABA071CAC1E#64⟩)

/-- R104: SEED.XS writes four successive SplitMix64 outputs of a counter that starts at the seed; SM is neither read nor written. -/
def Obligations.SeedXsFillsFourWords : Prop :=
  (∀ a b, decode ⟨0x10#8, a, b⟩ = .ok (.seedXs a)) ∧
  (∀ s w t1 t2 t3 t4, t1 = 0x9E3779B97F4A7C15#64 + w → t2 = 0x9E3779B97F4A7C15#64 + t1 →
    t3 = 0x9E3779B97F4A7C15#64 + t2 → t4 = 0x9E3779B97F4A7C15#64 + t3 →
    exec (.seedXs w) s = .next { s with
      xs := ⟨mix64 t1, mix64 t2, mix64 t3, mix64 t4⟩, seeded := s.seeded ||| 0b10#2, cmd := none,
      rsp := some ⟨0#4, 0⟩ }) ∧
  (∀ s w t, exec (.seedXs w) s = .next t → t.xs ≠ ⟨0, 0, 0, 0⟩) ∧
  (∀ s t, exec (.seedXs 0) s = .next t →
    t.xs = ⟨0xE220A8397B1DCDAF#64, 0x6E789E6AA1B965F4#64, 0x06C45D188009454F#64, 0xF88BB8A8724C81EC#64⟩)

/-- R105: SEED_ENT.XS reads exactly one word and seeds as SEED.XS with it; on `Fail` the engine is as it was; without an answer
it waits. -/
def Obligations.SeedEntXsTakesOneWord : Prop :=
  (∀ a b, decode ⟨0x11#8, a, b⟩ = .ok .seedEntXs) ∧
  (∀ s w rest, s.ent = .word w :: rest → exec .seedEntXs s = exec (.seedXs w) { s with ent := rest } ∧
    ∃ t, exec .seedEntXs s = .next t ∧ t.ent = rest ∧ t.seeded = s.seeded ||| 0b10#2 ∧ t.xs ≠ ⟨0, 0, 0, 0⟩) ∧
  (∀ s rest, s.ent = .fail :: rest → exec .seedEntXs s = .next { s with
    ent := rest, cmd := none, rsp := some ⟨5#4, 0⟩, err := s.err ||| 0x20#8 }) ∧
  (∀ s, (s.ent = [] ∨ ∃ rest, s.ent = .silent :: rest) → exec .seedEntXs s = .next s) ∧
  (∀ s s' rest t t', s.ent = .word 0 :: rest → exec .seedEntXs s = .next t → exec (.seedXs 0) s' = .next t' →
    t.xs = t'.xs)

/-- R106: STATE_RD.XS reads one word at index 0 to 3, an index compared on all 64 bits, and does not advance. -/
def Obligations.StateRdXsReadsOneWord : Prop :=
  (∀ a b, decode ⟨0x19#8, a, b⟩ = .ok (.stateRdXs a)) ∧
  (∀ s a, s.seeded.getLsbD 1 = false →
    exec (.stateRdXs a) s = .next { s with cmd := none, rsp := some ⟨2#4, 0⟩, err := s.err ||| 0x04#8 }) ∧
  (∀ s a, s.seeded.getLsbD 1 = true → 3 < a.toNat →
    exec (.stateRdXs a) s = .next { s with cmd := none, rsp := some ⟨6#4, 0⟩, err := s.err ||| 0x40#8 }) ∧
  (∀ s, s.seeded.getLsbD 1 = true →
    exec (.stateRdXs 0) s = .next { s with cmd := none, rsp := some ⟨0#4, s.xs.s0⟩ } ∧
    exec (.stateRdXs 1) s = .next { s with cmd := none, rsp := some ⟨0#4, s.xs.s1⟩ } ∧
    exec (.stateRdXs 2) s = .next { s with cmd := none, rsp := some ⟨0#4, s.xs.s2⟩ } ∧
    exec (.stateRdXs 3) s = .next { s with cmd := none, rsp := some ⟨0#4, s.xs.s3⟩ } ∧
    exec (.stateRdXs 0x0000000100000000#64) s =
      .next { s with cmd := none, rsp := some ⟨6#4, 0⟩, err := s.err ||| 0x40#8 }) ∧
  (∀ s t, exec (.seedXs 0) s = .next t →
    ∃ u, exec (.stateRdXs 2) t = .next u ∧ u.rsp = some ⟨0#4, 0x06C45D188009454F#64⟩)

/-- 41_xoshiro256ss.md section 3, first property (marked as derived there): the update is a bijection that fixes the all-zero
state, and at most one of the four seeded words is 0. -/
def Obligations.XsStateNeverAllZero : Prop :=
  Function.Bijective xsNext ∧ xsNext ⟨0, 0, 0, 0⟩ = ⟨0, 0, 0, 0⟩ ∧
  (∀ w, let x := xsOfSeed w
    (x.s0 = 0 → x.s1 ≠ 0 ∧ x.s2 ≠ 0 ∧ x.s3 ≠ 0) ∧ (x.s1 = 0 → x.s2 ≠ 0 ∧ x.s3 ≠ 0) ∧ (x.s2 = 0 → x.s3 ≠ 0)) ∧
  (∀ w k, xsNext^[k] (xsOfSeed w) ≠ ⟨0, 0, 0, 0⟩)

/-- 41_xoshiro256ss.md section 3, second property (marked as derived there): the scrambler is a bijection. -/
def Obligations.XsOutIsABijection : Prop :=
  Function.Bijective xsOut ∧ ∀ s : State, (draw .xs s).1 = 0 ↔ s.xs.s1 = 0

/-- 41_xoshiro256ss.md section 3, third property (marked as derived there): after SEED.XS `w` the draws from XS depend on `w`
alone, whatever commands that neither draw from nor seed XS run in between. -/
def Obligations.XsDrawsDependOnSeedAlone : Prop :=
  ∀ s w t is rs u, exec (.seedXs w) s = .next t → (∀ i ∈ is, i = .drawXs ∨ usesXs i = false) →
    performAll is t = some (rs, u) →
    responsesTo .drawXs rs =
      (List.range (is.count .drawXs)).map fun j => ⟨0#4, xsOut (xsNext^[j] (xsOfSeed w)).s1⟩

/-! ## Bounded integers and advertised bounds -/

/-- R120: BOUNDED on either engine: one draw and the high word of the product, with its errors and corner cases. -/
def Obligations.BoundedIsWideMultiply : Prop :=
  (∀ n b, decode ⟨0x03#8, n, b⟩ = .ok (.boundedSm n) ∧ decode ⟨0x13#8, n, b⟩ = .ok (.boundedXs n)) ∧
  (∀ s n, s.seeded.getLsbD 0 = false →
    exec (.boundedSm n) s = .next { s with cmd := none, rsp := some ⟨2#4, 0⟩, err := s.err ||| 0x04#8 }) ∧
  (∀ s n, s.seeded.getLsbD 1 = false →
    exec (.boundedXs n) s = .next { s with cmd := none, rsp := some ⟨2#4, 0⟩, err := s.err ||| 0x04#8 }) ∧
  (∀ s, s.seeded.getLsbD 0 = true →
    exec (.boundedSm 0) s = .next { s with cmd := none, rsp := some ⟨3#4, 0⟩, err := s.err ||| 0x08#8 }) ∧
  (∀ s, s.seeded.getLsbD 1 = true →
    exec (.boundedXs 0) s = .next { s with cmd := none, rsp := some ⟨3#4, 0⟩, err := s.err ||| 0x08#8 }) ∧
  (∀ s n w, s.seeded.getLsbD 0 = true → n ≠ 0 → w = mix64 (0x9E3779B97F4A7C15#64 + s.sm) →
    exec (.boundedSm n) s = .next { s with
      sm := 0x9E3779B97F4A7C15#64 + s.sm, cmd := none,
      rsp := some ⟨0#4, BitVec.ofNat 64 (n.toNat * w.toNat / 2 ^ 64)⟩ }) ∧
  (∀ s n w, s.seeded.getLsbD 1 = true → n ≠ 0 → w = xsOut s.xs.s1 →
    exec (.boundedXs n) s = .next { s with
      xs := xsNext s.xs, cmd := none, rsp := some ⟨0#4, BitVec.ofNat 64 (n.toNat * w.toNat / 2 ^ 64)⟩ }) ∧
  (∀ w : Word, mulhi 1 w = 0 ∧ mulhi 0x8000000000000000#64 w = w >>> 1) ∧
  mulhi 0xFFFFFFFFFFFFFFFF#64 0xFFFFFFFFFFFFFFFF#64 = 0xFFFFFFFFFFFFFFFE#64 ∧
  (∀ n : Word, mulhi n 0 = 0) ∧ mulhi 10 0xE220A8397B1DCDAF#64 = 8

/-- 42_bounded.md section 1, the range clamp and the bias (marked as derived there): a result is below `n`, and each comes from
`ceil((r+1) 2^64 / n) - ceil(r 2^64 / n)` words, which is `floor(2^64 / n)` or one more. -/
def Obligations.BoundedRangeAndBias : Prop :=
  (∀ n w : Word, n ≠ 0 → (mulhi n w).toNat < n.toNat) ∧
  (∀ (n : Word) (r : Nat), r < n.toNat →
    let c := ((Finset.range (2 ^ 64)).filter fun v => (mulhi n (BitVec.ofNat 64 v)).toNat = r).card
    c = ((r + 1) * 2 ^ 64 + n.toNat - 1) / n.toNat - (r * 2 ^ 64 + n.toNat - 1) / n.toNat ∧
    (c = 2 ^ 64 / n.toNat ∨ c = 2 ^ 64 / n.toNat + 1))

/-- 42_bounded.md section 2: the threshold is `2^64 mod n` and below `n`, with the sample values. -/
def Obligations.ThresholdIsTwoTo64ModN : Prop :=
  (∀ n : Word, n ≠ 0 → (threshold n).toNat = (2 ^ 64 - n.toNat) % n.toNat ∧
    (threshold n).toNat = 2 ^ 64 % n.toNat ∧ (threshold n).toNat < n.toNat) ∧
  threshold 1 = 0 ∧ threshold 2 = 0 ∧ threshold 3 = 1 ∧ threshold 7 = 2 ∧ threshold 10 = 6 ∧ threshold 100 = 16 ∧
  threshold 0x100000000#64 = 0 ∧ threshold 0x8000000000000000#64 = 0 ∧
  threshold 0x8000000000000001#64 = 0x7FFFFFFFFFFFFFFF#64 ∧ threshold 0xFFFFFFFFFFFFFFFF#64 = 1

/-- 42_bounded.md section 2 (marked as derived there): every result of the rejection method comes from the same number of
accepted words, and more than half of all words are accepted. -/
def Obligations.RejectionIsUniform : Prop :=
  ∀ n : Word, n ≠ 0 →
    n.toNat ∣ 2 ^ 64 - (threshold n).toNat ∧ (threshold n).toNat < 2 ^ 63 ∧
    ∀ r < n.toNat,
      ((Finset.range (2 ^ 64)).filter fun v =>
        threshold n ≤ BitVec.ofNat 64 v ∧ (BitVec.ofNat 64 v % n).toNat = r).card =
        (2 ^ 64 - (threshold n).toNat) / n.toNat

/-- R125: BOUNDED_REJ on either engine: it draws until the first word at or above the threshold, however many that takes, and
answers it modulo `n`, with its errors and corner cases. -/
def Obligations.BoundedRejDrawsUntilAccepted : Prop :=
  (∀ n b, decode ⟨0x04#8, n, b⟩ = .ok (.boundedRejSm n) ∧ decode ⟨0x14#8, n, b⟩ = .ok (.boundedRejXs n)) ∧
  (∀ s n, s.seeded.getLsbD 0 = false →
    exec (.boundedRejSm n) s = .next { s with cmd := none, rsp := some ⟨2#4, 0⟩, err := s.err ||| 0x04#8 }) ∧
  (∀ s n, s.seeded.getLsbD 1 = false →
    exec (.boundedRejXs n) s = .next { s with cmd := none, rsp := some ⟨2#4, 0⟩, err := s.err ||| 0x04#8 }) ∧
  (∀ s, s.seeded.getLsbD 0 = true →
    exec (.boundedRejSm 0) s = .next { s with cmd := none, rsp := some ⟨3#4, 0⟩, err := s.err ||| 0x08#8 }) ∧
  (∀ s, s.seeded.getLsbD 1 = true →
    exec (.boundedRejXs 0) s = .next { s with cmd := none, rsp := some ⟨3#4, 0⟩, err := s.err ||| 0x08#8 }) ∧
  (∀ s n k w, s.seeded.getLsbD 0 = true → n ≠ 0 →
    (∀ j < k, mix64 (0x9E3779B97F4A7C15#64 * BitVec.ofNat 64 (j + 1) + s.sm) < (0 - n) % n) →
    w = mix64 (0x9E3779B97F4A7C15#64 * BitVec.ofNat 64 (k + 1) + s.sm) → (0 - n) % n ≤ w →
    exec (.boundedRejSm n) s = .next { s with
      sm := 0x9E3779B97F4A7C15#64 * BitVec.ofNat 64 (k + 1) + s.sm, cmd := none, rsp := some ⟨0#4, w % n⟩ }) ∧
  (∀ s n k w, s.seeded.getLsbD 1 = true → n ≠ 0 →
    (∀ j < k, xsOut (xsNext^[j] s.xs).s1 < (0 - n) % n) → w = xsOut (xsNext^[k] s.xs).s1 → (0 - n) % n ≤ w →
    exec (.boundedRejXs n) s = .next { s with
      xs := xsNext^[k + 1] s.xs, cmd := none, rsp := some ⟨0#4, w % n⟩ }) ∧
  (∀ i : Nat, i < 64 → (0#64 - 1#64 <<< i) % (1#64 <<< i) = 0#64) ∧ (∀ w : Word, (0 - 1) % 1 ≤ w ∧ w % 1 = 0) ∧
  (0#64 < (0 - 3) % 3) ∧
  (∀ w : Word, (0 - 0xFFFFFFFFFFFFFFFF#64) % 0xFFFFFFFFFFFFFFFF#64 ≤ w ↔ w ≠ 0) ∧
  0xFFFFFFFFFFFFFFFF#64 % 0xFFFFFFFFFFFFFFFF#64 = 0 ∧
  (∀ s : State, s.seeded.getLsbD 0 = true → s.sm = 0x61C8864680B583EB#64 →
    exec (.boundedRejSm 3) s = .next { s with
      sm := 0x9E3779B97F4A7C15#64, cmd := none, rsp := some ⟨0#4, 1⟩ })

/-- 42_bounded.md section 2 (marked as derived there), engine SM: from every seeded counter and every non-zero bound BOUNDED_REJ.SM
ends with a result below `n` within 2^64 draws. -/
def Obligations.BoundedRejSmTerminates : Prop :=
  ∀ s n, s.seeded.getLsbD 0 = true → n ≠ 0 →
    ∃ k w, k < 2 ^ 64 ∧ w < n ∧ exec (.boundedRejSm n) s = .next { s with
      sm := 0x9E3779B97F4A7C15#64 * BitVec.ofNat 64 (k + 1) + s.sm, cmd := none, rsp := some ⟨0#4, w⟩ }

/-- R126 and R127: MIN and MAX answer the hardwired bounds in every state, on either engine, and change nothing. -/
def Obligations.MinAndMaxAnswerBounds : Prop :=
  (∀ a b, decode ⟨0x07#8, a, b⟩ = .ok .minSm ∧ decode ⟨0x17#8, a, b⟩ = .ok .minXs ∧
    decode ⟨0x08#8, a, b⟩ = .ok .maxSm ∧ decode ⟨0x18#8, a, b⟩ = .ok .maxXs) ∧
  (∀ s, exec .minSm s = .next { s with cmd := none, rsp := some ⟨0#4, 0⟩ } ∧
    exec .minXs s = .next { s with cmd := none, rsp := some ⟨0#4, 0⟩ } ∧
    exec .maxSm s = .next { s with cmd := none, rsp := some ⟨0#4, 0xFFFFFFFFFFFFFFFF#64⟩ } ∧
    exec .maxXs s = .next { s with cmd := none, rsp := some ⟨0#4, 0xFFFFFFFFFFFFFFFF#64⟩ })

/-! ## Binary64 conversions -/

/-- R140: REAL01 on either engine: one draw, answered by its conversion, with its error and corner cases. -/
def Obligations.Real01AnswersConversion : Prop :=
  (∀ a b, decode ⟨0x05#8, a, b⟩ = .ok .real01Sm ∧ decode ⟨0x15#8, a, b⟩ = .ok .real01Xs) ∧
  (∀ s, s.seeded.getLsbD 0 = false →
    exec .real01Sm s = .next { s with cmd := none, rsp := some ⟨2#4, 0⟩, err := s.err ||| 0x04#8 }) ∧
  (∀ s, s.seeded.getLsbD 1 = false →
    exec .real01Xs s = .next { s with cmd := none, rsp := some ⟨2#4, 0⟩, err := s.err ||| 0x04#8 }) ∧
  (∀ s, s.seeded.getLsbD 0 = true →
    exec .real01Sm s = .next { s with
      sm := 0x9E3779B97F4A7C15#64 + s.sm, cmd := none,
      rsp := some ⟨0#4, real01Bits (mix64 (0x9E3779B97F4A7C15#64 + s.sm))⟩ }) ∧
  (∀ s, s.seeded.getLsbD 1 = true →
    exec .real01Xs s = .next { s with
      xs := xsNext s.xs, cmd := none, rsp := some ⟨0#4, real01Bits (xsOut s.xs.s1)⟩ }) ∧
  real01Bits 0 = 0 ∧ real01Bits 0xFFFFFFFFFFFFFFFF#64 = 0x3FEFFFFFFFFFFFFE#64 ∧ real01Bits 0xFFF#64 = 0 ∧
  real01Bits 0x8000000000000000#64 = 0x3FE0000000000000#64 ∧ real01Bits 0x1000#64 = 0x3CB0000000000000#64 ∧
  real01Bits 0xE220A8397B1DCDAF#64 = 0x3FEC4415072F63B8#64 ∧
  (∀ w, real01Bits w ≠ 0x3FEFFFFFFFFFFFFF#64 ∧ f64Units (real01Bits w) ≤ f64Units 0x3FEFFFFFFFFFFFFE#64) ∧
  (∀ w, real01Bits w ≠ 0 → f64Units 0x3CB0000000000000#64 ≤ f64Units (real01Bits w))

/-- 43_real.md section 1, the closed form (marked as derived there): with `m = w >> 12` the result is `+0.0` for `m = 0` and
otherwise sign 0, exponent `971 + p` and fraction `(m << (52 - p)) mod 2^52` for the highest set bit `p` of `m`; its value is
exactly `m / 2^52`. -/
def Obligations.Real01ClosedForm : Prop :=
  ∀ (w : Word) (m p : Nat), m = w.toNat / 2 ^ 12 → p = m.log2 →
    real01Bits w = (if m = 0 then 0#64 else BitVec.ofNat 64 ((971 + p) * 2 ^ 52 + m * 2 ^ (52 - p) % 2 ^ 52)) ∧
    f64Sign (real01Bits w) = false ∧ f64Finite (real01Bits w) = true ∧ f64Units (real01Bits w) * 2 ^ 52 = m * 2 ^ 1074

/-- R142: REAL_BETWEEN on either engine: one draw, the two rounded operations without adding `lo`, a NaN replaced, with its errors
and its example. -/
def Obligations.RealBetweenScalesOnly : Prop :=
  (∀ lo hi, decode ⟨0x06#8, lo, hi⟩ = .ok (.realBetweenSm lo hi) ∧
    decode ⟨0x16#8, lo, hi⟩ = .ok (.realBetweenXs lo hi)) ∧
  (∀ s lo hi, s.seeded.getLsbD 0 = false →
    exec (.realBetweenSm lo hi) s = .next { s with cmd := none, rsp := some ⟨2#4, 0⟩, err := s.err ||| 0x04#8 }) ∧
  (∀ s lo hi, s.seeded.getLsbD 1 = false →
    exec (.realBetweenXs lo hi) s = .next { s with cmd := none, rsp := some ⟨2#4, 0⟩, err := s.err ||| 0x04#8 }) ∧
  (∀ s lo hi, s.seeded.getLsbD 0 = true →
    lo.extractLsb' 52 11 = 0x7FF#11 ∨ hi.extractLsb' 52 11 = 0x7FF#11 →
    exec (.realBetweenSm lo hi) s = .next { s with cmd := none, rsp := some ⟨4#4, 0⟩, err := s.err ||| 0x10#8 }) ∧
  (∀ s lo hi, s.seeded.getLsbD 1 = true →
    lo.extractLsb' 52 11 = 0x7FF#11 ∨ hi.extractLsb' 52 11 = 0x7FF#11 →
    exec (.realBetweenXs lo hi) s = .next { s with cmd := none, rsp := some ⟨4#4, 0⟩, err := s.err ||| 0x10#8 }) ∧
  (∀ s lo hi x, s.seeded.getLsbD 0 = true →
    lo.extractLsb' 52 11 ≠ 0x7FF#11 → hi.extractLsb' 52 11 ≠ 0x7FF#11 →
    x = f64Mul (f64Sub hi lo) (real01Bits (mix64 (0x9E3779B97F4A7C15#64 + s.sm))) →
    exec (.realBetweenSm lo hi) s = .next { s with
      sm := 0x9E3779B97F4A7C15#64 + s.sm, cmd := none,
      rsp := some ⟨0#4, if isNaN x then 0x7FF8000000000000#64 else x⟩ }) ∧
  (∀ s lo hi x, s.seeded.getLsbD 1 = true →
    lo.extractLsb' 52 11 ≠ 0x7FF#11 → hi.extractLsb' 52 11 ≠ 0x7FF#11 →
    x = f64Mul (f64Sub hi lo) (real01Bits (xsOut s.xs.s1)) →
    exec (.realBetweenXs lo hi) s = .next { s with
      xs := xsNext s.xs, cmd := none, rsp := some ⟨0#4, if isNaN x then 0x7FF8000000000000#64 else x⟩ }) ∧
  (∀ s, s.seeded.getLsbD 0 = true → s.sm = 0 →
    ∃ t, exec (.realBetweenSm 0x4000000000000000#64 0x4014000000000000#64) s = .next t ∧
      t.rsp = some ⟨0#4, 0x4005330FC5638ACA#64⟩)

/-- 43_real.md section 2, the rounding (general knowledge of IEEE-754, 93_implementation_defined.md G1; log entry 12): on finite
operands `f64_sub` and `f64_mul` answer a finite binary64 nearest to the exact result, the even one on a tie, or the infinity
exactly where the exact result is at least half a spacing above the largest finite one; signs and zeros as IEEE-754 has them. -/
def Obligations.SubAndMulRoundToNearestEven : Prop :=
  ∀ a b : Word, f64Finite a = true → f64Finite b = true →
    isNaN (f64Sub a b) = false ∧ isNaN (f64Mul a b) = false ∧
    (∀ g r : Word, r = f64Sub a b → f64Finite r = true → f64Finite g = true →
      let exact := f64Value a - f64Value b
      (f64Value r - exact).natAbs ≤ (f64Value g - exact).natAbs ∧
      ((f64Value r - exact).natAbs = (f64Value g - exact).natAbs → f64Value g ≠ f64Value r → r.getLsbD 0 = false)) ∧
    (∀ g r : Word, r = f64Mul a b → f64Finite r = true → f64Finite g = true →
      let exact := f64Value a * f64Value b
      (f64Value r * 2 ^ 1074 - exact).natAbs ≤ (f64Value g * 2 ^ 1074 - exact).natAbs ∧
      ((f64Value r * 2 ^ 1074 - exact).natAbs = (f64Value g * 2 ^ 1074 - exact).natAbs →
        f64Value g ≠ f64Value r → r.getLsbD 0 = false)) ∧
    (isInf (f64Sub a b) = true ↔ (2 ^ 54 - 1) * 2 ^ 2044 ≤ (f64Value a - f64Value b).natAbs) ∧
    (isInf (f64Mul a b) = true ↔ (2 ^ 54 - 1) * 2 ^ 3118 ≤ (f64Value a * f64Value b).natAbs) ∧
    (f64Value a ≠ f64Value b → f64Sign (f64Sub a b) = decide (f64Value a < f64Value b)) ∧
    (f64Value a = f64Value b →
      f64Sub a b = if f64Sign a && !f64Sign b then 0x8000000000000000#64 else 0#64) ∧
    f64Sign (f64Mul a b) = (f64Sign a != f64Sign b)

/-- 43_real.md section 2 (marked as derived there): on finite operands REAL_BETWEEN gives a NaN exactly where `hi - lo` overflows
and the draw gives `+0`, and then the one NaN `0x7FF8000000000000`. -/
def Obligations.RealBetweenNaNOnlyOnOverflow : Prop :=
  ∀ lo hi w : Word, f64Finite lo = true → f64Finite hi = true →
    (isNaN (realBetweenBits lo hi w) = true ↔ isInf (f64Sub hi lo) = true ∧ w.toNat < 2 ^ 12) ∧
    (isNaN (realBetweenBits lo hi w) = true → realBetweenBits lo hi w = 0x7FF8000000000000#64)

/-- 43_real.md section 2, the table of corner cases (marked as derived there). -/
def Obligations.RealBetweenCornerCases : Prop :=
  (∀ x w : Word, f64Finite x = true → realBetweenBits x x w = 0) ∧
  (∀ w : Word, realBetweenBits 0 0x8000000000000000#64 w = 0x8000000000000000#64) ∧
  (∀ lo hi w : Word, f64Finite lo = true → f64Finite hi = true → f64Value hi < f64Value lo →
    isNaN (realBetweenBits lo hi w) = false → f64Sign (realBetweenBits lo hi w) = true) ∧
  (∀ lo hi w : Word, f64Finite lo = true → f64Finite hi = true → isInf (f64Sub hi lo) = false → w.toNat < 2 ^ 12 →
    (f64Value lo < f64Value hi → realBetweenBits lo hi w = 0) ∧
    (f64Value hi < f64Value lo → realBetweenBits lo hi w = 0x8000000000000000#64)) ∧
  (∀ lo hi w : Word, f64Finite lo = true → f64Finite hi = true → isInf (f64Sub hi lo) = true → 2 ^ 12 ≤ w.toNat →
    realBetweenBits lo hi w = f64Sub hi lo) ∧
  (∀ w : Word, realBetweenBits 0xFFEFFFFFFFFFFFFF#64 0x7FEFFFFFFFFFFFFF#64 w =
    if w.toNat < 2 ^ 12 then 0x7FF8000000000000#64 else 0x7FF0000000000000#64) ∧
  (∀ w : Word, realBetweenBits 0 1 w = if w.toNat / 2 ^ 12 ≤ 2 ^ 51 then 0 else 1) ∧
  realBetweenBits 0xBFF0000000000000#64 0x3FF0000000000000#64 0xFFFFFFFFFFFFFFFF#64 = 0x3FFFFFFFFFFFFFFE#64

/-! ## Status, errors and the whole machine -/

/-- R160: STATUS answers the seeded bits and the sticky error bits in their places, changes nothing, and gives the same when
repeated; its byte with ENG = 1 is illegal. -/
def Obligations.StatusReadsErrAndSeeded : Prop :=
  (∀ a b, decode ⟨0x0A#8, a, b⟩ = .ok .status ∧ decode ⟨0x1A#8, a, b⟩ = .error .statusOnXs) ∧
  (∀ s, ∃ d : Word, exec .status s = .next { s with cmd := none, rsp := some ⟨0#4, d⟩ } ∧
    d.extractLsb' 0 2 = s.seeded ∧ d.extractLsb' 2 6 = 0#6 ∧ d.extractLsb' 8 8 = s.err &&& 0x7E#8 ∧
    d.extractLsb' 16 48 = 0#48) ∧
  (∀ s t u, exec .status s = .next t → exec .status t = .next u → u.rsp = t.rsp) ∧
  (∀ s, s.seeded = 0 → s.err = 0 →
    ∃ rs u, performAll [.drawXs, .seedSm 5, .status] s = some (rs, u) ∧
      rs.map (fun p => p.2) = [⟨2#4, 0⟩, ⟨0#4, 0⟩, ⟨0#4, 0x0000000000000401#64⟩])

/-- R182: each command that reads an unseeded engine ends with NOT_SEEDED, and the commands that read none never do. -/
def Obligations.UnseededEngineIsNotRead : Prop :=
  (∀ s t n lo hi index, s.seeded.getLsbD 0 = false →
    t = { s with cmd := none, rsp := some ⟨2#4, 0⟩, err := s.err ||| 0x04#8 } →
    exec .drawSm s = .next t ∧ exec (.boundedSm n) s = .next t ∧ exec (.boundedRejSm n) s = .next t ∧
    exec .real01Sm s = .next t ∧ exec (.realBetweenSm lo hi) s = .next t ∧ exec (.stateRdSm index) s = .next t) ∧
  (∀ s t n lo hi index, s.seeded.getLsbD 1 = false →
    t = { s with cmd := none, rsp := some ⟨2#4, 0⟩, err := s.err ||| 0x04#8 } →
    exec .drawXs s = .next t ∧ exec (.boundedXs n) s = .next t ∧ exec (.boundedRejXs n) s = .next t ∧
    exec .real01Xs s = .next t ∧ exec (.realBetweenXs lo hi) s = .next t ∧ exec (.stateRdXs index) s = .next t) ∧
  (∀ s t r w i, i ∈ [.seedSm w, .seedXs w, .seedEntSm, .seedEntXs, .minSm, .minXs, .maxSm, .maxXs, .status] →
    s.rsp = none → exec i s = .next t → t.rsp = some r → r.status ≠ 2#4)

/-- R184: a command that ends with an error answers `(S, 0)`, sets `ERR[S]` and changes nothing else, but for the one failed request
of SEED_ENT; the block then accepts the next command. -/
def Obligations.ErrorsChangeOnlyTheirBit : Prop :=
  ∀ s k t S d, s.cmd = some k → s.rsp = none → step s = .next t → t.rsp = some ⟨S, d⟩ → S ≠ 0 →
    1 ≤ S.toNat ∧ S.toNat ≤ 6 ∧ d = 0 ∧
    t = { s with cmd := none, rsp := some ⟨S, 0⟩, err := s.err ||| (1#8 <<< S.toNat), ent := t.ent } ∧
    (t.ent = s.ent ∨ (S = 5#4 ∧ s.ent = .fail :: t.ent)) ∧
    (∀ k' rest, s.host = .take :: .send k' :: rest →
      ∃ u, step t = .next u ∧ step u = .next { u with cmd := some k', host := rest })

/-- R185: the order of errors: ILLEGAL_CMD from the byte alone, then NOT_SEEDED, then the operand error, and ENTROPY_FAIL for
SEED_ENT only. -/
def Obligations.ErrorPriority : Prop :=
  (∀ s k r, s.cmd = some k → s.rsp = none → decode k = .error r → ∃ t, step s = .next t ∧ t.rsp = some ⟨1#4, 0⟩) ∧
  (∀ c a b a' b' r, decode ⟨c, a, b⟩ = .error r → decode ⟨c, a', b'⟩ = .error r) ∧
  (∀ s, s.seeded.getLsbD 0 = false → ∀ i ∈ [Instr.boundedSm 0, .boundedRejSm 0, .stateRdSm 1,
      .realBetweenSm 0x7FF0000000000000#64 0], ∃ t, exec i s = .next t ∧ t.rsp = some ⟨2#4, 0⟩) ∧
  (∀ s, s.seeded.getLsbD 1 = false → ∀ i ∈ [Instr.boundedXs 0, .boundedRejXs 0, .stateRdXs 4,
      .realBetweenXs 0x7FF0000000000000#64 0], ∃ t, exec i s = .next t ∧ t.rsp = some ⟨2#4, 0⟩) ∧
  (∀ s i t r, s.rsp = none → exec i s = .next t → t.rsp = some r →
    (r.status = 6#4 → (∃ a, i = .stateRdSm a ∧ a ≠ 0 ∧ s.seeded.getLsbD 0 = true) ∨
      ∃ a, i = .stateRdXs a ∧ 3 < a.toNat ∧ s.seeded.getLsbD 1 = true) ∧
    (r.status = 3#4 → ((i = .boundedSm 0 ∨ i = .boundedRejSm 0) ∧ s.seeded.getLsbD 0 = true) ∨
      ((i = .boundedXs 0 ∨ i = .boundedRejXs 0) ∧ s.seeded.getLsbD 1 = true)) ∧
    (r.status = 4#4 → (∃ lo hi, i = .realBetweenSm lo hi ∧ s.seeded.getLsbD 0 = true) ∨
      ∃ lo hi, i = .realBetweenXs lo hi ∧ s.seeded.getLsbD 1 = true) ∧
    (r.status = 5#4 → (i = .seedEntSm ∨ i = .seedEntXs) ∧ ∃ rest, s.ent = .fail :: rest) ∧
    r.status ≠ 1#4)

/-- R25: every response with code `k` sets bit `k` of ERR and no other; bits 0 and 7 read 0; only reset clears a bit; STATUS reads
the register as data bits 15:8. -/
def Obligations.ErrBitsAreSticky : Prop :=
  (∀ s k t r, s.cmd = some k → s.rsp = none → step s = .next t → t.rsp = some r →
    ∀ j < 8, (readErr t).getLsbD j = ((readErr s).getLsbD j || (r.status != 0 && j == r.status.toNat))) ∧
  (∀ s, (readErr s).getLsbD 0 = false ∧ (readErr s).getLsbD 7 = false) ∧
  (∀ s t j, step s = .next t → (readErr s).getLsbD j = true →
    (readErr t).getLsbD j = true ∨ ∃ rest, s.host = .reset :: rest) ∧
  (∀ s, readErr (resetBlock s) = 0) ∧ readErr State.reset = 0 ∧
  (∀ s, ∃ t d, exec .status s = .next t ∧ t.rsp = some ⟨0#4, d⟩ ∧ d.extractLsb' 8 8 = readErr s)

/-- 10_state.md section 3, SEEDED: a bit is set exactly by a SEED or SEED_ENT of its engine that ends with status OK, and only reset
clears one. -/
def Obligations.SeededBitsFollowSeeding : Prop :=
  (∀ i s t, holds i s = false → exec i s = .next t →
    (t.seeded.getLsbD 0 = true ↔ s.seeded.getLsbD 0 = true ∨
      (((∃ w, i = .seedSm w) ∨ i = .seedEntSm) ∧ ∃ d, t.rsp = some ⟨0#4, d⟩)) ∧
    (t.seeded.getLsbD 1 = true ↔ s.seeded.getLsbD 1 = true ∨
      (((∃ w, i = .seedXs w) ∨ i = .seedEntXs) ∧ ∃ d, t.rsp = some ⟨0#4, d⟩))) ∧
  (∀ s t j, step s = .next t → s.seeded.getLsbD j = true →
    t.seeded.getLsbD j = true ∨ ∃ rest, s.host = .reset :: rest)

/-- 10_state.md section 2, last rule: a command that does not seed or draw from an engine leaves its words, and, unless it is that
engine's STATE_RD, does not depend on them. -/
def Obligations.EnginesAreIsolated : Prop :=
  (∀ i s t, exec i s = .next t → (usesSm i = false → t.sm = s.sm) ∧ (usesXs i = false → t.xs = s.xs)) ∧
  (∀ i s w, usesSm i = false → (∀ a, i ≠ .stateRdSm a) →
    exec i { s with sm := w } = mapNext (fun t => { t with sm := w }) (exec i s)) ∧
  (∀ i s x, usesXs i = false → (∀ a, i ≠ .stateRdXs a) →
    exec i { s with xs := x } = mapNext (fun t => { t with xs := x }) (exec i s))

/-- 20_memory.md section 3, the table of side effects: STATE_RD, STATUS, MIN and MAX change no engine and answer the same when
repeated; SEED repeated leaves the same state; SEED_ENT that answers OK overwrites its engine with one ENT word, and repeated takes
a fresh one; DRAW, BOUNDED, REAL01 and REAL_BETWEEN that answer OK make exactly one draw, and BOUNDED_REJ one or more. -/
def Obligations.SideEffectsByCommand : Prop :=
  (∀ i s t u a, i ∈ [.stateRdSm a, .stateRdXs a, .status, .minSm, .minXs, .maxSm, .maxXs] →
    exec i s = .next t → exec i t = .next u →
    t.sm = s.sm ∧ t.xs = s.xs ∧ t.seeded = s.seeded ∧ u.rsp = t.rsp) ∧
  (∀ i s t u w, i ∈ [.seedSm w, .seedXs w] → exec i s = .next t → exec i t = .next u → u = t) ∧
  (∀ i s t d n lo hi, i ∈ [.drawSm, .boundedSm n, .real01Sm, .realBetweenSm lo hi] →
    exec i s = .next t → t.rsp = some ⟨0#4, d⟩ → t = { s with sm := 0x9E3779B97F4A7C15#64 + s.sm, cmd := none, rsp := t.rsp }) ∧
  (∀ i s t d n lo hi, i ∈ [.drawXs, .boundedXs n, .real01Xs, .realBetweenXs lo hi] →
    exec i s = .next t → t.rsp = some ⟨0#4, d⟩ → t = { s with xs := xsNext s.xs, cmd := none, rsp := t.rsp }) ∧
  (∀ s t n d, exec (.boundedRejSm n) s = .next t → t.rsp = some ⟨0#4, d⟩ → ∃ k, 1 ≤ k ∧
    t = { s with sm := 0x9E3779B97F4A7C15#64 * BitVec.ofNat 64 k + s.sm, cmd := none, rsp := t.rsp }) ∧
  (∀ s t n d, exec (.boundedRejXs n) s = .next t → t.rsp = some ⟨0#4, d⟩ → ∃ k, 1 ≤ k ∧
    t = { s with xs := xsNext^[k] s.xs, cmd := none, rsp := t.rsp }) ∧
  (∀ s t d, holds .seedEntSm s = false → exec .seedEntSm s = .next t → t.rsp = some ⟨0#4, d⟩ →
    ∃ w, s.ent = .word w :: t.ent ∧
      t = { s with sm := w, seeded := s.seeded ||| 0b01#2, ent := t.ent, cmd := none, rsp := t.rsp }) ∧
  (∀ s t d, holds .seedEntXs s = false → exec .seedEntXs s = .next t → t.rsp = some ⟨0#4, d⟩ →
    ∃ w, s.ent = .word w :: t.ent ∧
      t = { s with xs := xsOfSeed w, seeded := s.seeded ||| 0b10#2, ent := t.ent, cmd := none, rsp := t.rsp }) ∧
  (∀ s t w w' rest, s.ent = .word w :: .word w' :: rest →
    (exec .seedEntSm s = .next t → ∃ u, exec .seedEntSm t = .next u ∧ u.sm = w' ∧ u.ent = rest) ∧
    (exec .seedEntXs s = .next t → ∃ u, exec .seedEntXs t = .next u ∧ u.xs = xsOfSeed w' ∧ u.ent = rest))

/-- 70_reset_and_hazards.md section 1: the engines are seeded independently and in either order. -/
def Obligations.SeedingOrderIsFree : Prop :=
  ∀ s a b, ∃ t1 t2 u, exec (.seedSm a) s = .next t1 ∧ exec (.seedXs b) t1 = .next u ∧
    exec (.seedXs b) s = .next t2 ∧ exec (.seedSm a) t2 = .next u ∧ u.seeded = 0b11#2

/-- 60_exceptions.md section 5: only SEED_ENT requests entropy, one answer each; nothing else uses one up, but that a reset drops
the request that it finds unanswered (log entry 7). -/
def Obligations.OnlySeedEntRequestsEntropy : Prop :=
  (∀ i s t, exec i s = .next t →
    t.ent = s.ent ∨ ((i = .seedEntSm ∨ i = .seedEntXs) ∧
      ∃ a, s.ent = a :: t.ent ∧ a ≠ .silent)) ∧
  (∀ s t, s.cmd = none → step s = .next t → t.ent = s.ent) ∧
  (∀ s t, blockHolds s = true → step s = .next t → t.sm = s.sm ∧ t.xs = s.xs ∧ t.seeded = s.seeded ∧ t.err = s.err ∧
    t.cmd = s.cmd ∧ t.ent = s.ent ∨ ∃ rest, s.host = .reset :: rest)

/-- The invariant holds right after reset. -/
def Obligations.ResetMeetsInvariant : Prop := State.reset.Inv

/-- 10_state.md section 3, 41_xoshiro256ss.md section 3 and 70_reset_and_hazards.md section 2: every step keeps the invariant: ERR's
hardwired bits stay 0, a seeded XS is never all-zero, every response is a legal one, no command is outstanding while a response
waits, and a waiting error response is recorded in ERR. -/
def Obligations.StepKeepsInvariant : Prop :=
  ∀ s t, State.Inv s → step s = .next t → State.Inv t

/-- 10_state.md section 6: what the engines hold while unseeded cannot be observed: two states that differ only there give the same
responses, status bits and agents' state over every run, and the same engines once seeded. -/
def Obligations.UnseededContentsAreUnobservable : Prop :=
  ∀ (s s' : State) (w : Word) (x : XsWords) (n : Nat),
    s' = { s with
      sm := if s.seeded.getLsbD 0 then s.sm else w,
      xs := if s.seeded.getLsbD 1 then s.xs else x } →
    (∀ t, Sys2Proof.core.run n s = .next t → ∃ t' : State, Sys2Proof.core.run n s' = .next t' ∧
      (∃ w' x', t' = { t with sm := w', xs := x' }) ∧
      (t.seeded.getLsbD 0 = true → t'.sm = t.sm) ∧ (t.seeded.getLsbD 1 = true → t'.xs = t.xs)) ∧
    (∀ f, Sys2Proof.core.run n s = .fault f → Sys2Proof.core.run n s' = .fault f)
end

