-- ==== Sys2Proof/Laws/State.lean ====
section
/-!
SUPPORT. One lemma per field per update of the state, each true by rfl, so that no later proof unfolds a record update.
-/

namespace Sys2Proof.Machine

@[simp] theorem markSeeded_sm (e : Engine) (s : State) : (markSeeded e s).sm = s.sm := rfl
@[simp] theorem markSeeded_xs (e : Engine) (s : State) : (markSeeded e s).xs = s.xs := rfl
@[simp] theorem markSeeded_seeded (e : Engine) (s : State) : (markSeeded e s).seeded = s.seeded ||| (1#2 <<< engineIndex e) := rfl
@[simp] theorem markSeeded_err (e : Engine) (s : State) : (markSeeded e s).err = s.err := rfl
@[simp] theorem markSeeded_cmd (e : Engine) (s : State) : (markSeeded e s).cmd = s.cmd := rfl
@[simp] theorem markSeeded_rsp (e : Engine) (s : State) : (markSeeded e s).rsp = s.rsp := rfl
@[simp] theorem markSeeded_host (e : Engine) (s : State) : (markSeeded e s).host = s.host := rfl
@[simp] theorem markSeeded_ent (e : Engine) (s : State) : (markSeeded e s).ent = s.ent := rfl
@[simp] theorem markSeeded_taken (e : Engine) (s : State) : (markSeeded e s).taken = s.taken := rfl
@[simp] theorem markSeeded_resets (e : Engine) (s : State) : (markSeeded e s).resets = s.resets := rfl

@[simp] theorem recordError_sm (k : ErrCode) (s : State) : (recordError k s).sm = s.sm := rfl
@[simp] theorem recordError_xs (k : ErrCode) (s : State) : (recordError k s).xs = s.xs := rfl
@[simp] theorem recordError_seeded (k : ErrCode) (s : State) : (recordError k s).seeded = s.seeded := rfl
@[simp] theorem recordError_err (k : ErrCode) (s : State) : (recordError k s).err = s.err ||| (1#8 <<< (errCode k).toNat) := rfl
@[simp] theorem recordError_cmd (k : ErrCode) (s : State) : (recordError k s).cmd = s.cmd := rfl
@[simp] theorem recordError_rsp (k : ErrCode) (s : State) : (recordError k s).rsp = s.rsp := rfl
@[simp] theorem recordError_host (k : ErrCode) (s : State) : (recordError k s).host = s.host := rfl
@[simp] theorem recordError_ent (k : ErrCode) (s : State) : (recordError k s).ent = s.ent := rfl
@[simp] theorem recordError_taken (k : ErrCode) (s : State) : (recordError k s).taken = s.taken := rfl
@[simp] theorem recordError_resets (k : ErrCode) (s : State) : (recordError k s).resets = s.resets := rfl

@[simp] theorem endCommand_sm (r : Response) (s : State) : (endCommand r s).sm = s.sm := rfl
@[simp] theorem endCommand_xs (r : Response) (s : State) : (endCommand r s).xs = s.xs := rfl
@[simp] theorem endCommand_seeded (r : Response) (s : State) : (endCommand r s).seeded = s.seeded := rfl
@[simp] theorem endCommand_err (r : Response) (s : State) : (endCommand r s).err = s.err := rfl
@[simp] theorem endCommand_cmd (r : Response) (s : State) : (endCommand r s).cmd = none := rfl
@[simp] theorem endCommand_rsp (r : Response) (s : State) : (endCommand r s).rsp = some r := rfl
@[simp] theorem endCommand_host (r : Response) (s : State) : (endCommand r s).host = s.host := rfl
@[simp] theorem endCommand_ent (r : Response) (s : State) : (endCommand r s).ent = s.ent := rfl
@[simp] theorem endCommand_taken (r : Response) (s : State) : (endCommand r s).taken = s.taken := rfl
@[simp] theorem endCommand_resets (r : Response) (s : State) : (endCommand r s).resets = s.resets := rfl

@[simp] theorem respond_sm (d : Word) (s : State) : (respond d s).sm = s.sm := rfl
@[simp] theorem respond_xs (d : Word) (s : State) : (respond d s).xs = s.xs := rfl
@[simp] theorem respond_seeded (d : Word) (s : State) : (respond d s).seeded = s.seeded := rfl
@[simp] theorem respond_err (d : Word) (s : State) : (respond d s).err = s.err := rfl
@[simp] theorem respond_cmd (d : Word) (s : State) : (respond d s).cmd = none := rfl
@[simp] theorem respond_rsp (d : Word) (s : State) : (respond d s).rsp = some ⟨statusOk, d⟩ := rfl
@[simp] theorem respond_host (d : Word) (s : State) : (respond d s).host = s.host := rfl
@[simp] theorem respond_ent (d : Word) (s : State) : (respond d s).ent = s.ent := rfl
@[simp] theorem respond_taken (d : Word) (s : State) : (respond d s).taken = s.taken := rfl
@[simp] theorem respond_resets (d : Word) (s : State) : (respond d s).resets = s.resets := rfl

@[simp] theorem raise_sm (k : ErrCode) (s : State) : (raise k s).sm = s.sm := rfl
@[simp] theorem raise_xs (k : ErrCode) (s : State) : (raise k s).xs = s.xs := rfl
@[simp] theorem raise_seeded (k : ErrCode) (s : State) : (raise k s).seeded = s.seeded := rfl
@[simp] theorem raise_err (k : ErrCode) (s : State) : (raise k s).err = s.err ||| (1#8 <<< (errCode k).toNat) := rfl
@[simp] theorem raise_cmd (k : ErrCode) (s : State) : (raise k s).cmd = none := rfl
@[simp] theorem raise_rsp (k : ErrCode) (s : State) : (raise k s).rsp = some ⟨errCode k, 0⟩ := rfl
@[simp] theorem raise_host (k : ErrCode) (s : State) : (raise k s).host = s.host := rfl
@[simp] theorem raise_ent (k : ErrCode) (s : State) : (raise k s).ent = s.ent := rfl
@[simp] theorem raise_taken (k : ErrCode) (s : State) : (raise k s).taken = s.taken := rfl
@[simp] theorem raise_resets (k : ErrCode) (s : State) : (raise k s).resets = s.resets := rfl

@[simp] theorem writeSm_sm (w : Word) (s : State) : (writeSm w s).sm = w := rfl
@[simp] theorem writeSm_xs (w : Word) (s : State) : (writeSm w s).xs = s.xs := rfl
@[simp] theorem writeSm_seeded (w : Word) (s : State) : (writeSm w s).seeded = s.seeded := rfl
@[simp] theorem writeSm_err (w : Word) (s : State) : (writeSm w s).err = s.err := rfl
@[simp] theorem writeSm_cmd (w : Word) (s : State) : (writeSm w s).cmd = s.cmd := rfl
@[simp] theorem writeSm_rsp (w : Word) (s : State) : (writeSm w s).rsp = s.rsp := rfl
@[simp] theorem writeSm_host (w : Word) (s : State) : (writeSm w s).host = s.host := rfl
@[simp] theorem writeSm_ent (w : Word) (s : State) : (writeSm w s).ent = s.ent := rfl
@[simp] theorem writeSm_taken (w : Word) (s : State) : (writeSm w s).taken = s.taken := rfl
@[simp] theorem writeSm_resets (w : Word) (s : State) : (writeSm w s).resets = s.resets := rfl

@[simp] theorem writeXs_sm (x : XsWords) (s : State) : (writeXs x s).sm = s.sm := rfl
@[simp] theorem writeXs_xs (x : XsWords) (s : State) : (writeXs x s).xs = x := rfl
@[simp] theorem writeXs_seeded (x : XsWords) (s : State) : (writeXs x s).seeded = s.seeded := rfl
@[simp] theorem writeXs_err (x : XsWords) (s : State) : (writeXs x s).err = s.err := rfl
@[simp] theorem writeXs_cmd (x : XsWords) (s : State) : (writeXs x s).cmd = s.cmd := rfl
@[simp] theorem writeXs_rsp (x : XsWords) (s : State) : (writeXs x s).rsp = s.rsp := rfl
@[simp] theorem writeXs_host (x : XsWords) (s : State) : (writeXs x s).host = s.host := rfl
@[simp] theorem writeXs_ent (x : XsWords) (s : State) : (writeXs x s).ent = s.ent := rfl
@[simp] theorem writeXs_taken (x : XsWords) (s : State) : (writeXs x s).taken = s.taken := rfl
@[simp] theorem writeXs_resets (x : XsWords) (s : State) : (writeXs x s).resets = s.resets := rfl

@[simp] theorem dropEnt_sm (s : State) : (dropEnt s).sm = s.sm := rfl
@[simp] theorem dropEnt_xs (s : State) : (dropEnt s).xs = s.xs := rfl
@[simp] theorem dropEnt_seeded (s : State) : (dropEnt s).seeded = s.seeded := rfl
@[simp] theorem dropEnt_err (s : State) : (dropEnt s).err = s.err := rfl
@[simp] theorem dropEnt_cmd (s : State) : (dropEnt s).cmd = s.cmd := rfl
@[simp] theorem dropEnt_rsp (s : State) : (dropEnt s).rsp = s.rsp := rfl
@[simp] theorem dropEnt_host (s : State) : (dropEnt s).host = s.host := rfl
@[simp] theorem dropEnt_ent (s : State) : (dropEnt s).ent = s.ent.tail := rfl
@[simp] theorem dropEnt_taken (s : State) : (dropEnt s).taken = s.taken := rfl
@[simp] theorem dropEnt_resets (s : State) : (dropEnt s).resets = s.resets := rfl

/-! Reset leaves `SEEDED`, `ERR` and both channels clear, and the agents' lists but for an unanswered request as they were. -/

@[simp] theorem resetBlock_seeded (s : State) : (resetBlock s).seeded = 0 := rfl
@[simp] theorem resetBlock_err (s : State) : (resetBlock s).err = 0 := rfl
@[simp] theorem resetBlock_cmd (s : State) : (resetBlock s).cmd = none := rfl
@[simp] theorem resetBlock_rsp (s : State) : (resetBlock s).rsp = none := rfl
@[simp] theorem resetBlock_host (s : State) : (resetBlock s).host = s.host := rfl
@[simp] theorem resetBlock_taken (s : State) : (resetBlock s).taken = s.taken := rfl
@[simp] theorem resetBlock_resets (s : State) : (resetBlock s).resets = s.resets + 1 := rfl

end Sys2Proof.Machine
end

