-- ==== Sys2Proof/Laws/Ops.lean ====
section
/-!
SUPPORT. One lemma for each shared operation, saying everything it can do; later proofs cite these instead of unfolding.
-/

namespace Sys2Proof.Machine

/-! ## The engines -/

theorem rotl_eq_rotateLeft (x : Word) (k : Nat) (h0 : 0 < k) (hk : k < 64) : rotl x k = x.rotateLeft k := by
  apply BitVec.eq_of_getLsbD_eq
  intro i hi
  simp only [rotl, BitVec.getLsbD_xor, BitVec.getLsbD_shiftLeft, BitVec.getLsbD_ushiftRight, BitVec.getLsbD_rotateLeft]
  rw [Nat.mod_eq_of_lt hk]
  by_cases h : i < k
  · simp [h]
  · have : 64 ≤ 64 - k + i := by omega
    simp [h, hi, BitVec.getLsbD_of_ge _ _ this]

@[simp] theorem draw_sm (s : State) :
    draw .sm s = (mix64 (smNext s.sm), writeSm (smNext s.sm) s) := rfl

@[simp] theorem draw_xs (s : State) : draw .xs s = (xsOut s.xs.s1, writeXs (xsNext s.xs) s) := rfl

@[simp] theorem draw_seeded (e : Engine) (s : State) : (draw e s).2.seeded = s.seeded := by cases e <;> rfl
@[simp] theorem draw_err (e : Engine) (s : State) : (draw e s).2.err = s.err := by cases e <;> rfl
@[simp] theorem draw_cmd (e : Engine) (s : State) : (draw e s).2.cmd = s.cmd := by cases e <;> rfl
@[simp] theorem draw_rsp (e : Engine) (s : State) : (draw e s).2.rsp = s.rsp := by cases e <;> rfl
@[simp] theorem draw_host (e : Engine) (s : State) : (draw e s).2.host = s.host := by cases e <;> rfl
@[simp] theorem draw_ent (e : Engine) (s : State) : (draw e s).2.ent = s.ent := by cases e <;> rfl
@[simp] theorem draw_taken (e : Engine) (s : State) : (draw e s).2.taken = s.taken := by cases e <;> rfl
@[simp] theorem draw_resets (e : Engine) (s : State) : (draw e s).2.resets = s.resets := by cases e <;> rfl

theorem seedEngine_sm (w : Word) (s : State) :
    seedEngine .sm w s = { s with sm := w, seeded := s.seeded ||| 1#2 } := rfl

theorem seedEngine_xs (w : Word) (s : State) :
    seedEngine .xs w s = { s with xs := xsOfSeed w, seeded := s.seeded ||| 2#2 } := rfl

/-! ## The checks and the two ends of a command -/

@[simp] theorem seededBit_congr_seeded {s t : State} (e : Engine) (h : t.seeded = s.seeded) :
    seededBit e t = seededBit e s := by simp [seededBit, h]

theorem seededBit_sm (s : State) : seededBit .sm s = s.seeded.getLsbD 0 := rfl

theorem seededBit_xs (s : State) : seededBit .xs s = s.seeded.getLsbD 1 := rfl

theorem ifSeeded_of_seeded {e : Engine} {s : State} (body : Result) (h : seededBit e s = true) :
    ifSeeded e s body = body := by simp [ifSeeded, h]

theorem ifSeeded_of_unseeded {e : Engine} {s : State} (body : Result) (h : seededBit e s = false) :
    ifSeeded e s body = .next (raise .notSeeded s) := by simp [ifSeeded, h]

theorem ifSeeded_sm {s : State} (body : Result) (h : s.seeded.getLsbD 0 = true) : ifSeeded .sm s body = body :=
  ifSeeded_of_seeded body h

theorem ifSeeded_xs {s : State} (body : Result) (h : s.seeded.getLsbD 1 = true) : ifSeeded .xs s body = body :=
  ifSeeded_of_seeded body h

theorem ifSeeded_sm_unseeded {s : State} (body : Result) (h : s.seeded.getLsbD 0 = false) :
    ifSeeded .sm s body = .next (raise .notSeeded s) := ifSeeded_of_unseeded body h

theorem ifSeeded_xs_unseeded {s : State} (body : Result) (h : s.seeded.getLsbD 1 = false) :
    ifSeeded .xs s body = .next (raise .notSeeded s) := ifSeeded_of_unseeded body h

theorem ifBound_of_ne {n : Word} {s : State} (body : Result) (h : n ≠ 0) : ifBound n s body = body := if_neg h

theorem ifBound_zero (s : State) (body : Result) : ifBound 0 s body = .next (raise .boundZero s) := by
  simp [ifBound]

theorem ifFinite_of_finite {lo hi : Word} {s : State} (body : Result) (h : f64Finite lo = true)
    (h' : f64Finite hi = true) : ifFinite lo hi s body = body := by simp [ifFinite, h, h']

theorem ifFinite_of_not {lo hi : Word} {s : State} (body : Result) (h : f64Finite lo = false ∨ f64Finite hi = false) :
    ifFinite lo hi s body = .next (raise .badFloat s) := by
  rcases h with h | h <;> simp [ifFinite, h]

/-- The index space of each engine, entry by entry. -/
theorem stateWord_cases (e : Engine) (index : Word) (s : State) :
    (e = .sm ∧ index.toNat = 0 ∧ stateWord e index s = some s.sm) ∨
    (e = .xs ∧ index.toNat = 0 ∧ stateWord e index s = some s.xs.s0) ∨
    (e = .xs ∧ index.toNat = 1 ∧ stateWord e index s = some s.xs.s1) ∨
    (e = .xs ∧ index.toNat = 2 ∧ stateWord e index s = some s.xs.s2) ∨
    (e = .xs ∧ index.toNat = 3 ∧ stateWord e index s = some s.xs.s3) ∨
    (e = .sm ∧ 0 < index.toNat ∧ stateWord e index s = none) ∨
    (e = .xs ∧ 3 < index.toNat ∧ stateWord e index s = none) := by
  have hx : index.toNat = 0 ∨ index.toNat = 1 ∨ index.toNat = 2 ∨ index.toNat = 3 ∨
      ∃ m, index.toNat = m + 4 := by
    rcases Nat.lt_or_ge index.toNat 4 with h | h
    · omega
    · exact .inr (.inr (.inr (.inr ⟨index.toNat - 4, by omega⟩)))
  unfold stateWord
  cases e <;> rcases hx with h | h | h | h | ⟨m, h⟩ <;> simp [h]

/-! ## The entropy source -/

/-- What one request brings, by the entropy source's next act. -/
theorem entropyRead_cases (s : State) :
    (∃ w rest, s.ent = .word w :: rest ∧ entropyRead s = .word w { s with ent := rest }) ∨
    (∃ rest, s.ent = .fail :: rest ∧ entropyRead s = .fail { s with ent := rest }) ∨
    ((s.ent = [] ∨ ∃ rest, s.ent = .silent :: rest) ∧ entropyRead s = .waiting) := by
  unfold entropyRead dropEnt
  split <;> simp_all

theorem entropyRead_waiting_iff (s : State) :
    entropyRead s = .waiting ↔ s.ent = [] ∨ ∃ rest, s.ent = .silent :: rest := by
  rcases entropyRead_cases s with ⟨w, r, h, h'⟩ | ⟨r, h, h'⟩ | ⟨h, h'⟩
  · simp [h, h']
  · simp [h, h']
  · simp [h, h']

/-! ## The host -/

/-- Everything one action of the host can do. -/
theorem hostStep_cases (s : State) :
    (hostStep s = s ∧ ∀ rest, s.host ≠ .reset :: rest) ∨
    (∃ k rest, s.host = .send k :: rest ∧ s.cmd = none ∧ s.rsp = none ∧
      hostStep s = { s with cmd := some k, host := rest }) ∨
    (∃ r rest, s.host = .take :: rest ∧ s.rsp = some r ∧
      hostStep s = { s with rsp := none, taken := s.taken ++ [r], host := rest }) ∨
    (∃ rest, s.host = .reset :: rest ∧ hostStep s = resetBlock { s with host := rest }) := by
  rcases h : s.host with _ | ⟨a, rest⟩
  · left; simp [hostStep, h]
  · cases a with
    | send k =>
      by_cases hc : s.cmd = none ∧ s.rsp = none
      · right; left
        exact ⟨k, rest, rfl, hc.1, hc.2, by simp [hostStep, h, hostSend, hc]⟩
      · left; simp [hostStep, h, hostSend, hc]
    | take =>
      cases hr : s.rsp with
      | none => left; simp [hostStep, h, hostTake, hr]
      | some r =>
        right; right; left
        exact ⟨r, rest, rfl, rfl, by simp [hostStep, h, hostTake, hr]⟩
    | reset =>
      right; right; right
      exact ⟨rest, rfl, by simp [hostStep, h, hostReset]⟩

/-! ## The rejection loop -/

theorem afterDraws_succ (e : Engine) (k : Nat) (s : State) :
    afterDraws e (k + 1) s = afterDraws e k (draw e s).2 := rfl

/-- `k` draws of SM, in closed form. -/
theorem afterDraws_sm (k : Nat) (s : State) : afterDraws .sm k s = { s with sm := gamma * BitVec.ofNat 64 k + s.sm } := by
  induction k generalizing s with
  | zero => simp [afterDraws]
  | succ k ih =>
    rw [afterDraws_succ, ih]
    simp only [draw_sm, writeSm, smNext, State.mk.injEq, and_true]
    rw [BitVec.ofNat_add, BitVec.mul_add, BitVec.mul_one, BitVec.add_assoc]

/-- `k` draws of XS: the update iterated. -/
theorem afterDraws_xs (k : Nat) (s : State) : afterDraws .xs k s = { s with xs := xsNext^[k] s.xs } := by
  induction k generalizing s with
  | zero => rfl
  | succ k ih => rw [afterDraws_succ, ih, Function.iterate_succ_apply]; rfl

theorem drawnWord_succ (e : Engine) (k : Nat) (s : State) : drawnWord e (k + 1) s = drawnWord e k (draw e s).2 := rfl

/-- The loop answers the first accepted word, having drawn up to it. -/
theorem rejLoop_eq_some {e : Engine} {n : Word} {fuel : Nat} {s : State} {w : Word} {t : State}
    (h : rejLoop e n fuel s = some (w, t)) :
    ∃ k < fuel, (∀ j < k, drawnWord e j s < threshold n) ∧ threshold n ≤ drawnWord e k s ∧
      w = drawnWord e k s % n ∧ t = afterDraws e (k + 1) s := by
  induction fuel generalizing s with
  | zero => simp [rejLoop] at h
  | succ fuel ih =>
    by_cases ha : threshold n ≤ (draw e s).1
    · rw [rejLoop, if_pos ha] at h
      cases h
      exact ⟨0, by omega, by simp, ha, rfl, rfl⟩
    · rw [rejLoop, if_neg ha] at h
      obtain ⟨k, hk, hrej, hacc, hw, ht⟩ := ih h
      refine ⟨k + 1, by omega, ?_, hacc, hw, ht⟩
      intro j hj
      cases j with
      | zero => exact BitVec.not_le.mp ha
      | succ j => exact hrej j (by omega)

/-- The loop runs out of fuel exactly where every word within it is rejected. -/
theorem rejLoop_eq_none_iff (e : Engine) (n : Word) (fuel : Nat) (s : State) :
    rejLoop e n fuel s = none ↔ ∀ k < fuel, drawnWord e k s < threshold n := by
  induction fuel generalizing s with
  | zero => simp [rejLoop]
  | succ fuel ih =>
    by_cases ha : threshold n ≤ (draw e s).1
    · rw [rejLoop, if_pos ha]
      simp only [reduceCtorEq, false_iff, not_forall]
      exact ⟨0, by omega, BitVec.not_lt.mpr ha⟩
    · rw [rejLoop, if_neg ha, ih]
      constructor
      · intro h k hk
        cases k with
        | zero => exact BitVec.not_le.mp ha
        | succ k => exact h k (by omega)
      · intro h k hk
        exact h (k + 1) (by omega)

/-! ## What every command leaves alone -/

/-- The fields of the host's side that no command touches. -/
def sameHostSide (s t : State) : Prop := t.host = s.host ∧ t.taken = s.taken ∧ t.resets = s.resets

theorem sameHostSide_afterDraws (e : Engine) (k : Nat) (s : State) : sameHostSide s (afterDraws e k s) := by
  induction k generalizing s with
  | zero => exact ⟨rfl, rfl, rfl⟩
  | succ k ih =>
    obtain ⟨h1, h2, h3⟩ := ih (draw e s).2
    exact ⟨by simpa [afterDraws] using h1, by simpa [afterDraws] using h2, by simpa [afterDraws] using h3⟩

end Sys2Proof.Machine
end

