-- ==== Sys2Proof/Laws/Exec.lean ====
section
/-!
SUPPORT. What performing one command can do, said once: the inversion of `exec`, of `perform` and of `step`.
-/

namespace Sys2Proof.Machine

/-- The command seeds engine `e` or draws from it. -/
def usesEngine : Engine → Instr → Bool
  | .sm => usesSm
  | .xs => usesXs

/-- What a command that answers OK did before its response: nothing, some draws of a seeded engine, or a seeding. -/
def Progress (i : Instr) (s s1 : State) : Prop :=
  s1 = s ∨
  (∃ e k, usesEngine e i = true ∧ seededBit e s = true ∧ s1 = afterDraws e (k + 1) s) ∨
  (∃ e w s0, usesEngine e i = true ∧ (s0 = s ∨ ∃ rest, s.ent = .word w :: rest ∧ s0 = { s with ent := rest }) ∧
    s1 = seedEngine e w s0)

/-- What a command that ends with an error did before its response: nothing, or one failed request on ENT. -/
def Failure (k : ErrCode) (s s1 : State) : Prop :=
  s1 = s ∨ (k = .entropyFail ∧ ∃ rest, s.ent = .fail :: rest ∧ s1 = { s with ent := rest })

/-- A command's outcome at `s`: it holds, ends with an error, answers OK, or is a rejection loop without end. -/
inductive Ends (i : Instr) (s : State) : Result → Prop where
  | holds (h : Machine.holds i s = true) : Ends i s (.next s)
  | error (k : ErrCode) (s1 : State) (h : Failure k s s1) : Ends i s (.next (raise k s1))
  | answer (d : Word) (s1 : State) (h : Progress i s s1) : Ends i s (.next (respond d s1))
  | endless (e : Engine) (n : Word) (hu : usesEngine e i = true)
      (h : ∀ k < Config.rejFuel, drawnWord e k s < threshold n) : Ends i s (.fault .rejFuelExhausted)

theorem ends_ifSeeded {i : Instr} {e : Engine} {s : State} {body : Result}
    (h : seededBit e s = true → Ends i s body) : Ends i s (ifSeeded e s body) := by
  cases hs : seededBit e s with
  | false => rw [ifSeeded_of_unseeded _ hs]; exact .error _ _ (.inl rfl)
  | true => rw [ifSeeded_of_seeded _ hs]; exact h hs

theorem ends_ifBound {i : Instr} {n : Word} {s : State} {body : Result} (h : n ≠ 0 → Ends i s body) :
    Ends i s (ifBound n s body) := by
  by_cases hn : n = 0
  · subst hn; rw [ifBound_zero]; exact .error _ _ (.inl rfl)
  · rw [ifBound_of_ne _ hn]; exact h hn

theorem ends_ifFinite {i : Instr} {lo hi : Word} {s : State} {body : Result} (h : Ends i s body) :
    Ends i s (ifFinite lo hi s body) := by
  unfold ifFinite
  split
  · exact h
  · exact .error _ _ (.inl rfl)

theorem ends_drawAndAnswer {i : Instr} {e : Engine} {f : Word → Word} {s : State} (hu : usesEngine e i = true)
    (hs : seededBit e s = true) : Ends i s (drawAndAnswer e f s) :=
  .answer _ _ (.inr (.inl ⟨e, 0, hu, hs, rfl⟩))

theorem ends_seed {i : Instr} {e : Engine} {w : Word} {s : State} (hu : usesEngine e i = true) :
    Ends i s (seed e w s) :=
  .answer _ _ (.inr (.inr ⟨e, w, s, hu, .inl rfl, rfl⟩))

theorem ends_seedEnt {i : Instr} {e : Engine} {s : State} (hu : usesEngine e i = true)
    (hr : requestsEntropy i = true) : Ends i s (seedEnt e s) := by
  unfold seedEnt
  rcases entropyRead_cases s with ⟨w, rest, he, h⟩ | ⟨rest, he, h⟩ | ⟨_, h⟩ <;> rw [h]
  · exact .answer _ _ (.inr (.inr ⟨e, w, _, hu, .inr ⟨rest, he, rfl⟩, rfl⟩))
  · exact .error _ _ (.inr ⟨rfl, rest, he, rfl⟩)
  · exact .holds (by simp [Machine.holds, hr, h])

theorem ends_boundedRej {i : Instr} {e : Engine} {n : Word} {s : State} (hu : usesEngine e i = true) :
    Ends i s (boundedRej e n s) := by
  refine ends_ifSeeded fun hs => ends_ifBound fun _ => ?_
  cases hl : rejLoop e n Config.rejFuel s with
  | none => exact .endless e n hu ((rejLoop_eq_none_iff e n _ s).mp hl)
  | some p =>
    obtain ⟨k, -, -, -, -, ht⟩ := rejLoop_eq_some (w := p.1) (t := p.2) hl
    exact .answer _ _ (.inr (.inl ⟨e, k, hu, hs, ht⟩))

theorem ends_stateRead {i : Instr} {e : Engine} {index : Word} {s : State} : Ends i s (stateRead e index s) := by
  refine ends_ifSeeded fun _ => ?_
  cases stateWord e index s with
  | none => exact .error _ _ (.inl rfl)
  | some w => exact .answer _ _ (.inl rfl)

/-- Everything `exec` can do. -/
theorem exec_ends (i : Instr) (s : State) : Ends i s (exec i s) := by
  cases i with
  | seedSm w => exact ends_seed rfl
  | seedXs w => exact ends_seed rfl
  | seedEntSm => exact ends_seedEnt rfl rfl
  | seedEntXs => exact ends_seedEnt rfl rfl
  | drawSm => exact ends_ifSeeded (ends_drawAndAnswer rfl)
  | drawXs => exact ends_ifSeeded (ends_drawAndAnswer rfl)
  | boundedSm n => exact ends_ifSeeded fun hs => ends_ifBound fun _ => ends_drawAndAnswer rfl hs
  | boundedXs n => exact ends_ifSeeded fun hs => ends_ifBound fun _ => ends_drawAndAnswer rfl hs
  | boundedRejSm n => exact ends_boundedRej rfl
  | boundedRejXs n => exact ends_boundedRej rfl
  | real01Sm => exact ends_ifSeeded (ends_drawAndAnswer rfl)
  | real01Xs => exact ends_ifSeeded (ends_drawAndAnswer rfl)
  | realBetweenSm lo hi => exact ends_ifSeeded fun hs => ends_ifFinite (ends_drawAndAnswer rfl hs)
  | realBetweenXs lo hi => exact ends_ifSeeded fun hs => ends_ifFinite (ends_drawAndAnswer rfl hs)
  | minSm => exact .answer _ _ (.inl rfl)
  | minXs => exact .answer _ _ (.inl rfl)
  | maxSm => exact .answer _ _ (.inl rfl)
  | maxXs => exact .answer _ _ (.inl rfl)
  | stateRdSm index => exact ends_stateRead
  | stateRdXs index => exact ends_stateRead
  | status => exact .answer _ _ (.inl rfl)

/-- Everything `step` can do: the host acts, an illegal byte is answered, or the decoded command is performed. -/
theorem step_cases (s : State) :
    ((s.cmd = none ∨ s.rsp ≠ none ∨ blockHolds s = true) ∧ step s = .next (hostStep s)) ∨
    (∃ k r, s.cmd = some k ∧ s.rsp = none ∧ decode k = .error r ∧ step s = .next (raise .illegalCmd s)) ∨
    (∃ k i, s.cmd = some k ∧ s.rsp = none ∧ decode k = .ok i ∧ holds i s = false ∧ step s = exec i s) := by
  unfold step blockHolds
  cases hc : s.cmd with
  | none => simp
  | some k =>
    cases hr : s.rsp with
    | some r => simp
    | none =>
      cases hd : decode k with
      | error r => right; left; exact ⟨k, r, rfl, rfl, hd, by simp [execIllegal, hd]⟩
      | ok i =>
        cases hh : holds i s with
        | true => left; simp [hd, hh]
        | false => right; right; exact ⟨k, i, rfl, rfl, hd, hh, by simp [hd, hh]⟩

/-- A legal command that does not wait is performed. -/
theorem step_eq_exec {s : State} {k : Command} {i : Instr} (hc : s.cmd = some k) (hr : s.rsp = none)
    (hd : decode k = .ok i) (hh : holds i s = false) : step s = exec i s := by
  simp [step, hc, hr, hd, hh]

/-- The machine never refuses. -/
theorem step_ne_refused (s : State) (r : Refusal) : step s ≠ .refused r := by
  rcases step_cases s with ⟨-, h⟩ | ⟨k, r', -, -, -, h⟩ | ⟨k, i, -, -, -, -, h⟩ <;> rw [h]
  · exact fun h => nomatch h
  · exact fun h => nomatch h
  · have he := exec_ends i s
    generalize exec i s = o at he
    cases he <;> exact fun h => nomatch h

end Sys2Proof.Machine
end

