-- ==== Sys2Proof/Laws/PerInstr.lean ====
section
/-!
SUPPORT. The statement family Encoding, one lemma per constructor: the encoder of an instruction gives a well-formed command, a
legal byte with 0 in every operand word that is not read (30_encoding.md R64, R66, R68).
-/

namespace Sys2Proof.Laws.Encoding

/-- The command word of `i` is well formed. -/
def Statement (i : Instr) : Prop := (encode i).wellFormed = true ∧ (encode i).byte ∈ legalBytes

theorem seedSm (seed : Word) : Statement (.seedSm seed) := by
  simp [Statement, encode, legalBytes, Command.wellFormed, Command.legal, Command.reservedZero,
    Command.opDefined, Command.notStatusXs, Command.operandsCanonical, Command.readsA, Command.readsB]
theorem seedXs (seed : Word) : Statement (.seedXs seed) := by
  simp [Statement, encode, legalBytes, Command.wellFormed, Command.legal, Command.reservedZero,
    Command.opDefined, Command.notStatusXs, Command.operandsCanonical, Command.readsA, Command.readsB]
theorem seedEntSm : Statement .seedEntSm := by
  simp [Statement, encode, legalBytes, Command.wellFormed, Command.legal, Command.reservedZero,
    Command.opDefined, Command.notStatusXs, Command.operandsCanonical, Command.readsA, Command.readsB]
theorem seedEntXs : Statement .seedEntXs := by
  simp [Statement, encode, legalBytes, Command.wellFormed, Command.legal, Command.reservedZero,
    Command.opDefined, Command.notStatusXs, Command.operandsCanonical, Command.readsA, Command.readsB]
theorem drawSm : Statement .drawSm := by
  simp [Statement, encode, legalBytes, Command.wellFormed, Command.legal, Command.reservedZero,
    Command.opDefined, Command.notStatusXs, Command.operandsCanonical, Command.readsA, Command.readsB]
theorem drawXs : Statement .drawXs := by
  simp [Statement, encode, legalBytes, Command.wellFormed, Command.legal, Command.reservedZero,
    Command.opDefined, Command.notStatusXs, Command.operandsCanonical, Command.readsA, Command.readsB]
theorem boundedSm (n : Word) : Statement (.boundedSm n) := by
  simp [Statement, encode, legalBytes, Command.wellFormed, Command.legal, Command.reservedZero,
    Command.opDefined, Command.notStatusXs, Command.operandsCanonical, Command.readsA, Command.readsB]
theorem boundedXs (n : Word) : Statement (.boundedXs n) := by
  simp [Statement, encode, legalBytes, Command.wellFormed, Command.legal, Command.reservedZero,
    Command.opDefined, Command.notStatusXs, Command.operandsCanonical, Command.readsA, Command.readsB]
theorem boundedRejSm (n : Word) : Statement (.boundedRejSm n) := by
  simp [Statement, encode, legalBytes, Command.wellFormed, Command.legal, Command.reservedZero,
    Command.opDefined, Command.notStatusXs, Command.operandsCanonical, Command.readsA, Command.readsB]
theorem boundedRejXs (n : Word) : Statement (.boundedRejXs n) := by
  simp [Statement, encode, legalBytes, Command.wellFormed, Command.legal, Command.reservedZero,
    Command.opDefined, Command.notStatusXs, Command.operandsCanonical, Command.readsA, Command.readsB]
theorem real01Sm : Statement .real01Sm := by
  simp [Statement, encode, legalBytes, Command.wellFormed, Command.legal, Command.reservedZero,
    Command.opDefined, Command.notStatusXs, Command.operandsCanonical, Command.readsA, Command.readsB]
theorem real01Xs : Statement .real01Xs := by
  simp [Statement, encode, legalBytes, Command.wellFormed, Command.legal, Command.reservedZero,
    Command.opDefined, Command.notStatusXs, Command.operandsCanonical, Command.readsA, Command.readsB]
theorem realBetweenSm (lo hi : Word) : Statement (.realBetweenSm lo hi) := by
  simp [Statement, encode, legalBytes, Command.wellFormed, Command.legal, Command.reservedZero,
    Command.opDefined, Command.notStatusXs, Command.operandsCanonical, Command.readsA, Command.readsB]
theorem realBetweenXs (lo hi : Word) : Statement (.realBetweenXs lo hi) := by
  simp [Statement, encode, legalBytes, Command.wellFormed, Command.legal, Command.reservedZero,
    Command.opDefined, Command.notStatusXs, Command.operandsCanonical, Command.readsA, Command.readsB]
theorem minSm : Statement .minSm := by
  simp [Statement, encode, legalBytes, Command.wellFormed, Command.legal, Command.reservedZero,
    Command.opDefined, Command.notStatusXs, Command.operandsCanonical, Command.readsA, Command.readsB]
theorem minXs : Statement .minXs := by
  simp [Statement, encode, legalBytes, Command.wellFormed, Command.legal, Command.reservedZero,
    Command.opDefined, Command.notStatusXs, Command.operandsCanonical, Command.readsA, Command.readsB]
theorem maxSm : Statement .maxSm := by
  simp [Statement, encode, legalBytes, Command.wellFormed, Command.legal, Command.reservedZero,
    Command.opDefined, Command.notStatusXs, Command.operandsCanonical, Command.readsA, Command.readsB]
theorem maxXs : Statement .maxXs := by
  simp [Statement, encode, legalBytes, Command.wellFormed, Command.legal, Command.reservedZero,
    Command.opDefined, Command.notStatusXs, Command.operandsCanonical, Command.readsA, Command.readsB]
theorem stateRdSm (index : Word) : Statement (.stateRdSm index) := by
  simp [Statement, encode, legalBytes, Command.wellFormed, Command.legal, Command.reservedZero,
    Command.opDefined, Command.notStatusXs, Command.operandsCanonical, Command.readsA, Command.readsB]
theorem stateRdXs (index : Word) : Statement (.stateRdXs index) := by
  simp [Statement, encode, legalBytes, Command.wellFormed, Command.legal, Command.reservedZero,
    Command.opDefined, Command.notStatusXs, Command.operandsCanonical, Command.readsA, Command.readsB]
theorem status : Statement .status := by
  simp [Statement, encode, legalBytes, Command.wellFormed, Command.legal, Command.reservedZero,
    Command.opDefined, Command.notStatusXs, Command.operandsCanonical, Command.readsA, Command.readsB]

end Sys2Proof.Laws.Encoding
end

