-- ==== Sys2Proof/Tests/Slice0.lean ====
section
/-!
SUPPORT. Tests: the well-formedness smoke, decoding of words written out from 30_encoding.md R61 and R63, one step of each
command with the values of 95_test_vectors.md, and a witness for each statement that has hypotheses (`witness_…`).
-/

namespace Sys2Proof.Tests

open Sys2Proof.Machine

/-- Both engines seeded: SM with the counter 0, XS with the seed 0. -/
def seededState : State := { State.reset with sm := 0, xs := xsOfSeed 0, seeded := 0b11#2 }

/-- `seededState` with another counter. -/
def counterState (m : Word) : State := { seededState with sm := m }

/-- `s` with the command `(c, a, b)` outstanding. -/
def onCmd (c : BitVec 8) (a b : Word) (s : State) : State := { s with cmd := some ⟨c, a, b⟩ }

/-- The next state, if there is one. -/
def after : Result → Option State
  | .next t => some t
  | _ => none

/-- The response of one command. -/
def answer (i : Instr) (s : State) : Option Response := (after (exec i s)).bind fun t => t.rsp

/-- The responses of commands performed one after the other. -/
def answers (is : List Instr) (s : State) : Option (List Response) := (performAll is s).map fun p => p.1.map fun q => q.2

/-! ## Well-formed commands -/

theorem test_wf_good : (Command.wellFormed ⟨0x06#8, 1, 2⟩) = true := by decide
theorem test_wf_reserved_bits : Command.reservedZero ⟨0x20#8, 0, 0⟩ = false ∧ Command.wellFormed ⟨0x20#8, 0, 0⟩ = false := by
  decide
theorem test_wf_reserved_op : Command.opDefined ⟨0x0B#8, 0, 0⟩ = false ∧ Command.wellFormed ⟨0x0B#8, 0, 0⟩ = false := by
  decide
theorem test_wf_status_xs : Command.notStatusXs ⟨0x1A#8, 0, 0⟩ = false ∧ Command.wellFormed ⟨0x1A#8, 0, 0⟩ = false := by
  decide
theorem test_wf_operand_a : Command.operandsCanonical ⟨0x02#8, 1, 0⟩ = false ∧ Command.wellFormed ⟨0x02#8, 1, 0⟩ = false := by
  decide
theorem test_wf_operand_b : Command.operandsCanonical ⟨0x00#8, 1, 1⟩ = false ∧ Command.wellFormed ⟨0x00#8, 1, 1⟩ = false := by
  decide

/-! ## Decoding: the byte bit by bit as RSV (3 bits), ENG (1 bit), OP (4 bits) of R61 -/

theorem test_decode_seed (a b : Word) :
    decode ⟨0b000#3 ++ 0b0#1 ++ 0b0000#4, a, b⟩ = .ok (.seedSm a) ∧
    decode ⟨0b000#3 ++ 0b1#1 ++ 0b0000#4, a, b⟩ = .ok (.seedXs a) := ⟨rfl, rfl⟩
theorem test_decode_seedEnt (a b : Word) :
    decode ⟨0b000#3 ++ 0b0#1 ++ 0b0001#4, a, b⟩ = .ok .seedEntSm ∧
    decode ⟨0b000#3 ++ 0b1#1 ++ 0b0001#4, a, b⟩ = .ok .seedEntXs := ⟨rfl, rfl⟩
theorem test_decode_draw (a b : Word) :
    decode ⟨0b000#3 ++ 0b0#1 ++ 0b0010#4, a, b⟩ = .ok .drawSm ∧
    decode ⟨0b000#3 ++ 0b1#1 ++ 0b0010#4, a, b⟩ = .ok .drawXs := ⟨rfl, rfl⟩
theorem test_decode_bounded (a b : Word) :
    decode ⟨0b000#3 ++ 0b0#1 ++ 0b0011#4, a, b⟩ = .ok (.boundedSm a) ∧
    decode ⟨0b000#3 ++ 0b1#1 ++ 0b0011#4, a, b⟩ = .ok (.boundedXs a) := ⟨rfl, rfl⟩
theorem test_decode_boundedRej (a b : Word) :
    decode ⟨0b000#3 ++ 0b0#1 ++ 0b0100#4, a, b⟩ = .ok (.boundedRejSm a) ∧
    decode ⟨0b000#3 ++ 0b1#1 ++ 0b0100#4, a, b⟩ = .ok (.boundedRejXs a) := ⟨rfl, rfl⟩
theorem test_decode_real01 (a b : Word) :
    decode ⟨0b000#3 ++ 0b0#1 ++ 0b0101#4, a, b⟩ = .ok .real01Sm ∧
    decode ⟨0b000#3 ++ 0b1#1 ++ 0b0101#4, a, b⟩ = .ok .real01Xs := ⟨rfl, rfl⟩
theorem test_decode_realBetween (a b : Word) :
    decode ⟨0b000#3 ++ 0b0#1 ++ 0b0110#4, a, b⟩ = .ok (.realBetweenSm a b) ∧
    decode ⟨0b000#3 ++ 0b1#1 ++ 0b0110#4, a, b⟩ = .ok (.realBetweenXs a b) := ⟨rfl, rfl⟩
theorem test_decode_min (a b : Word) :
    decode ⟨0b000#3 ++ 0b0#1 ++ 0b0111#4, a, b⟩ = .ok .minSm ∧
    decode ⟨0b000#3 ++ 0b1#1 ++ 0b0111#4, a, b⟩ = .ok .minXs := ⟨rfl, rfl⟩
theorem test_decode_max (a b : Word) :
    decode ⟨0b000#3 ++ 0b0#1 ++ 0b1000#4, a, b⟩ = .ok .maxSm ∧
    decode ⟨0b000#3 ++ 0b1#1 ++ 0b1000#4, a, b⟩ = .ok .maxXs := ⟨rfl, rfl⟩
theorem test_decode_stateRd (a b : Word) :
    decode ⟨0b000#3 ++ 0b0#1 ++ 0b1001#4, a, b⟩ = .ok (.stateRdSm a) ∧
    decode ⟨0b000#3 ++ 0b1#1 ++ 0b1001#4, a, b⟩ = .ok (.stateRdXs a) := ⟨rfl, rfl⟩
theorem test_decode_status (a b : Word) :
    decode ⟨0b000#3 ++ 0b0#1 ++ 0b1010#4, a, b⟩ = .ok .status ∧
    decode ⟨0b000#3 ++ 0b1#1 ++ 0b1010#4, a, b⟩ = .error .statusOnXs := ⟨rfl, rfl⟩

/-- The refused bytes at the edges of R64's three cases. -/
theorem test_decode_rejects :
    decode ⟨0x0B#8, 0, 0⟩ = .error .reservedOp ∧ decode ⟨0x0F#8, 0, 0⟩ = .error .reservedOp ∧
    decode ⟨0x1B#8, 0, 0⟩ = .error .reservedOp ∧ decode ⟨0x1F#8, 0, 0⟩ = .error .reservedOp ∧
    decode ⟨0x20#8, 0, 0⟩ = .error .reservedBits ∧ decode ⟨0x80#8, 0, 0⟩ = .error .reservedBits ∧
    decode ⟨0xFF#8, 0, 0⟩ = .error .reservedBits := ⟨rfl, rfl, rfl, rfl, rfl, rfl, rfl⟩

/-- The encodings of program P3 in 95_test_vectors.md section 7. -/
theorem test_encode_demonstration :
    encode (.seedXs 123) = ⟨0x10#8, 0x7B#64, 0⟩ ∧ encode .real01Xs = ⟨0x15#8, 0, 0⟩ ∧
    encode (.boundedXs 32) = ⟨0x13#8, 0x20#64, 0⟩ ∧ encode .maxXs = ⟨0x18#8, 0, 0⟩ := by decide

/-- Bits above the table's 8 are 0, and with all 136 bits the operands follow the byte. -/
theorem test_table_word :
    decodeTableWord 8 0x16 = some (.realBetweenXs 0 0) ∧ decodeTableWord 8 0x1A = none ∧
    decodeTableWord 136 (0x06 + 5 * 2 ^ 8 + 7 * 2 ^ 72) = some (.realBetweenSm 5 7) := by decide

/-- The very next step from reset performs the placed command: DRAW.SM ends with NOT_SEEDED (95_test_vectors.md section 6). -/
theorem test_fetch_draw : (after (step (State.reset.withFetchWord 8 0x02))).map (fun t => (t.rsp, t.err)) =
    some (some ⟨2#4, 0⟩, 0x04#8) := by decide

/-- A placed SEED_ENT finds an answer, so that it is performed (log entry 13). -/
theorem test_fetch_seedEnt : (after (step (State.reset.withFetchWord 8 0x11))).map (fun t => (t.seeded, t.xs)) =
    some (0b10#2, xsOfSeed 0) := by decide

/-! ## The assembler (30_encoding.md R68) -/

theorem test_assemble_integer : assemble "BOUNDED.SM 32".toList = some ⟨0x03#8, 0x20#64, 0⟩ ∧
    assemble "SEED.XS 0x7b".toList = some ⟨0x10#8, 0x7B#64, 0⟩ ∧ assemble "SEED.XS 0x10000000000000000".toList = none := by
  decide
theorem test_assemble_decimal : floatOperand "2.0".toList = some 0x4000000000000000#64 ∧
    floatOperand "7.0".toList = some 0x401C000000000000#64 ∧ floatOperand "0.5".toList = some 0x3FE0000000000000#64 ∧
    floatOperand "-1.0".toList = some 0xBFF0000000000000#64 ∧ floatOperand "2".toList = none := by decide +kernel
/-- 0.99999999999999978 is the largest REAL01 (95_test_vectors.md section 1.5). -/
theorem test_assemble_rounds : floatOperand "0.99999999999999978".toList = some 0x3FEFFFFFFFFFFFFE#64 ∧
    floatOperand "2.6499324246409275".toList = some 0x4005330FC5638ACA#64 ∧
    floatOperand "0.03782633169793970".toList = some 0x3FA35DF91323FE40#64 := by decide +kernel
theorem test_text : textOf (.seedXs 0x7B#64) = "SEED.XS 0x000000000000007b".toList := by decide

theorem witness_DecimalLiteral_digits :
    ∃ whole frac n, (∀ c ∈ whole, c ≠ '.') ∧ readNumber 10 (whole ++ frac) = some n ∧ n = 20 :=
  ⟨['2'], ['0'], _, by simp, rfl, by decide⟩

theorem witness_DecimalLiteral_signs :
    floatOperand ('-' :: "1.0".toList) = some 0xBFF0000000000000#64 ∧
    "1.0".toList.head? ≠ some '-' ∧ "1.0".toList.head? ≠ some 'f' := by decide +kernel

/-- A negative tie: the even neighbour of -(2^53 + 1) is -(2^53). -/
theorem witness_DecimalLiteralIsNearest_negative :
    f64OfRatio true 9007199254740993 1 = 0xC340000000000000#64 ∧ f64Finite 0xC340000000000000#64 = true ∧
    f64Finite 0xC340000000000001#64 = true := by decide +kernel

/-- A literal whose value is a tie: 2^53 + 1 lies halfway between 2^53 and 2^53 + 2. -/
theorem witness_DecimalLiteralIsNearest :
    readNumber 10 ("9007199254740993".toList ++ "0".toList) = some 90071992547409930 ∧
    floatOperand "9007199254740993.0".toList = some 0x4340000000000000#64 ∧
    f64OfRatio false 90071992547409930 10 = 0x4340000000000000#64 ∧
    f64Finite 0x4340000000000000#64 = true ∧ f64Finite 0x4340000000000001#64 = true := by decide +kernel

/-! ## Seeding and drawing (95_test_vectors.md sections 1 to 3) -/

theorem test_mix64_stages : mix64 1 = 0x5692161D100B05E5#64 ∧ mix64 0x8000000000000000#64 = 0x25C26EA579CEA98A#64 ∧
    mix64 0xFFFFFFFFFFFFFFFF#64 = 0xB4D055FCF2CBBD7B#64 := by decide
theorem test_seedSm : (after (exec (.seedSm 5) { State.reset with err := 0x04#8 })).map (fun t => (t.sm, t.seeded, t.rsp, t.err)) =
    some (5#64, 0b01#2, some ⟨0#4, 0⟩, 0x04#8) := by decide
/-- Scenario B. -/
theorem test_seedXs : (after (exec (.seedXs 0) State.reset)).map (fun t => (t.xs, t.seeded)) =
    some (⟨0xE220A8397B1DCDAF#64, 0x6E789E6AA1B965F4#64, 0x06C45D188009454F#64, 0xF88BB8A8724C81EC#64⟩, 0b10#2) := by decide
/-- Scenario E's state, with SM untouched. -/
theorem test_seedXs_42 : (after (exec (.seedXs 42) (counterState 9))).map (fun t => (t.xs, t.sm)) =
    some (⟨0xBDD732262FEB6E95#64, 0x28EFE333B266F103#64, 0x47526757130F9F52#64, 0x581CE1FF0E4AE394#64⟩, 9#64) := by decide
/-- Program P6, command 0. -/
theorem test_seedEntSm_word :
    (after (exec .seedEntSm { State.reset with ent := [.word 0x9E3779B97F4A7C15#64, .word 0] })).map
      (fun t => (t.sm, t.seeded, t.ent)) = some (0x9E3779B97F4A7C15#64, 0b01#2, [.word 0]) := by decide
/-- Program P4, command 12. -/
theorem test_seedEntSm_fail : (after (exec .seedEntSm { counterState 7 with ent := [.fail] })).map
    (fun t => (t.sm, t.rsp, t.err, t.ent)) = some (7#64, some ⟨5#4, 0⟩, 0x20#8, []) := by decide
/-- Program P6, command 2. -/
theorem test_seedEntXs_word : (after (exec .seedEntXs { State.reset with ent := [.word 0] })).map (fun t => (t.xs.s0, t.seeded)) =
    some (0xE220A8397B1DCDAF#64, 0b10#2) := by decide
theorem test_seedEntXs_waits : after (exec .seedEntXs (onCmd 0x11#8 0 0 State.reset)) = some (onCmd 0x11#8 0 0 State.reset) := by
  decide
theorem test_drawSm_wraps : (after (exec .drawSm (counterState 0xFFFFFFFFFFFFFFFF#64))).map (fun t => (t.sm, t.rsp)) =
    some (0x9E3779B97F4A7C14#64, some ⟨0#4, 0xE4D971771B652C20#64⟩) := by decide
theorem test_drawSm_zero : answer .drawSm (counterState 0x61C8864680B583EB#64) = some ⟨0#4, 0⟩ := by decide
/-- The first draw after SEED.XS 0 (section 3.4). -/
theorem test_drawXs : (after (exec .drawXs seededState)).map (fun t => (t.rsp, t.xs)) =
    some (some ⟨0#4, 0x99EC5F36CB75F2B4#64⟩,
      ⟨0x74D38EFBA8E829B7#64, 0x8A9C6B4B5AADED14#64, 0xD831B65330FC88E0#64, 0xBC8312DE64D85A7E#64⟩) := by decide
/-- Scenario C, with the value of section 3.3. -/
theorem test_drawXs_123 : answers [.seedXs 123, .drawXs] State.reset = some [⟨0#4, 0⟩, ⟨0#4, 0x325A8FA1D1A069F9#64⟩] := by decide

/-! ## Bounded integers and bounds (95_test_vectors.md section 4) -/

theorem test_mulhi : mulhi 3 0x5555555555555555#64 = 0 ∧ mulhi 3 0x5555555555555556#64 = 1 ∧
    mulhi 0x100000000#64 0x0123456789ABCDEF#64 = 0x01234567#64 ∧ mulhi 100 0x6E789E6AA1B965F4#64 = 43 := by decide
theorem test_boundedSm : (after (exec (.boundedSm 10) seededState)).map (fun t => (t.rsp, t.sm)) =
    some (some ⟨0#4, 8⟩, 0x9E3779B97F4A7C15#64) := by decide
theorem test_boundedSm_zero : (after (exec (.boundedSm 0) seededState)).map (fun t => (t.rsp, t.sm, t.err)) =
    some (some ⟨3#4, 0⟩, 0#64, 0x08#8) := by decide
/-- Program P3, the first pair: the second draw is answered under 32. -/
theorem test_boundedXs : answers [.seedXs 123, .real01Xs, .boundedXs 32] State.reset =
    some [⟨0#4, 0⟩, ⟨0#4, 0x3FC92D47D0E8D030#64⟩, ⟨0#4, 31⟩] := by decide +kernel
theorem test_boundedXs_unseeded : answer (.boundedXs 0) State.reset = some ⟨2#4, 0⟩ := by decide
/-- Two draws: 0 is rejected under the bound 3 (section 4.3). -/
theorem test_boundedRejSm : (after (exec (.boundedRejSm 3) (counterState 0x61C8864680B583EB#64))).map (fun t => (t.rsp, t.sm)) =
    some (some ⟨0#4, 1⟩, 0x9E3779B97F4A7C15#64) := by decide
/-- The two algorithms differ (section 4.3). -/
theorem test_boundedRejSm_differs : answer (.boundedRejSm 10) seededState = some ⟨0#4, 5⟩ := by decide
/-- Program P5: three words rejected, the fourth accepted. -/
theorem test_boundedRejXs : (after (exec (.boundedRejXs 0x8000000000000001#64) { seededState with xs := xsOfSeed 9 })).map
    (fun t => (t.rsp, t.xs.s0)) = some (some ⟨0#4, 0x3B91DCA2EDEE4C4B#64⟩, 0x0EDDC53AA41AF97A#64) := by decide
theorem test_boundedRejXs_zero : answer (.boundedRejXs 0) seededState = some ⟨3#4, 0⟩ := by decide
theorem test_min : answer .minSm State.reset = some ⟨0#4, 0⟩ ∧ answer .minXs seededState = some ⟨0#4, 0⟩ := by decide
theorem test_max : answer .maxSm State.reset = some ⟨0#4, 0xFFFFFFFFFFFFFFFF#64⟩ ∧
    answer .maxXs seededState = some ⟨0#4, 0xFFFFFFFFFFFFFFFF#64⟩ := by decide

/-! ## Binary64 conversions (95_test_vectors.md sections 1.5 and 5) -/

theorem test_real01Sm_max : answer .real01Sm (counterState 0x31628AF67B2131AB#64) = some ⟨0#4, 0x3FEFFFFFFFFFFFFE#64⟩ := by
  decide +kernel
theorem test_real01Sm_zero : answer .real01Sm (counterState 0x61C8864680B583EB#64) = some ⟨0#4, 0⟩ := by decide +kernel
theorem test_real01Xs : answer .real01Xs seededState = some ⟨0#4, 0x3FE33D8BE6D96EBE#64⟩ := by decide +kernel
theorem test_real01_bits : real01Bits 0xFFF#64 = 0 ∧ real01Bits 0x1000#64 = 0x3CB0000000000000#64 ∧
    real01Bits 0x3000#64 = 0x3CC8000000000000#64 := by decide +kernel
theorem test_realBetweenSm : answer (.realBetweenSm 0x4000000000000000#64 0x4014000000000000#64) seededState =
    some ⟨0#4, 0x4005330FC5638ACA#64⟩ := by decide +kernel
theorem test_realBetweenSm_inf : (after (exec (.realBetweenSm 0x3FF0000000000000#64 0x7FF0000000000000#64) seededState)).map
    (fun t => (t.rsp, t.sm, t.err)) = some (some ⟨4#4, 0⟩, 0#64, 0x10#8) := by decide +kernel
theorem test_realBetweenXs : answer (.realBetweenXs 0x4000000000000000#64 0x4014000000000000#64) seededState =
    some ⟨0#4, 0x3FFCDC51DA46261D#64⟩ := by decide +kernel
theorem test_realBetweenXs_nan : answer (.realBetweenXs 0 0x7FF0000000000001#64) seededState = some ⟨4#4, 0⟩ := by decide +kernel
theorem test_realBetween_corners :
    realBetweenBits 0xFFEFFFFFFFFFFFFF#64 0x7FEFFFFFFFFFFFFF#64 0 = 0x7FF8000000000000#64 ∧
    realBetweenBits 0xFFEFFFFFFFFFFFFF#64 0x7FEFFFFFFFFFFFFF#64 0x8000000000000000#64 = 0x7FF0000000000000#64 ∧
    realBetweenBits 0 1 0x8000000000000000#64 = 0 ∧ realBetweenBits 0 1 0x8000000000001000#64 = 1 ∧
    realBetweenBits 0 0x8000000000000000#64 0xFFFFFFFFFFFFFFFF#64 = 0x8000000000000000#64 := by decide +kernel
theorem test_realBetween_reversed :
    realBetweenBits 0x4014000000000000#64 0x4000000000000000#64 0xE220A8397B1DCDAF#64 = 0xC005330FC5638ACA#64 ∧
    realBetweenBits 0x3FF0000000000000#64 0 0 = 0x8000000000000000#64 ∧
    realBetweenBits 0xBFF0000000000000#64 0x3FF0000000000000#64 0xFFFFFFFFFFFFFFFF#64 = 0x3FFFFFFFFFFFFFFE#64 := by
  decide +kernel

/-! ## Reads, status and errors (95_test_vectors.md sections 2 to 6) -/

theorem test_stateRdSm : answer (.stateRdSm 0) (counterState 42) = some ⟨0#4, 42⟩ := by decide
theorem test_stateRdSm_index : answer (.stateRdSm 1) seededState = some ⟨6#4, 0⟩ := by decide
theorem test_stateRdXs : answer (.stateRdXs 2) seededState = some ⟨0#4, 0x06C45D188009454F#64⟩ ∧
    answer (.stateRdXs 3) seededState = some ⟨0#4, 0xF88BB8A8724C81EC#64⟩ := by decide
theorem test_stateRdXs_index : answer (.stateRdXs 4) seededState = some ⟨6#4, 0⟩ ∧
    answer (.stateRdXs 0x100000000#64) seededState = some ⟨6#4, 0⟩ := by decide
theorem test_status : answer .status { State.reset with seeded := 0b01#2, err := 0x04#8 } = some ⟨0#4, 0x401#64⟩ := by decide
/-- The last command of program P4. -/
theorem test_status_all : answer .status { State.reset with seeded := 0b01#2, err := 0x7E#8 } = some ⟨0#4, 0x7E01#64⟩ := by decide
theorem test_illegal : (after (step (onCmd 0x1A#8 0 0 seededState))).map (fun t => (t.rsp, t.err, t.cmd)) =
    some (some ⟨1#4, 0⟩, 0x02#8, none) := by decide

/-! ## The rejection loop that never ends (42_bounded.md R125, U18) -/

/-- A state no run reaches: XS seeded and all-zero, so that every draw is 0. -/
def zeroXsState : State := { State.reset with seeded := 0b10#2 }

theorem exec_zeroXs {s : State} (h : seededBit .xs s = true) (hd : ∀ k, drawnWord .xs k s = 0) :
    exec (.boundedRejXs 3) s = .fault .rejFuelExhausted := by
  have hl : rejLoop .xs 3 Config.rejFuel s = none := by
    rw [rejLoop_eq_none_iff]
    intro k _
    rw [hd k]
    decide
  show boundedRej .xs 3 s = _
  unfold boundedRej
  rw [ifSeeded_of_seeded _ h, ifBound_of_ne _ (by decide), hl]

theorem test_endless_loop : exec (.boundedRejXs 3) zeroXsState = .fault .rejFuelExhausted := by
  refine exec_zeroXs rfl fun k => ?_
  unfold drawnWord
  induction k with
  | zero => decide
  | succ k ih => exact ih

/-! ## Witnesses: concrete states and operands that meet a statement's hypotheses, clause by clause -/

theorem witness_StepPerformsDecodedCommand :
    (∃ s k i, s.cmd = some k ∧ s.rsp = none ∧ decode k = .ok i ∧ holds i s = false) ∧
    (∃ (s : State) (k : Command) (r : Reject), s.cmd = some k ∧ s.rsp = none ∧ decode k = .error r) ∧
    (∃ s k i, s.cmd = some k ∧ s.rsp = none ∧ decode k = .ok i ∧ holds i s = true) ∧
    (∃ s : State, s.cmd = none) ∧ (∃ s : State, s.rsp ≠ none) :=
  ⟨⟨onCmd 0x02#8 0 0 seededState, _, _, rfl, rfl, rfl, rfl⟩, ⟨onCmd 0xFF#8 0 0 seededState, _, _, rfl, rfl, rfl⟩,
    ⟨onCmd 0x01#8 0 0 seededState, _, _, rfl, rfl, rfl, rfl⟩, ⟨State.reset, rfl⟩,
    ⟨{ State.reset with rsp := some ⟨0, 0⟩ }, by decide⟩⟩

theorem witness_DecodeAndEncodeAgree :
    decode ⟨0x19#8, 3, 9⟩ = .ok (.stateRdXs 3) ∧ encode (.stateRdXs 3) = ⟨0x19#8, 3, 0⟩ := ⟨rfl, rfl⟩

theorem witness_IllegalBytesAreExactlyThree :
    ∃ (s : State) (k : Command) (r : Reject), s.cmd = some k ∧ s.rsp = none ∧ decode k = .error r :=
  ⟨onCmd 0x0B#8 0 0 State.reset, _, _, rfl, rfl, rfl⟩

theorem witness_IgnoredOperandsHaveNoEffect :
    ∃ k k' : Command, k ≠ k' ∧ k.byte = k'.byte ∧ (k.readsA = true → k.a = k'.a) ∧ (k.readsB = true → k.b = k'.b) ∧
      ∃ s : State, s.rsp = none ∧ blockHolds { s with cmd := some k } = false :=
  ⟨⟨0x18#8, 5, 7⟩, ⟨0x18#8, 0, 0⟩, by decide, rfl, by decide, by decide, seededState, rfl, rfl⟩

theorem witness_IgnoredOperandsHaveNoEffect_encode :
    ∃ i j, (encode i).readsA = false ∧ (encode j).readsB = false := ⟨.drawSm, .seedSm 5, rfl, rfl⟩

theorem witness_OneCommandOutstanding :
    (∃ (s : State) (k : Command) (rest : List HostAct), s.host = .send k :: rest ∧ s.cmd = none ∧ s.rsp = none) ∧
    (∃ (s : State) (k : Command) (rest : List HostAct) (r : Response), s.host = .send k :: rest ∧ s.rsp = some r) ∧
    (∃ (s : State) (k : Command) (rest : List HostAct), s.host = .send k :: rest ∧ s.rsp = none ∧ blockHolds s = true) ∧
    (∃ (s : State) (r : Response) (rest : List HostAct), s.host = .take :: rest ∧ s.rsp = some r) :=
  ⟨⟨{ State.reset with host := [.send ⟨0x02#8, 0, 0⟩] }, _, _, rfl, rfl, rfl⟩,
    ⟨{ State.reset with host := [.send ⟨0x02#8, 0, 0⟩], rsp := some ⟨0, 1⟩ }, _, _, _, rfl, rfl⟩,
    ⟨onCmd 0x11#8 0 0 { State.reset with host := [.send ⟨0x02#8, 0, 0⟩], ent := [.silent] }, _, _, rfl, rfl, rfl⟩,
    ⟨{ State.reset with host := [.take], rsp := some ⟨0, 1⟩ }, _, _, rfl, rfl⟩⟩

theorem witness_OneCommandOutstanding_stuck : ∃ (s : State) (r : Response), s.host = [] ∧ s.rsp = some r :=
  ⟨{ State.reset with rsp := some ⟨0, 1⟩ }, _, rfl, rfl⟩

theorem witness_EveryCommandAnswersOnce :
    ∃ s k t, s.cmd = some k ∧ s.rsp = none ∧ blockHolds s = false ∧ step s = .next t ∧ k.byte = 0x00#8 :=
  ⟨onCmd 0x00#8 5 0 State.reset, _, _, rfl, rfl, rfl, rfl, rfl⟩

theorem witness_EveryCommandAnswersOnce_error :
    ∃ s k t r, s.cmd = some k ∧ s.rsp = none ∧ blockHolds s = false ∧ step s = .next t ∧ t.rsp = some r ∧ r.status ≠ 0 :=
  ⟨onCmd 0x02#8 0 0 State.reset, _, _, _, rfl, rfl, rfl, rfl, rfl, by decide⟩

theorem witness_FaultsExactlyInEndlessLoops :
    (∃ s : State, s.seeded.getLsbD 0 = true) ∧ (3 : Word) ≠ 0 ∧ zeroXsState.seeded.getLsbD 1 = true ∧
    exec (.boundedRejXs 3) zeroXsState = .fault .rejFuelExhausted :=
  ⟨⟨seededState, rfl⟩, by decide, rfl, test_endless_loop⟩

theorem witness_HostResetClearsStatus :
    (∃ s : State, ∃ k later, s.host = .reset :: .send k :: later ∧ s.cmd = none) ∧
    (∃ s : State, ∃ rest, s.host = .reset :: rest ∧ s.rsp ≠ none) ∧
    (∃ s : State, ∃ rest, s.host = .reset :: rest ∧ blockHolds s = true) :=
  ⟨⟨{ seededState with host := [.reset, .send ⟨0x02#8, 0, 0⟩] }, _, _, rfl, rfl⟩,
    ⟨{ seededState with host := [.reset], rsp := some ⟨1, 0⟩, err := 0x02#8 }, _, rfl, by decide⟩,
    ⟨onCmd 0x01#8 0 0 { seededState with host := [.reset] }, _, rfl, rfl⟩⟩

/-- The stages of 95_test_vectors.md section 2.1 for `z = 1`, before and after each shift. -/
theorem witness_Mix64Transform :
    ∃ z z1 z2 : Word, z1 = 0xBF58476D1CE4E5B9#64 * (z ^^^ (z >>> 30)) ∧ z2 = 0x94D049BB133111EB#64 * (z1 ^^^ (z1 >>> 27)) ∧
      z1 = 0xBF58476D1CE4E5B9#64 ∧ z2 = 0x5692161DBD2F29DE#64 :=
  ⟨1, 0xBF58476D1CE4E5B9#64, 0x5692161DBD2F29DE#64, by decide⟩

theorem witness_DrawSm_seeded : seededState.seeded.getLsbD 0 = true ∧ State.reset.seeded.getLsbD 0 = false := by decide

theorem witness_DrawXs_seeded : seededState.seeded.getLsbD 1 = true ∧ State.reset.seeded.getLsbD 1 = false := by decide

theorem witness_SeedSmWritesCounter : ∃ s w t, exec (.seedSm w) s = .next t := ⟨State.reset, 0xFFFFFFFFFFFFFFFF#64, _, rfl⟩

theorem witness_SeedEntSmTakesOneWord :
    (∃ s t rest, s.ent = .word 0x61C8864680B583EB#64 :: rest ∧ exec .seedEntSm s = .next t) ∧
    (∃ s : State, ∃ rest, s.ent = .fail :: rest) ∧ (∃ s : State, s.ent = []) ∧ (∃ s : State, ∃ rest, s.ent = .silent :: rest) :=
  ⟨⟨{ State.reset with ent := [.word 0x61C8864680B583EB#64, .fail] }, _, _, rfl, rfl⟩,
    ⟨{ State.reset with ent := [.fail] }, _, rfl⟩, ⟨State.reset, rfl⟩, ⟨{ State.reset with ent := [.silent] }, _, rfl⟩⟩

theorem witness_StateRdSmReadsCounter :
    (∃ (s : State) (a : Word), s.seeded.getLsbD 0 = true ∧ a ≠ 0) ∧ (∃ s w t, exec (.seedSm w) s = .next t) ∧
    (∃ s t, s.seeded.getLsbD 0 = true ∧ exec .drawSm s = .next t) :=
  ⟨⟨seededState, 0x8000000000000000#64, rfl, by decide⟩, ⟨State.reset, 5, _, rfl⟩, ⟨seededState, _, rfl, rfl⟩⟩

theorem witness_SmDrawsDependOnSeedAlone :
    ∃ s w t is rs u, exec (.seedSm w) s = .next t ∧ (∀ i ∈ is, i = .drawSm ∨ usesSm i = false) ∧
      performAll is t = some (rs, u) ∧ is.count .drawSm = 2 :=
  ⟨State.reset, 0, _, [.drawSm, .drawXs, .stateRdSm 0, .drawSm], _, _, rfl, by decide, rfl, by decide⟩

theorem witness_DrawXsAnswersThenAdvances :
    (⟨0, 0, 0, 1⟩ : XsWords) ≠ ⟨0, 0, 0, 0⟩ ∧ ∃ s t, exec (.seedXs 123) s = .next t :=
  ⟨by decide, State.reset, _, rfl⟩

theorem witness_XsOutScrambler : ∃ s : State, s.seeded.getLsbD 1 = true := ⟨seededState, rfl⟩

theorem witness_SeedXsFillsFourWords :
    (∃ w t1 t2 t3 t4 : Word, t1 = 0x9E3779B97F4A7C15#64 + w ∧ t2 = 0x9E3779B97F4A7C15#64 + t1 ∧
      t3 = 0x9E3779B97F4A7C15#64 + t2 ∧ t4 = 0x9E3779B97F4A7C15#64 + t3 ∧ t4 = 0x78DDE6E5FD29F054#64) ∧
    (∃ s w t, exec (.seedXs w) s = .next t) ∧ (∃ s t, exec (.seedXs 0) s = .next t) :=
  ⟨⟨0, _, _, _, _, rfl, rfl, rfl, rfl, by decide⟩, ⟨State.reset, 123, _, rfl⟩, ⟨seededState, _, rfl⟩⟩

theorem witness_SeedEntXsTakesOneWord :
    (∃ s s' rest t t', s.ent = .word 0 :: rest ∧ exec .seedEntXs s = .next t ∧ exec (.seedXs 0) s' = .next t') ∧
    (∃ s : State, ∃ rest, s.ent = .fail :: rest) ∧ (∃ s : State, s.ent = []) ∧ (∃ s : State, ∃ rest, s.ent = .silent :: rest) :=
  ⟨⟨{ State.reset with ent := [.word 0] }, State.reset, _, _, _, rfl, rfl, rfl⟩,
    ⟨{ State.reset with ent := [.fail] }, _, rfl⟩, ⟨State.reset, rfl⟩, ⟨{ State.reset with ent := [.silent] }, _, rfl⟩⟩

theorem witness_StateRdXsReadsOneWord :
    (∃ (s : State) (a : Word), s.seeded.getLsbD 1 = true ∧ 3 < a.toNat ∧ a = 4) ∧ (∃ s t, exec (.seedXs 0) s = .next t) :=
  ⟨⟨seededState, 4, by decide, by decide, rfl⟩, ⟨State.reset, _, rfl⟩⟩

/-- The seed whose first SplitMix64 output is 0: one of the four words is then 0. -/
theorem witness_XsStateNeverAllZero :
    (xsOfSeed 0x61C8864680B583EB#64).s0 = 0 ∧ (xsOfSeed 0xC3910C8D016B07D6#64).s1 = 0 ∧
    (xsOfSeed 0x255992D382208BC1#64).s2 = 0 := by decide

theorem witness_XsDrawsDependOnSeedAlone :
    ∃ s w t is rs u, exec (.seedXs w) s = .next t ∧ (∀ i ∈ is, i = .drawXs ∨ usesXs i = false) ∧
      performAll is t = some (rs, u) ∧ is.count .drawXs = 2 :=
  ⟨State.reset, 123, _, [.drawXs, .drawSm, .stateRdXs 0, .drawXs], _, _, rfl, by decide, rfl, by decide⟩

theorem witness_BoundedIsWideMultiply :
    ∃ (s : State) (n w w' : Word), s.seeded.getLsbD 0 = true ∧ s.seeded.getLsbD 1 = true ∧ n ≠ 0 ∧
      w = mix64 (0x9E3779B97F4A7C15#64 + s.sm) ∧ w' = xsOut s.xs.s1 :=
  ⟨seededState, 1, _, _, rfl, rfl, by decide, rfl, rfl⟩

theorem witness_BoundedRangeAndBias :
    ∃ (n : Word) (r : Nat), n ≠ 0 ∧ r < n.toNat ∧ n = 0xFFFFFFFFFFFFFFFF#64 :=
  ⟨0xFFFFFFFFFFFFFFFF#64, 0xFFFFFFFFFFFFFFFE, by decide, by decide, rfl⟩

theorem witness_ThresholdIsTwoTo64ModN : (0x8000000000000001#64 : Word) ≠ 0 := by decide

theorem witness_RejectionIsUniform : ∃ (n : Word) (r : Nat), n ≠ 0 ∧ r < n.toNat := ⟨1, 0, by decide, by decide⟩

/-- The two draws of 95_test_vectors.md section 4.3: the first rejected, the second accepted. -/
theorem witness_BoundedRejDrawsUntilAccepted_sm :
    ∃ (s : State) (n w : Word) (k : Nat), s.seeded.getLsbD 0 = true ∧ n ≠ 0 ∧ k = 1 ∧
      (∀ j < k, mix64 (0x9E3779B97F4A7C15#64 * BitVec.ofNat 64 (j + 1) + s.sm) < (0 - n) % n) ∧
      w = mix64 (0x9E3779B97F4A7C15#64 * BitVec.ofNat 64 (k + 1) + s.sm) ∧ (0 - n) % n ≤ w :=
  ⟨counterState 0x61C8864680B583EB#64, 3, 0xE220A8397B1DCDAF#64, 1, by decide⟩

/-- The four draws of program P5: three rejected, the fourth accepted. -/
theorem witness_BoundedRejDrawsUntilAccepted_xs :
    ∃ (s : State) (n w : Word) (k : Nat), s.seeded.getLsbD 1 = true ∧ n ≠ 0 ∧ k = 3 ∧
      (∀ j < k, xsOut (xsNext^[j] s.xs).s1 < (0 - n) % n) ∧ w = xsOut (xsNext^[k] s.xs).s1 ∧ (0 - n) % n ≤ w :=
  ⟨{ seededState with xs := xsOfSeed 9 }, 0x8000000000000001#64, 0xBB91DCA2EDEE4C4C#64, 3, by decide⟩

theorem witness_BoundedRejDrawsUntilAccepted_two_draws :
    ∃ s : State, s.seeded.getLsbD 0 = true ∧ s.sm = 0x61C8864680B583EB#64 :=
  ⟨counterState 0x61C8864680B583EB#64, by decide⟩

theorem witness_BoundedRejSmTerminates : ∃ (s : State) (n : Word), s.seeded.getLsbD 0 = true ∧ n ≠ 0 :=
  ⟨seededState, 0xFFFFFFFFFFFFFFFF#64, by decide⟩

theorem witness_Real01AnswersConversion : real01Bits 0x1000#64 ≠ 0 := by decide +kernel

theorem witness_Real01ClosedForm : ∃ (w : Word) (m p : Nat), m = w.toNat / 2 ^ 12 ∧ p = m.log2 ∧ m ≠ 0 ∧ p = 51 :=
  ⟨0xFFFFFFFFFFFFFFFF#64, 2 ^ 52 - 1, 51, by decide +kernel⟩

theorem witness_RealBetweenScalesOnly :
    (∃ (s : State) (lo hi x x' : Word), s.seeded.getLsbD 0 = true ∧ s.seeded.getLsbD 1 = true ∧
      lo.extractLsb' 52 11 ≠ 0x7FF#11 ∧ hi.extractLsb' 52 11 ≠ 0x7FF#11 ∧
      x = f64Mul (f64Sub hi lo) (real01Bits (mix64 (0x9E3779B97F4A7C15#64 + s.sm))) ∧
      x' = f64Mul (f64Sub hi lo) (real01Bits (xsOut s.xs.s1))) ∧
    (0xFFF0000000000000#64 : Word).extractLsb' 52 11 = 0x7FF#11 ∧ (0x7FF0000000000001#64 : Word).extractLsb' 52 11 = 0x7FF#11 :=
  ⟨⟨seededState, 0x4000000000000000#64, 0x7FEFFFFFFFFFFFFF#64, _, _, rfl, rfl, by decide, by decide, rfl, rfl⟩,
    by decide, by decide⟩

theorem witness_RealBetweenScalesOnly_example : ∃ s : State, s.seeded.getLsbD 0 = true ∧ s.sm = 0 := ⟨seededState, rfl, rfl⟩

/-- A tie between the subnormals 0 and 1, and a difference that overflows. -/
theorem witness_SubAndMulRoundToNearestEven :
    (f64Finite 1 = true ∧ f64Finite 0x3FE0000000000000#64 = true ∧ f64Mul 1 0x3FE0000000000000#64 = 0 ∧
      (f64Value 0 * 2 ^ 1074 - f64Value 1 * f64Value 0x3FE0000000000000#64).natAbs =
        (f64Value 1 * 2 ^ 1074 - f64Value 1 * f64Value 0x3FE0000000000000#64).natAbs ∧ f64Value 1 ≠ f64Value 0) ∧
    (f64Finite 0x7FEFFFFFFFFFFFFF#64 = true ∧ f64Finite 0xFFEFFFFFFFFFFFFF#64 = true ∧
      isInf (f64Sub 0x7FEFFFFFFFFFFFFF#64 0xFFEFFFFFFFFFFFFF#64) = true ∧
      f64Value 0x7FEFFFFFFFFFFFFF#64 ≠ f64Value 0xFFEFFFFFFFFFFFFF#64) ∧
    (f64Value 0x8000000000000000#64 = f64Value 0 ∧ f64Sub 0x8000000000000000#64 0 = 0x8000000000000000#64) := by
  decide +kernel

/-- A tie of the subtraction: 2^53 - (-1) is halfway between 2^53 and 2^53 + 2. -/
theorem witness_SubRoundsTieToEven :
    f64Sub 0x4340000000000000#64 0xBFF0000000000000#64 = 0x4340000000000000#64 ∧
    (f64Value 0x4340000000000000#64 - (f64Value 0x4340000000000000#64 - f64Value 0xBFF0000000000000#64)).natAbs =
      (f64Value 0x4340000000000001#64 - (f64Value 0x4340000000000000#64 - f64Value 0xBFF0000000000000#64)).natAbs := by
  decide +kernel

theorem witness_RealBetweenNaNOnlyOnOverflow :
    f64Finite 0xFFEFFFFFFFFFFFFF#64 = true ∧ f64Finite 0x7FEFFFFFFFFFFFFF#64 = true ∧
    isNaN (realBetweenBits 0xFFEFFFFFFFFFFFFF#64 0x7FEFFFFFFFFFFFFF#64 0xFFF#64) = true ∧
    isNaN (realBetweenBits 0xFFEFFFFFFFFFFFFF#64 0x7FEFFFFFFFFFFFFF#64 0x1000#64) = false := by decide +kernel

theorem witness_RealBetweenCornerCases :
    (f64Finite 0x3FF0000000000000#64 = true ∧ f64Finite 0 = true ∧ f64Value 0 < f64Value 0x3FF0000000000000#64 ∧
      isNaN (realBetweenBits 0x3FF0000000000000#64 0 0) = false ∧ isInf (f64Sub 0 0x3FF0000000000000#64) = false ∧
      isInf (f64Sub 0x3FF0000000000000#64 0) = false ∧ (0xFFF#64 : Word).toNat < 2 ^ 12) ∧
    (isInf (f64Sub 0x7FEFFFFFFFFFFFFF#64 0xFFEFFFFFFFFFFFFF#64) = true ∧ 2 ^ 12 ≤ (0x1000#64 : Word).toNat) := by
  decide +kernel

theorem witness_StatusReadsErrAndSeeded :
    (∃ s t u, exec .status s = .next t ∧ exec .status t = .next u) ∧
    (∃ s : State, s.seeded = 0 ∧ s.err = 0) :=
  ⟨⟨seededState, _, _, rfl, rfl⟩, ⟨State.reset, rfl, rfl⟩⟩

theorem witness_UnseededEngineIsNotRead :
    (∃ s t : State, s.seeded.getLsbD 0 = false ∧ s.seeded.getLsbD 1 = false ∧
      t = { s with cmd := none, rsp := some ⟨2#4, 0⟩, err := s.err ||| 0x04#8 }) ∧
    (∃ s t r w i, i ∈ [.seedSm w, .seedXs w, .seedEntSm, .seedEntXs, .minSm, .minXs, .maxSm, .maxXs, Instr.status] ∧
      s.rsp = none ∧ exec i s = .next t ∧ t.rsp = some r) :=
  ⟨⟨State.reset, _, rfl, rfl, rfl⟩, ⟨State.reset, _, _, 0, .maxXs, by decide, rfl, rfl, rfl⟩⟩

theorem witness_ErrorsChangeOnlyTheirBit :
    (∃ s k t S d, s.cmd = some k ∧ s.rsp = none ∧ step s = .next t ∧ t.rsp = some ⟨S, d⟩ ∧ S ≠ 0 ∧
      ∃ k' rest, s.host = .take :: .send k' :: rest) ∧
    (∃ s k t d, s.cmd = some k ∧ s.rsp = none ∧ step s = .next t ∧ t.rsp = some ⟨5#4, d⟩) :=
  ⟨⟨onCmd 0x03#8 0 0 { seededState with host := [.take, .send ⟨0x0A#8, 0, 0⟩] }, _, _, _, _, rfl, rfl, rfl, rfl, by decide,
      _, _, rfl⟩,
    ⟨onCmd 0x11#8 0 0 { seededState with ent := [.fail] }, _, _, _, rfl, rfl, rfl, rfl⟩⟩

theorem witness_ErrorPriority :
    (∃ (s : State) (k : Command) (r : Reject), s.cmd = some k ∧ s.rsp = none ∧ decode k = .error r) ∧
    (∃ (c : BitVec 8) (a b a' b' : Word) (r : Reject), decode ⟨c, a, b⟩ = .error r ∧ a ≠ a' ∧ b ≠ b') ∧
    (∃ s : State, s.seeded.getLsbD 0 = false ∧ s.seeded.getLsbD 1 = false) ∧
    (answer (.stateRdXs 4) seededState = some ⟨6#4, 0⟩ ∧ answer (.boundedSm 0) seededState = some ⟨3#4, 0⟩ ∧
      answer (.realBetweenXs 0x7FF0000000000000#64 0) seededState = some ⟨4#4, 0⟩ ∧
      answer .seedEntSm { seededState with ent := [.fail] } = some ⟨5#4, 0⟩ ∧ seededState.rsp = none) :=
  ⟨⟨onCmd 0x1A#8 0 0 State.reset, _, _, rfl, rfl, rfl⟩, ⟨0x1F#8, 0, 0, 1, 1, _, rfl, by decide, by decide⟩,
    ⟨State.reset, rfl, rfl⟩, by decide +kernel⟩

theorem witness_ErrBitsAreSticky :
    (∃ s k t r, s.cmd = some k ∧ s.rsp = none ∧ step s = .next t ∧ t.rsp = some r ∧ r.status = 6#4) ∧
    (∃ s t j, step s = .next t ∧ (readErr s).getLsbD j = true) :=
  ⟨⟨onCmd 0x09#8 1 0 seededState, _, _, _, rfl, rfl, rfl, rfl, rfl⟩, ⟨{ State.reset with err := 0x02#8 }, _, 1, rfl, rfl⟩⟩

theorem witness_SeededBitsFollowSeeding :
    (∃ i s t, holds i s = false ∧ exec i s = .next t ∧ i = .seedEntXs ∧ t.rsp = some ⟨0#4, 0⟩) ∧
    (∃ s t j, step s = .next t ∧ s.seeded.getLsbD j = true) :=
  ⟨⟨.seedEntXs, { State.reset with ent := [.word 1] }, _, rfl, rfl, rfl, rfl⟩, ⟨seededState, _, 1, rfl, rfl⟩⟩

theorem witness_EnginesAreIsolated :
    (∃ i s t, exec i s = .next t ∧ usesSm i = false ∧ (∀ a, i ≠ .stateRdSm a)) ∧
    (∃ i s t, exec i s = .next t ∧ usesXs i = false ∧ (∀ a, i ≠ .stateRdXs a)) :=
  ⟨⟨.seedXs 5, seededState, _, rfl, rfl, fun _ => by simp⟩, ⟨.drawSm, seededState, _, rfl, rfl, fun _ => by simp⟩⟩

theorem witness_SideEffectsByCommand :
    (∃ s t u, exec (.stateRdXs 4) s = .next t ∧ exec (.stateRdXs 4) t = .next u) ∧
    (∃ s t u, exec (.seedXs 7) s = .next t ∧ exec (.seedXs 7) t = .next u) ∧
    (∃ s t d, exec .drawSm s = .next t ∧ t.rsp = some ⟨0#4, d⟩) ∧
    (∃ s t d, exec (.boundedXs 10) s = .next t ∧ t.rsp = some ⟨0#4, d⟩) :=
  ⟨⟨seededState, _, _, rfl, rfl⟩, ⟨seededState, _, _, rfl, rfl⟩, ⟨seededState, _, _, rfl, rfl⟩,
    ⟨seededState, _, _, rfl, rfl⟩⟩

theorem witness_SideEffectsByCommand_boundedRej :
    answer (.boundedRejSm 3) seededState = some ⟨0#4, 0xE220A8397B1DCDAF#64 % 3⟩ ∧
    answer (.boundedRejXs 1) seededState = some ⟨0#4, 0⟩ := by decide

theorem witness_SideEffectsByCommand_seedEnt :
    ∃ (s t t' : State) (w w' : Word) (rest : List EntAct), s.ent = .word w :: .word w' :: rest ∧
      holds .seedEntSm s = false ∧ exec .seedEntSm s = .next t ∧ t.rsp = some ⟨0#4, 0⟩ ∧
      holds .seedEntXs s = false ∧ exec .seedEntXs s = .next t' ∧ t'.rsp = some ⟨0#4, 0⟩ :=
  ⟨{ State.reset with ent := [.word 5, .word 7] }, _, _, 5, 7, _, rfl, rfl, rfl, rfl, rfl, rfl, rfl⟩

theorem witness_OnlySeedEntRequestsEntropy :
    (∃ s t, exec .seedEntSm s = .next t ∧ t.ent ≠ s.ent) ∧ (∃ s t, s.cmd = none ∧ step s = .next t) ∧
    (∃ s t, blockHolds s = true ∧ step s = .next t) :=
  ⟨⟨{ State.reset with ent := [.fail] }, _, rfl, by decide⟩, ⟨State.reset, _, rfl, rfl⟩,
    ⟨onCmd 0x01#8 0 0 State.reset, _, rfl, rfl⟩⟩

theorem witness_StepKeepsInvariant : ∃ s t, State.Inv s ∧ step s = .next t ∧ t.rsp = some ⟨3#4, 0⟩ :=
  ⟨onCmd 0x13#8 0 0 seededState, _, by decide, rfl, rfl⟩

/-- SM unseeded and different, over a run that seeds it and draws. -/
theorem witness_UnseededContentsAreUnobservable :
    ∃ (s s' t : State) (w : Word) (x : XsWords),
      s' = { s with sm := if s.seeded.getLsbD 0 then s.sm else w, xs := if s.seeded.getLsbD 1 then s.xs else x } ∧
      s'.sm ≠ s.sm ∧ Sys2Proof.core.run 4 s = .next t ∧ t.seeded = 0b01#2 ∧ t.taken = [⟨0#4, 0⟩] :=
  ⟨{ State.reset with host := [.send ⟨0x00#8, 5, 0⟩, .take, .send ⟨0x02#8, 0, 0⟩] },
    { State.reset with host := [.send ⟨0x00#8, 5, 0⟩, .take, .send ⟨0x02#8, 0, 0⟩], sm := 9 }, _, 9, ⟨0, 0, 0, 0⟩,
    rfl, by decide, rfl, rfl, rfl⟩

theorem run_one_fault {s : State} {f : Fault} (h : step s = .fault f) : Sys2Proof.core.run 1 s = .fault f := by
  simp only [Host.Core.run, Sys2Proof.core, h]

theorem step_onCmd_zeroXs : step (onCmd 0x14#8 3 0 zeroXsState) = .fault .rejFuelExhausted := by
  refine (step_eq_exec (k := ⟨0x14#8, 3, 0⟩) (i := .boundedRejXs 3) rfl rfl rfl rfl).trans (exec_zeroXs rfl fun k => ?_)
  unfold drawnWord
  induction k with
  | zero => decide
  | succ k ih => exact ih

theorem witness_UnseededContentsAreUnobservable_fault :
    Sys2Proof.core.run 1 (onCmd 0x14#8 3 0 zeroXsState) = .fault .rejFuelExhausted := run_one_fault step_onCmd_zeroXs

end Sys2Proof.Tests
end

section
/-!
PROOF. ERR is sticky (10_state.md R25): the bits that read, what each end of a command and each action of the host does to them,
and from these the statement about a step.
-/

namespace Sys2Proof.Machine

/-! ## The bits of ERR that read -/

theorem readErr_congr_err {s t : State} (h : t.err = s.err) : readErr t = readErr s := by simp only [readErr, h]

theorem errMask_getLsbD (j : Nat) : (0x7E#8).getLsbD j = decide (1 ≤ j ∧ j ≤ 6) := by
  by_cases hj : j < 8
  · exact (by decide : ∀ j < 8, (0x7E#8).getLsbD j = decide (1 ≤ j ∧ j ≤ 6)) j hj
  · rw [BitVec.getLsbD_of_ge _ _ (by omega), decide_eq_false (by omega)]

theorem readErr_getLsbD (s : State) (j : Nat) :
    (readErr s).getLsbD j = (s.err.getLsbD j && decide (1 ≤ j ∧ j ≤ 6)) := by
  rw [readErr, BitVec.getLsbD_and, errMask_getLsbD]

/-- The error codes are 1 to 6 (R181), the bits of ERR that are not hardwired. -/
theorem errCode_toNat_range (k : ErrCode) : 1 ≤ (errCode k).toNat ∧ (errCode k).toNat ≤ 6 := by cases k <;> decide

theorem errCode_ne_zero (k : ErrCode) : errCode k ≠ 0 := by cases k <;> decide

/-- Recording an error sets the bit of its code, and that bit reads. -/
theorem readErr_getLsbD_of_recorded {s t : State} {k : ErrCode} (h : t.err = s.err ||| (1#8 <<< (errCode k).toNat))
    (j : Nat) : (readErr t).getLsbD j = ((readErr s).getLsbD j || j == (errCode k).toNat) := by
  have hk := errCode_toNat_range k
  have hbit : (1#8 <<< (errCode k).toNat).getLsbD j = (j == (errCode k).toNat) := by
    rw [← BitVec.twoPow_eq, BitVec.getLsbD_twoPow]
    simp only [show (errCode k).toNat < 8 by omega, decide_true, Bool.true_and, eq_comm, beq_eq_decide]
  rw [readErr_getLsbD, readErr_getLsbD, h, BitVec.getLsbD_or, hbit, Bool.and_or_distrib_right]
  by_cases hj : j = (errCode k).toNat
  · subst hj; simp [hk]
  · simp only [beq_eq_false_iff_ne.mpr hj, Bool.false_and, Bool.or_false]

theorem readErr_hardwired (s : State) : (readErr s).getLsbD 0 = false ∧ (readErr s).getLsbD 7 = false :=
  ⟨(readErr_getLsbD s 0).trans (Bool.and_false _), (readErr_getLsbD s 7).trans (Bool.and_false _)⟩

theorem readErr_of_err_zero {s : State} (h : s.err = 0) : readErr s = 0 := by simp [readErr, h]

/-- STATUS has ERR as its data bits 15:8 (R160). -/
theorem statusWord_extract_err (s : State) : (statusWord s).extractLsb' 8 8 = readErr s := by
  apply BitVec.eq_of_getLsbD_eq
  intro i hi
  simp only [statusWord, BitVec.getLsbD_extractLsb', BitVec.getLsbD_setWidth, BitVec.getLsbD_append,
    show ¬ 8 + i < 2 by omega, show ¬ 8 + i - 2 < 6 by omega, show 8 + i < 64 by omega, show 8 + i - 2 - 6 = i by omega,
    hi, decide_true, Bool.true_and, if_false]

/-! ## ERR over the parts of a command -/

@[simp] theorem afterDraws_err (e : Engine) (k : Nat) (s : State) : (afterDraws e k s).err = s.err := by
  induction k generalizing s with
  | zero => rfl
  | succ k ih => rw [afterDraws_succ, ih, draw_err]

@[simp] theorem seedEngine_err (e : Engine) (w : Word) (s : State) : (seedEngine e w s).err = s.err := by
  cases e <;> rfl

theorem Progress.err_eq {i : Instr} {s s1 : State} (h : Progress i s s1) : s1.err = s.err := by
  rcases h with rfl | ⟨e, k, -, -, rfl⟩ | ⟨e, w, s0, -, rfl | ⟨rest, -, rfl⟩, rfl⟩
  · rfl
  · exact afterDraws_err e (k + 1) s
  · exact seedEngine_err e w s0
  · exact seedEngine_err e w _

theorem Failure.err_eq {k : ErrCode} {s s1 : State} (h : Failure k s s1) : s1.err = s.err := by
  rcases h with rfl | ⟨-, rest, -, rfl⟩ <;> rfl

/-- A response and its trace in ERR: an error sets the bit of its code, and OK leaves ERR as it is. -/
def ResponseRecorded (s t : State) : Prop :=
  (∃ k, t.rsp = some ⟨errCode k, 0⟩ ∧ t.err = s.err ||| (1#8 <<< (errCode k).toNat)) ∨
  (∃ d, t.rsp = some ⟨statusOk, d⟩ ∧ t.err = s.err)

/-- A command that does not hold ends with a response, recorded in ERR. -/
theorem exec_responseRecorded {i : Instr} {s t : State} (hh : holds i s = false) (h : exec i s = .next t) :
    ResponseRecorded s t := by
  have he := exec_ends i s
  rw [h] at he
  cases he with
  | holds hw => simp [hw] at hh
  | error k s1 hf => exact .inl ⟨k, raise_rsp k s1, by rw [raise_err, hf.err_eq]⟩
  | answer d s1 hp => exact .inr ⟨d, respond_rsp d s1, by rw [respond_err, hp.err_eq]⟩

/-- A step is the host's action, or a response of the block recorded in ERR. -/
theorem step_next_cases {s t : State} (h : step s = .next t) : t = hostStep s ∨ ResponseRecorded s t := by
  rcases step_cases s with ⟨-, hs⟩ | ⟨k, r, -, -, -, hs⟩ | ⟨k, i, -, -, -, hh, hs⟩
  · left; rw [h] at hs; cases hs; rfl
  · right; rw [h] at hs; cases hs; exact .inl ⟨.illegalCmd, raise_rsp _ s, raise_err _ s⟩
  · right; exact exec_responseRecorded hh (hs ▸ h)

/-! ## ERR and RSP over the host's actions -/

theorem hostStep_err (s : State) : (hostStep s).err = s.err ∨ ∃ rest, s.host = .reset :: rest := by
  rcases hostStep_cases s with ⟨h, -⟩ | ⟨k, rest, -, -, -, h⟩ | ⟨r, rest, -, -, h⟩ | ⟨rest, hr, -⟩
  · left; rw [h]
  · left; rw [h]
  · left; rw [h]
  · right; exact ⟨rest, hr⟩

/-- The host puts no response on RSP. -/
theorem hostStep_rsp_none {s : State} (h : s.rsp = none) : (hostStep s).rsp = none := by
  rcases hostStep_cases s with ⟨hs, -⟩ | ⟨k, rest, -, -, -, hs⟩ | ⟨r, rest, -, -, hs⟩ | ⟨rest, -, hs⟩ <;> rw [hs]
  · exact h
  · exact h
  · exact resetBlock_rsp _

/-! ## The statement -/

/-- The bits that a recorded response leaves: those of before, and the one of its code where it is an error. -/
theorem ResponseRecorded.readErr_getLsbD {s t : State} {r : Response} (h : ResponseRecorded s t) (hr : t.rsp = some r)
    (j : Nat) : (readErr t).getLsbD j = ((readErr s).getLsbD j || (r.status != 0 && j == r.status.toNat)) := by
  rcases h with ⟨k, hk, he⟩ | ⟨d, hd, he⟩
  · obtain rfl : (⟨errCode k, 0⟩ : Response) = r := Option.some.inj (hk.symm.trans hr)
    simp only [readErr_getLsbD_of_recorded he, bne_iff_ne.mpr (errCode_ne_zero k), Bool.true_and]
  · obtain rfl : (⟨statusOk, d⟩ : Response) = r := Option.some.inj (hd.symm.trans hr)
    simp [readErr_congr_err he, statusOk]

/-- Recording a response clears no bit. -/
theorem ResponseRecorded.readErr_mono {s t : State} (h : ResponseRecorded s t) {j : Nat}
    (hj : (readErr s).getLsbD j = true) : (readErr t).getLsbD j = true := by
  rcases h with ⟨k, -, he⟩ | ⟨d, -, he⟩
  · rw [readErr_getLsbD_of_recorded he, hj, Bool.true_or]
  · rw [readErr_congr_err he, hj]

/-- A step that finds RSP free and leaves a response there is the block's, and the response is recorded in ERR. -/
theorem step_responseRecorded {s t : State} {r : Response} (hs : s.rsp = none) (h : step s = .next t)
    (hr : t.rsp = some r) : ResponseRecorded s t := by
  rcases step_next_cases h with rfl | hrec
  · rw [hostStep_rsp_none hs] at hr; cases hr
  · exact hrec

/-- A bit of ERR that is set stays set over a step, unless the host's next action is a reset. -/
theorem step_keeps_readErr {s t : State} {j : Nat} (h : step s = .next t) (hj : (readErr s).getLsbD j = true) :
    (readErr t).getLsbD j = true ∨ ∃ rest, s.host = .reset :: rest := by
  rcases step_next_cases h with rfl | hrec
  · rcases hostStep_err s with he | hreset
    · left; rw [readErr_congr_err he, hj]
    · right; exact hreset
  · left; exact hrec.readErr_mono hj

/-- Settles O47, from what a step does to ERR: a response is recorded there, and the host clears it only by a reset. -/
theorem errBitsAreSticky : Obligations.ErrBitsAreSticky := by
  unfold Obligations.ErrBitsAreSticky
  refine ⟨?_, readErr_hardwired, fun s t j => step_keeps_readErr, fun s => readErr_of_err_zero (resetBlock_err s),
    readErr_of_err_zero rfl, ?_⟩
  · intro s k t r _ hs h hr j _
    exact (step_responseRecorded hs h hr).readErr_getLsbD hr j
  · intro s
    exact ⟨respond (statusWord s) s, statusWord s, rfl, respond_rsp _ s, statusWord_extract_err s⟩

end Sys2Proof.Machine
end

section
/-!
PROOF. The command byte and the words it reads (30_encoding.md R61, R64 to R66): the fields of the byte as numbers, what the
decoder refuses, which words it depends on, and that performing a command depends on CMD only through the decoded instruction.
-/

namespace Sys2Proof.Machine

/-! ## The fields of the command byte (R61) -/

theorem fieldRsv_eq (c : BitVec 8) : fieldRsv c = c.toNat / 32 := by
  simp only [fieldRsv, BitVec.extractLsb'_toNat, Nat.shiftRight_eq_div_pow]
  omega

theorem fieldOp_eq (c : BitVec 8) : fieldOp c = c.toNat % 16 := by
  simp only [fieldOp, BitVec.extractLsb'_toNat, Nat.shiftRight_zero, Nat.reducePow]

theorem fieldEng_eq_xs_iff (c : BitVec 8) : fieldEng c = .xs ↔ c.toNat / 16 % 2 = 1 := by
  rw [fieldEng, ← BitVec.testBit_toNat, Nat.testBit_eq_decide_div_mod_eq]
  split <;> simp_all

/-! ## What the decoder refuses (R64) -/

theorem decodeOp_of_reserved {op : Nat} (h : 0xB ≤ op) (e : Engine) (a b : Word) :
    decodeOp op e a b = .error .reservedOp := by
  unfold decodeOp
  split
  case h_23 => rfl
  all_goals omega

/-- The operation map refuses the reserved operations and STATUS of XS. -/
theorem exists_decodeOp_error_iff (op : Nat) (e : Engine) (a b : Word) :
    (∃ r, decodeOp op e a b = .error r) ↔ 0xB ≤ op ∨ (op = 0xA ∧ e = .xs) := by
  by_cases h : 0xB ≤ op
  · simp [decodeOp_of_reserved h, h]
  · have hlt : op < 0xB := by omega
    interval_cases op <;> cases e <;> simp [decodeOp]

/-- The three cases of R64. -/
abbrev IllegalByte (c : BitVec 8) : Prop :=
  c.toNat / 32 ≠ 0 ∨ 0xB ≤ c.toNat % 16 ∨ (c.toNat % 16 = 0xA ∧ c.toNat / 16 % 2 = 1)

theorem exists_decode_error_iff (k : Command) : (∃ r, decode k = .error r) ↔ IllegalByte k.byte := by
  obtain ⟨c, a, b⟩ := k
  rw [IllegalByte, ← fieldRsv_eq, ← fieldOp_eq, ← fieldEng_eq_xs_iff, ← exists_decodeOp_error_iff _ _ a b]
  by_cases hrsv : fieldRsv c = 0 <;> simp [decode, hrsv]

theorem exists_decode_ok_iff (k : Command) : (∃ i, decode k = .ok i) ↔ ¬ IllegalByte k.byte := by
  rw [← exists_decode_error_iff]
  cases decode k <;> simp

/-- R63's list of full byte values holds exactly the bytes that R64 does not name. -/
theorem mem_legalBytes_iff (c : BitVec 8) : c ∈ legalBytes ↔ ¬ IllegalByte c := by
  revert c
  decide +kernel

/-- An illegal byte is answered by ILLEGAL_CMD. -/
theorem step_eq_illegalCmd {s : State} {k : Command} {r : Reject} (hc : s.cmd = some k) (hr : s.rsp = none)
    (hd : decode k = .error r) : step s = .next (raise .illegalCmd s) := by
  simp [step, hc, hr, hd, execIllegal]

/-- Settles O3: the decoder's refusals by the fields of the byte, and the list of R63 against them. -/
theorem illegalBytesAreExactlyThree : Obligations.IllegalBytesAreExactlyThree := by
  unfold Obligations.IllegalBytesAreExactlyThree
  refine ⟨exists_decode_error_iff, ?_, by decide, rfl, by decide +kernel, fun s k r => step_eq_illegalCmd⟩
  intro k
  rw [exists_decode_ok_iff, mem_legalBytes_iff]

/-! ## The words the decoder reads (R65, R66) -/

theorem readsA_iff (k : Command) :
    k.readsA = true ↔ fieldRsv k.byte = 0 ∧ fieldOp k.byte ∈ [0x0, 0x3, 0x4, 0x6, 0x9] := by
  obtain ⟨c, a, b⟩ := k
  simp only [Command.readsA, decide_eq_true_eq]
  revert c
  decide +kernel

theorem readsB_iff (k : Command) : k.readsB = true ↔ fieldRsv k.byte = 0 ∧ fieldOp k.byte = 0x6 := by
  obtain ⟨c, a, b⟩ := k
  simp only [Command.readsB, decide_eq_true_eq]
  revert c
  decide +kernel

theorem decodeOp_congr {op : Nat} {e : Engine} {a a' b b' : Word} (ha : op ∈ [0x0, 0x3, 0x4, 0x6, 0x9] → a = a')
    (hb : op = 0x6 → b = b') : decodeOp op e a b = decodeOp op e a' b' := by
  by_cases h : 0xB ≤ op
  · rw [decodeOp_of_reserved h, decodeOp_of_reserved h]
  · have hlt : op < 0xB := by omega
    interval_cases op <;> cases e <;> simp_all [decodeOp]

/-- The instruction depends on the byte and on the words that it reads. -/
theorem decode_congr {k k' : Command} (hc : k.byte = k'.byte) (ha : k.readsA = true → k.a = k'.a)
    (hb : k.readsB = true → k.b = k'.b) : decode k = decode k' := by
  rw [readsA_iff] at ha
  rw [readsB_iff] at hb
  obtain ⟨c, a, b⟩ := k
  obtain ⟨c', a', b'⟩ := k'
  obtain rfl : c = c' := hc
  by_cases hrsv : fieldRsv c = 0
  · simp only [decode, hrsv]
    exact decodeOp_congr (fun h => ha ⟨hrsv, h⟩) fun h => hb ⟨hrsv, h⟩
  · simp [decode, hrsv]

/-! ## The word on CMD has no effect on the instruction performed -/

theorem draw_withCmd (e : Engine) (s : State) (c : Option Command) :
    draw e { s with cmd := c } = ((draw e s).1, { (draw e s).2 with cmd := c }) := by
  cases e <;> rfl

theorem rejLoop_withCmd (e : Engine) (n : Word) (fuel : Nat) (s : State) (c : Option Command) :
    rejLoop e n fuel { s with cmd := c } = (rejLoop e n fuel s).map fun p => (p.1, { p.2 with cmd := c }) := by
  induction fuel generalizing s with
  | zero => rfl
  | succ fuel ih =>
    simp only [rejLoop, draw_withCmd, ih]
    split <;> rfl

theorem boundedRej_withCmd (e : Engine) (n : Word) (s : State) (c : Option Command) :
    boundedRej e n { s with cmd := c } = boundedRej e n s := by
  simp only [boundedRej, rejLoop_withCmd]
  cases rejLoop e n Config.rejFuel s <;> rfl

theorem holds_withCmd (i : Instr) (s : State) (c : Option Command) : holds i { s with cmd := c } = holds i s := by
  rw [Bool.eq_iff_iff]
  simp only [holds, Bool.and_eq_true, beq_iff_eq, entropyRead_waiting_iff]

theorem seedEnt_withCmd {e : Engine} {s : State} (h : entropyRead s ≠ .waiting) (c : Option Command) :
    seedEnt e { s with cmd := c } = seedEnt e s := by
  obtain ⟨sm, xs, seeded, err, cmd, rsp, host, ent, taken, resets⟩ := s
  match ent, h with
  | .word w :: rest, _ => cases e <;> rfl
  | .fail :: rest, _ => rfl
  | .silent :: rest, h => exact absurd rfl h
  | [], h => exact absurd rfl h

/-- A command that does not wait reads nothing from CMD and leaves it free, so that what stood there has no effect. -/
theorem exec_withCmd {i : Instr} {s : State} (h : holds i s = false) (c : Option Command) :
    exec i { s with cmd := c } = exec i s := by
  cases i with
  | seedEntSm => exact seedEnt_withCmd (by simpa [holds, requestsEntropy] using h) c
  | seedEntXs => exact seedEnt_withCmd (by simpa [holds, requestsEntropy] using h) c
  | boundedRejSm n => exact boundedRej_withCmd .sm n s c
  | boundedRejXs n => exact boundedRej_withCmd .xs n s c
  | _ => rfl

theorem blockHolds_eq_holds {s : State} {k : Command} {i : Instr} (hc : s.cmd = some k) (hd : decode k = .ok i) :
    blockHolds s = holds i s := by
  simp [blockHolds, hc, hd]

theorem step_withCmd_of_error {s : State} {k : Command} {r : Reject} (hd : decode k = .error r) (hr : s.rsp = none) :
    step { s with cmd := some k } = .next (raise .illegalCmd s) :=
  step_eq_illegalCmd (s := { s with cmd := some k }) rfl hr hd

theorem step_withCmd_of_ok {s : State} {k : Command} {i : Instr} (hd : decode k = .ok i) (hr : s.rsp = none)
    (hh : holds i s = false) : step { s with cmd := some k } = exec i s := by
  rw [← exec_withCmd hh (some k)]
  exact step_eq_exec rfl hr hd ((holds_withCmd i s _).trans hh)

/-- Two commands that decode alike make the same step, unless they wait for the entropy source. -/
theorem step_withCmd_congr {s : State} {k k' : Command} (hd : decode k = decode k') (hr : s.rsp = none)
    (hb : blockHolds { s with cmd := some k } = false) :
    step { s with cmd := some k } = step { s with cmd := some k' } := by
  cases hk : decode k with
  | error r => rw [step_withCmd_of_error hk hr, step_withCmd_of_error (hd ▸ hk) hr]
  | ok i =>
    have hh : holds i s = false := by rwa [blockHolds_eq_holds rfl hk, holds_withCmd] at hb
    rw [step_withCmd_of_ok hk hr hh, step_withCmd_of_ok (hd ▸ hk) hr hh]

/-! ## The words the encoder writes (R66) -/

theorem operandsCanonical_iff (k : Command) :
    k.operandsCanonical = true ↔ (k.readsA = false → k.a = 0) ∧ (k.readsB = false → k.b = 0) := by
  cases hA : k.readsA <;> cases hB : k.readsB <;> simp [Command.operandsCanonical, hA, hB]

/-- The per-constructor lemmas of Laws/PerInstr.lean, together. -/
theorem encoding_statement (i : Instr) : Laws.Encoding.Statement i := by
  cases i with
  | seedSm w => exact Laws.Encoding.seedSm w
  | seedXs w => exact Laws.Encoding.seedXs w
  | seedEntSm => exact Laws.Encoding.seedEntSm
  | seedEntXs => exact Laws.Encoding.seedEntXs
  | drawSm => exact Laws.Encoding.drawSm
  | drawXs => exact Laws.Encoding.drawXs
  | boundedSm n => exact Laws.Encoding.boundedSm n
  | boundedXs n => exact Laws.Encoding.boundedXs n
  | boundedRejSm n => exact Laws.Encoding.boundedRejSm n
  | boundedRejXs n => exact Laws.Encoding.boundedRejXs n
  | real01Sm => exact Laws.Encoding.real01Sm
  | real01Xs => exact Laws.Encoding.real01Xs
  | realBetweenSm lo hi => exact Laws.Encoding.realBetweenSm lo hi
  | realBetweenXs lo hi => exact Laws.Encoding.realBetweenXs lo hi
  | minSm => exact Laws.Encoding.minSm
  | minXs => exact Laws.Encoding.minXs
  | maxSm => exact Laws.Encoding.maxSm
  | maxXs => exact Laws.Encoding.maxXs
  | stateRdSm index => exact Laws.Encoding.stateRdSm index
  | stateRdXs index => exact Laws.Encoding.stateRdXs index
  | status => exact Laws.Encoding.status

theorem encode_operandsCanonical (i : Instr) : (encode i).operandsCanonical = true :=
  (Bool.and_eq_true_iff.mp (encoding_statement i).1).2

/-- Settles O8: the decoder reads no other word, and a step depends on the command through its decoding. -/
theorem ignoredOperandsHaveNoEffect : Obligations.IgnoredOperandsHaveNoEffect := by
  unfold Obligations.IgnoredOperandsHaveNoEffect
  refine ⟨fun k k' hc ha hb => ?_, fun i => (operandsCanonical_iff _).mp (encode_operandsCanonical i)⟩
  have hd : decode k = decode k' := decode_congr hc ha hb
  exact ⟨hd, fun s => step_withCmd_congr hd⟩

end Sys2Proof.Machine
end

section
/-!
PROOF. The SplitMix64 engine (40_splitmix64.md R81 to R86): its output transform is injective, so that each output comes from one
counter; then its four commands, each with the states it leaves, and the words that draws after a seeding answer.
-/

namespace Sys2Proof.Machine

/-! ## The output transform (R81) -/

/-- A word is recovered from its xor with a right shift of itself, from the top bit down. -/
theorem xorShiftRight_injective {w k : Nat} (hk : 0 < k) : Function.Injective fun x : BitVec w => x ^^^ (x >>> k) := by
  intro x y hxy
  have hbit (i : Nat) : (x.getLsbD i ^^ x.getLsbD (k + i)) = (y.getLsbD i ^^ y.getLsbD (k + i)) := by
    simpa only [BitVec.getLsbD_xor, BitVec.getLsbD_ushiftRight] using congrArg (·.getLsbD i) hxy
  have hall (n i : Nat) (hn : w ≤ n + i) : x.getLsbD i = y.getLsbD i := by
    induction n generalizing i with
    | zero => rw [BitVec.getLsbD_of_ge _ _ (by omega), BitVec.getLsbD_of_ge _ _ (by omega)]
    | succ n ih =>
      have hhigh := ih (k + i) (by omega)
      simpa only [hhigh, Bool.xor_left_inj] using hbit i
  exact BitVec.eq_of_getLsbD_eq fun i _ => hall w i (by omega)

/-- The first multiplier has an inverse modulo 2^64. -/
theorem mixM1_mul_injective : Function.Injective (mixM1 * ·) :=
  (IsUnit.of_mul_eq_one 0x96DE1B173F119089#64 (by decide)).mul_right_injective

/-- The second multiplier has an inverse modulo 2^64. -/
theorem mixM2_mul_injective : Function.Injective (mixM2 * ·) :=
  (IsUnit.of_mul_eq_one 0x319642B2D24D8EC3#64 (by decide)).mul_right_injective

theorem mix64_injective : Function.Injective mix64 :=
  (xorShiftRight_injective (k := 31) (by decide)).comp <| mixM2_mul_injective.comp <|
    (xorShiftRight_injective (k := 27) (by decide)).comp <| mixM1_mul_injective.comp <|
      xorShiftRight_injective (k := 30) (by decide)

/-- Advancing the counter and transforming it loses nothing: two counters draw the same word only where they are equal. -/
theorem mix64_smNext_inj {m m' : Word} : mix64 (smNext m) = mix64 (smNext m') ↔ m = m' :=
  mix64_injective.eq_iff.trans (add_right_injective gamma).eq_iff

theorem mix64_smNext_eq_zero_iff (m : Word) : mix64 (smNext m) = 0 ↔ m = 0x61C8864680B583EB#64 := by
  have h0 : mix64 (smNext 0x61C8864680B583EB#64) = 0 := by decide
  rw [← h0, mix64_smNext_inj]

/-- Settles O14: the lines of R81 are those of the definition. -/
theorem mix64Transform : Obligations.Mix64Transform := by
  unfold Obligations.Mix64Transform
  rintro z _ _ rfl rfl
  rfl

/-! ## DRAW.SM (R83) -/

theorem exec_drawSm_of_seeded {s : State} (h : s.seeded.getLsbD 0 = true) :
    exec .drawSm s = .next (respond (mix64 (smNext s.sm)) (writeSm (smNext s.sm) s)) := ifSeeded_sm _ h

theorem exec_drawSm_of_unseeded {s : State} (h : s.seeded.getLsbD 0 = false) :
    exec .drawSm s = .next (raise .notSeeded s) := ifSeeded_sm_unseeded _ h

/-- Settles O15: both cases of the seeded bit, and that `Mix64` is injective for the one counter that draws 0. -/
theorem drawSmAdvancesThenAnswers : Obligations.DrawSmAdvancesThenAnswers := by
  unfold Obligations.DrawSmAdvancesThenAnswers
  exact ⟨fun _ _ => rfl, fun _ => exec_drawSm_of_unseeded, fun _ => exec_drawSm_of_seeded, mix64_smNext_eq_zero_iff,
    by decide, by decide⟩

/-! ## SEED.SM and the draws after it (R84) -/

/-- Seeding an engine sets its bit of `SEEDED`. -/
@[simp] theorem seededBit_seedEngine (e : Engine) (w : Word) (s : State) : seededBit e (seedEngine e w s) = true := by
  cases e <;> simp [seedEngine, seededBit, engineIndex]

theorem exec_seedSm (w : Word) (s : State) : exec (.seedSm w) s = .next (respond 0 (seedEngine .sm w s)) := rfl

/-- The first draw after seeding transforms the seed's successor. -/
theorem exec_drawSm_after_seedEngine (d w : Word) (s : State) :
    ∃ u, exec .drawSm (respond d (seedEngine .sm w s)) = .next u ∧ u.rsp = some ⟨0#4, mix64 (smNext w)⟩ :=
  ⟨_, exec_drawSm_of_seeded (seededBit_seedEngine .sm w s), rfl⟩

/-- The word of the `k`-th later draw, in closed form. -/
theorem drawnWord_sm (k : Nat) (s : State) : drawnWord .sm k s = mix64 (smNext (gamma * BitVec.ofNat 64 k + s.sm)) := by
  rw [drawnWord, afterDraws_sm]
  rfl

/-- The words that SM draws depend on its counter alone. -/
theorem drawnWord_sm_congr {s t : State} (h : t.sm = s.sm) (k : Nat) : drawnWord .sm k t = drawnWord .sm k s := by
  rw [drawnWord_sm, drawnWord_sm, h]

theorem perform_drawSm {s : State} (h : s.seeded.getLsbD 0 = true) :
    perform .drawSm s = some (⟨statusOk, mix64 (smNext s.sm)⟩,
      respond (mix64 (smNext s.sm)) (writeSm (smNext s.sm) s)) := by
  simp [perform, holds, requestsEntropy, exec_drawSm_of_seeded h]

/-- DRAW.SM performed `n` times on a seeded engine answers the first `n` drawn words. -/
theorem performAll_replicate_drawSm (n : Nat) {s : State} (h : s.seeded.getLsbD 0 = true) :
    ∃ rs u, performAll (List.replicate n .drawSm) s = some (rs, u) ∧
      rs.map (fun p => p.2.data) = (List.range n).map fun k => drawnWord .sm k s := by
  induction n generalizing s with
  | zero => exact ⟨[], s, rfl, rfl⟩
  | succ n ih =>
    obtain ⟨rs, u, hrun, hdata⟩ := ih (s := respond (mix64 (smNext s.sm)) (writeSm (smNext s.sm) s)) h
    refine ⟨(.drawSm, ⟨statusOk, mix64 (smNext s.sm)⟩) :: rs, u, ?_, ?_⟩
    · simp only [List.replicate_succ, performAll, perform_drawSm h, hrun]
    · have hnext (k : Nat) : drawnWord .sm k (respond (mix64 (smNext s.sm)) (writeSm (smNext s.sm) s)) =
          drawnWord .sm (k + 1) s := drawnWord_sm_congr (respond_sm _ _) k
      rw [List.map_cons, hdata, List.range_succ_eq_map, List.map_cons, List.map_map]
      simp only [hnext]
      rfl

/-- Scenario A: the four words drawn from the counter 0. -/
theorem drawnWord_sm_scenarioA {s : State} (h : s.sm = 0) :
    (List.range 4).map (fun k => drawnWord .sm k s) =
      [0xE220A8397B1DCDAF#64, 0x6E789E6AA1B965F4#64, 0x06C45D188009454F#64, 0xF88BB8A8724C81EC#64] := by
  simp only [drawnWord_sm, h]
  decide

/-- Settles O16: seeding is total and sets the bit that DRAW.SM tests; the four draws are the drawn words in order. -/
theorem seedSmWritesCounter : Obligations.SeedSmWritesCounter := by
  unfold Obligations.SeedSmWritesCounter
  refine ⟨fun _ _ => rfl, fun _ _ => rfl, ?_, ?_⟩
  · intro s w t ht
    cases (exec_seedSm w s).symm.trans ht
    exact exec_drawSm_after_seedEngine 0 w s
  · intro s t ht
    cases (exec_seedSm 0 s).symm.trans ht
    obtain ⟨rs, u, hrun, hdata⟩ := performAll_replicate_drawSm 4 (seededBit_seedEngine .sm 0 s)
    exact ⟨rs, u, hrun, hdata.trans (drawnWord_sm_scenarioA rfl)⟩

/-! ## SEED_ENT (R85) -/

theorem seedEnt_of_word {e : Engine} {s : State} {w : Word} {rest : List EntAct} (h : s.ent = .word w :: rest) :
    seedEnt e s = .next (respond 0 (seedEngine e w { s with ent := rest })) := by
  simp only [seedEnt, entropyRead, dropEnt, h, List.tail_cons]

theorem seedEnt_of_fail {e : Engine} {s : State} {rest : List EntAct} (h : s.ent = .fail :: rest) :
    seedEnt e s = .next (raise .entropyFail { s with ent := rest }) := by
  simp only [seedEnt, entropyRead, dropEnt, h, List.tail_cons]

theorem seedEnt_of_waiting {e : Engine} {s : State} (h : s.ent = [] ∨ ∃ rest, s.ent = .silent :: rest) :
    seedEnt e s = .next s := by
  rw [seedEnt, (entropyRead_waiting_iff s).mpr h]

/-- Settles O17, by the entropy source's next act; the example's word is the counter that draws 0. -/
theorem seedEntSmTakesOneWord : Obligations.SeedEntSmTakesOneWord := by
  unfold Obligations.SeedEntSmTakesOneWord
  refine ⟨fun _ _ => rfl, fun _ _ _ => seedEnt_of_word, fun _ _ => seedEnt_of_fail, fun _ => seedEnt_of_waiting, ?_⟩
  intro s rest t hent ht
  cases (seedEnt_of_word (e := .sm) hent).symm.trans ht
  obtain ⟨u, hu, hrsp⟩ := exec_drawSm_after_seedEngine 0 0x61C8864680B583EB#64 { s with ent := rest }
  exact ⟨u, hu, by rw [hrsp, (mix64_smNext_eq_zero_iff _).mpr rfl]⟩

/-! ## STATE_RD.SM (R86) -/

/-- The index space of SM has the one index 0. -/
theorem stateWord_sm_of_ne_zero {index : Word} (s : State) (h : index ≠ 0) : stateWord .sm index s = none := by
  have h0 : index.toNat ≠ 0 := BitVec.toNat_ne_iff_ne.mpr h
  simpa only [h0, false_and, and_false, reduceCtorEq, true_and, false_or, or_false, Nat.pos_of_ne_zero h0]
    using stateWord_cases .sm index s

theorem exec_stateRdSm_of_unseeded {s : State} (index : Word) (h : s.seeded.getLsbD 0 = false) :
    exec (.stateRdSm index) s = .next (raise .notSeeded s) := ifSeeded_sm_unseeded _ h

theorem exec_stateRdSm_of_ne_zero {s : State} {index : Word} (h : s.seeded.getLsbD 0 = true) (hi : index ≠ 0) :
    exec (.stateRdSm index) s = .next (raise .badIndex s) :=
  (ifSeeded_sm _ h).trans (by rw [stateWord_sm_of_ne_zero s hi])

theorem exec_stateRdSm_zero {s : State} (h : s.seeded.getLsbD 0 = true) :
    exec (.stateRdSm 0) s = .next (respond s.sm s) := ifSeeded_sm _ h

/-- Settles O18: the order of the checks, and the counter that SEED.SM and DRAW.SM leave. -/
theorem stateRdSmReadsCounter : Obligations.StateRdSmReadsCounter := by
  unfold Obligations.StateRdSmReadsCounter
  refine ⟨fun _ _ => rfl, fun _ => exec_stateRdSm_of_unseeded, fun _ _ => exec_stateRdSm_of_ne_zero,
    fun _ => exec_stateRdSm_zero, ?_, ?_⟩
  · intro s w t ht
    cases (exec_seedSm w s).symm.trans ht
    exact ⟨_, exec_stateRdSm_zero (seededBit_seedEngine .sm w s), rfl⟩
  · intro s t hs ht
    cases (exec_drawSm_of_seeded hs).symm.trans ht
    exact ⟨_, exec_stateRdSm_zero hs, rfl⟩

end Sys2Proof.Machine
end

section
/-!
PROOF. The xoshiro256** engine (41_xoshiro256ss.md R100 to R107): its scrambler and its update are injective, and no seed gives
the all-zero state; then its four commands, each with the states it leaves.
-/

namespace Sys2Proof.Machine

/-! ## The scrambler (R100) -/

/-- Bit `i` of the word is bit `i + k` of the rotation, or, past the top, bit `i + k - 64`. -/
theorem rotl_injective {k : Nat} (h0 : 0 < k) (hk : k < 64) : Function.Injective (rotl · k) := by
  intro x y hxy
  have hbit (j : Nat) := congrArg (BitVec.getLsbD · j) hxy
  simp only [rotl_eq_rotateLeft _ k h0 hk, BitVec.getLsbD_rotateLeft_of_le hk] at hbit
  refine BitVec.eq_of_getLsbD_eq fun i hi => ?_
  by_cases hik : i + k < 64
  · simpa [hik] using hbit (i + k)
  · have hwrap : i + k - 64 < k := by omega
    have hback : 64 - k + (i + k - 64) = i := by omega
    simpa only [hwrap, decide_true, cond_true, hback] using hbit (i + k - 64)

/-- The scrambler's first multiplier has an inverse modulo 2^64. -/
theorem mul_five_injective : Function.Injective fun x : Word => x * 5 :=
  (IsUnit.of_mul_eq_one 0xCCCCCCCCCCCCCCCD#64 (by decide)).mul_left_injective

/-- The scrambler's second multiplier has an inverse modulo 2^64. -/
theorem mul_nine_injective : Function.Injective fun x : Word => x * 9 :=
  (IsUnit.of_mul_eq_one 0x8E38E38E38E38E39#64 (by decide)).mul_left_injective

theorem xsOut_injective : Function.Injective xsOut :=
  mul_nine_injective.comp <| (rotl_injective (k := 7) (by decide) (by decide)).comp mul_five_injective

theorem xsOut_eq_zero_iff (x : Word) : xsOut x = 0 ↔ x = 0 := xsOut_injective.eq_iff' (by decide)

theorem xsOut_eq_rotateLeft (x : Word) : xsOut x = (x * 5).rotateLeft 7 * 9 := by
  rw [xsOut, rotl_eq_rotateLeft _ 7 (by decide) (by decide)]

/-! ## The update and the seeded words (R101, R104, R107) -/

/-- A word is recovered from its xor with a left shift of itself, from the bottom bit up. -/
theorem xorShiftLeft_injective {w k : Nat} (hk : 0 < k) : Function.Injective fun x : BitVec w => x ^^^ (x <<< k) := by
  intro x y hxy
  have hbit (i : Nat) := congrArg (BitVec.getLsbD · i) hxy
  simp only [BitVec.getLsbD_xor, BitVec.getLsbD_shiftLeft] at hbit
  refine BitVec.eq_of_getLsbD_eq fun i hi => ?_
  induction i using Nat.strong_induction_on with
  | _ i ih =>
    by_cases hik : i < k
    · simpa [hik] using hbit i
    · have hlow := ih (i - k) (by omega) (by omega)
      simpa only [hlow, Bool.xor_left_inj] using hbit i

/-- The old words are recovered from the new ones in the order `XS[0]`, `XS[1]`, `XS[2]`, `XS[3]`: the rotated word gives
`XS[3] ^ XS[1]`, and the second and third together give `XS[1] ^ (XS[1] << 17)`. -/
theorem xsNext_injective : Function.Injective xsNext := by
  rintro ⟨a0, a1, a2, a3⟩ ⟨b0, b1, b2, b3⟩ h
  simp only [xsNext, XsWords.mk.injEq] at h
  obtain ⟨h0, h1, h2, h3⟩ := h
  have h31 : a3 ^^^ a1 = b3 ^^^ b1 := rotl_injective (k := 45) (by decide) (by decide) h3
  rw [h31, BitVec.xor_left_inj] at h0
  subst h0
  have hshift : a1 ^^^ (a1 <<< 17) = b1 ^^^ (b1 <<< 17) := by
    have hcancel (x u : Word) : x ^^^ (x <<< 17) = (x ^^^ u) ^^^ (u ^^^ (x <<< 17)) := by
      rw [BitVec.xor_assoc, ← BitVec.xor_assoc u, BitVec.xor_self, BitVec.zero_xor]
    rw [hcancel a1 (a2 ^^^ a0), hcancel b1 (b2 ^^^ a0), h1, h2]
  obtain rfl := xorShiftLeft_injective (k := 17) (by decide) hshift
  rw [BitVec.xor_right_inj, BitVec.xor_left_inj] at h1
  rw [BitVec.xor_left_inj] at h31
  rw [h1, h31]

theorem xsNext_zero : xsNext ⟨0, 0, 0, 0⟩ = ⟨0, 0, 0, 0⟩ := by decide

/-- Drawing never reaches the all-zero state from another one. -/
theorem xsNext_ne_zero {x : XsWords} (h : x ≠ ⟨0, 0, 0, 0⟩) : xsNext x ≠ ⟨0, 0, 0, 0⟩ := fun h0 =>
  h (xsNext_injective (h0.trans xsNext_zero.symm))

theorem smNext_ne_self (m : Word) : smNext m ≠ m := add_ne_right.mpr (by decide : gamma ≠ 0)

/-- The first two words come from different counters, so they are not both 0. -/
theorem xsOfSeed_ne_zero (w : Word) : xsOfSeed w ≠ ⟨0, 0, 0, 0⟩ := by
  intro h
  have h0 : mix64 (smNext w) = 0 := congrArg XsWords.s0 h
  have h1 : mix64 (smNext (smNext w)) = 0 := congrArg XsWords.s1 h
  exact smNext_ne_self w (mix64_smNext_inj.mp (h1.trans h0.symm))

theorem exec_seedXs (w : Word) (s : State) : exec (.seedXs w) s = .next (respond 0 (seedEngine .xs w s)) := rfl

/-! ## DRAW.XS (R100, R103) -/

theorem exec_drawXs_of_seeded {s : State} (h : s.seeded.getLsbD 1 = true) :
    exec .drawXs s = .next (respond (xsOut s.xs.s1) (writeXs (xsNext s.xs) s)) := ifSeeded_xs _ h

theorem exec_drawXs_of_unseeded {s : State} (h : s.seeded.getLsbD 1 = false) :
    exec .drawXs s = .next (raise .notSeeded s) := ifSeeded_xs_unseeded _ h

/-- Settles O21: the model's rotation is `BitVec.rotateLeft`, and the draw answers from the state it finds. -/
theorem xsOutScrambler : Obligations.XsOutScrambler := by
  unfold Obligations.XsOutScrambler
  exact ⟨xsOut_eq_rotateLeft, fun s hs => ⟨_, exec_drawXs_of_seeded hs,
    congrArg (fun d => some (Response.mk 0#4 d)) (xsOut_eq_rotateLeft s.xs.s1)⟩⟩

/-- Settles O23: both cases of the seeded bit, and that the scrambler and the update are injective and map 0 to 0. -/
theorem drawXsAnswersThenAdvances : Obligations.DrawXsAnswersThenAdvances := by
  unfold Obligations.DrawXsAnswersThenAdvances
  refine ⟨fun _ _ => rfl, fun _ => exec_drawXs_of_unseeded, fun _ => exec_drawXs_of_seeded, xsOut_eq_zero_iff,
    fun _ => xsNext_ne_zero, xsOfSeed_ne_zero, ?_⟩
  intro s t ht
  cases (exec_seedXs 123 s).symm.trans ht
  have hout : xsOut (xsOfSeed 123).s1 = 0x325A8FA1D1A069F9#64 := by decide
  have hnext : xsNext (xsOfSeed 123) =
      ⟨0xE10CA331022977A8#64, 0x92CC742C41C03DBF#64, 0x111DA81ADF578AC3#64, 0xE6D06ABA071CAC1E#64⟩ := by decide
  exact ⟨_, exec_drawXs_of_seeded (seededBit_seedEngine .xs 123 s),
    congrArg (fun d => some (Response.mk 0#4 d)) hout, hnext⟩

/-! ## SEED.XS and SEED_ENT.XS (R104, R105) -/

/-- Scenario B: the four words that the seed 0 gives. -/
theorem xsOfSeed_scenarioB : xsOfSeed 0 =
    ⟨0xE220A8397B1DCDAF#64, 0x6E789E6AA1B965F4#64, 0x06C45D188009454F#64, 0xF88BB8A8724C81EC#64⟩ := by decide

/-- Settles O24: seeding is total, and its four words are the transforms of the seed's four successors. -/
theorem seedXsFillsFourWords : Obligations.SeedXsFillsFourWords := by
  unfold Obligations.SeedXsFillsFourWords
  refine ⟨fun _ _ => rfl, ?_, ?_, ?_⟩
  · rintro s w _ _ _ _ rfl rfl rfl rfl
    rfl
  · intro s w t ht
    cases (exec_seedXs w s).symm.trans ht
    exact xsOfSeed_ne_zero w
  · intro s t ht
    cases (exec_seedXs 0 s).symm.trans ht
    exact xsOfSeed_scenarioB

/-- Settles O25, by the entropy source's next act; on a word both commands seed the engine in the same way. -/
theorem seedEntXsTakesOneWord : Obligations.SeedEntXsTakesOneWord := by
  unfold Obligations.SeedEntXsTakesOneWord
  refine ⟨fun _ _ => rfl, ?_, fun _ _ => seedEnt_of_fail, fun _ => seedEnt_of_waiting, ?_⟩
  · intro s w rest hent
    exact ⟨seedEnt_of_word hent, _, seedEnt_of_word hent, rfl, rfl, xsOfSeed_ne_zero w⟩
  · intro s s' rest t t' hent ht ht'
    cases (seedEnt_of_word (e := .xs) hent).symm.trans ht
    cases (exec_seedXs 0 s').symm.trans ht'
    rfl

/-! ## STATE_RD.XS (R106) -/

/-- The index space of XS ends at 3. -/
theorem stateWord_xs_of_three_lt {index : Word} (s : State) (h : 3 < index.toNat) : stateWord .xs index s = none := by
  obtain ⟨h0, h1, h2, h3⟩ : index.toNat ≠ 0 ∧ index.toNat ≠ 1 ∧ index.toNat ≠ 2 ∧ index.toNat ≠ 3 := by omega
  simpa only [h0, h1, h2, h3, h, false_and, and_false, reduceCtorEq, true_and, false_or] using stateWord_cases .xs index s

theorem exec_stateRdXs_of_unseeded {s : State} (index : Word) (h : s.seeded.getLsbD 1 = false) :
    exec (.stateRdXs index) s = .next (raise .notSeeded s) := ifSeeded_xs_unseeded _ h

theorem exec_stateRdXs_of_three_lt {s : State} {index : Word} (h : s.seeded.getLsbD 1 = true) (hi : 3 < index.toNat) :
    exec (.stateRdXs index) s = .next (raise .badIndex s) :=
  (ifSeeded_xs _ h).trans (by rw [stateWord_xs_of_three_lt s hi])

theorem exec_stateRdXs_of_some {s : State} {index w : Word} (h : s.seeded.getLsbD 1 = true)
    (hw : stateWord .xs index s = some w) : exec (.stateRdXs index) s = .next (respond w s) :=
  (ifSeeded_xs _ h).trans (by rw [hw])

/-- Settles O26: the order of the checks, the four indices in range, and the words that SEED.XS leaves. -/
theorem stateRdXsReadsOneWord : Obligations.StateRdXsReadsOneWord := by
  unfold Obligations.StateRdXsReadsOneWord
  refine ⟨fun _ _ => rfl, fun _ => exec_stateRdXs_of_unseeded, fun _ _ => exec_stateRdXs_of_three_lt, ?_, ?_⟩
  · intro s hs
    exact ⟨exec_stateRdXs_of_some hs rfl, exec_stateRdXs_of_some hs rfl, exec_stateRdXs_of_some hs rfl,
      exec_stateRdXs_of_some hs rfl, exec_stateRdXs_of_three_lt hs (by decide)⟩
  · intro s t ht
    cases (exec_seedXs 0 s).symm.trans ht
    have hread : exec (.stateRdXs 2) (respond 0 (seedEngine .xs 0 s)) = .next (respond (xsOfSeed 0).s2 _) :=
      exec_stateRdXs_of_some (seededBit_seedEngine .xs 0 s) rfl
    exact ⟨_, hread, congrArg (fun x : XsWords => some (Response.mk 0#4 x.s2)) xsOfSeed_scenarioB⟩

end Sys2Proof.Machine
end

section
/-!
PROOF. Bounded integers and advertised bounds (42_bounded.md R120, R125 to R127): the high product at its corners, and the
rejection loop, whose first accepted word comes within the fuel because the engines have no more than 2^256 states.
-/

namespace Sys2Proof.Machine

/-! ## The advertised bounds (R126, R127) -/

/-- Settles O36: the four meanings answer a hardwired word and check nothing. -/
theorem minAndMaxAnswerBounds : Obligations.MinAndMaxAnswerBounds := by
  unfold Obligations.MinAndMaxAnswerBounds
  exact ⟨fun _ _ => ⟨rfl, rfl, rfl, rfl⟩, fun _ => ⟨rfl, rfl, rfl, rfl⟩⟩

/-! ## The high product at its corners (R4, R120) -/

theorem mulhi_zero (n : Word) : mulhi n 0 = 0 := by simp [mulhi]

theorem mulhi_one_left (w : Word) : mulhi 1 w = 0 := by
  have h : 1 * w.toNat / 2 ^ 64 = 0 := by omega
  exact congrArg (BitVec.ofNat 64) h

/-- The product with 2^63 is the word moved one place down. -/
theorem mulhi_twoPow63_left (w : Word) : mulhi 0x8000000000000000#64 w = w >>> 1 := by
  have h : 2 ^ 63 * w.toNat / 2 ^ 64 % 2 ^ 64 = w.toNat / 2 := by omega
  apply BitVec.eq_of_toNat_eq
  rw [BitVec.toNat_ushiftRight, Nat.shiftRight_eq_div_pow, pow_one]
  exact h

/-! ## BOUNDED (R120) -/

theorem bounded_of_unseeded {e : Engine} {s : State} (n : Word) (h : seededBit e s = false) :
    bounded e n s = .next (raise .notSeeded s) := ifSeeded_of_unseeded _ h

theorem bounded_zero {e : Engine} {s : State} (h : seededBit e s = true) :
    bounded e 0 s = .next (raise .boundZero s) := (ifSeeded_of_seeded _ h).trans (ifBound_zero s _)

theorem bounded_of_ne_zero {e : Engine} {s : State} {n : Word} (h : seededBit e s = true) (hn : n ≠ 0) :
    bounded e n s = .next (respond (mulhi n (draw e s).1) (draw e s).2) :=
  (ifSeeded_of_seeded _ h).trans (ifBound_of_ne _ hn)

/-- Settles O30: the checks in order, the one draw, and the high product at its corners. -/
theorem boundedIsWideMultiply : Obligations.BoundedIsWideMultiply := by
  unfold Obligations.BoundedIsWideMultiply
  refine ⟨fun _ _ => ⟨rfl, rfl⟩, fun _ => bounded_of_unseeded (e := .sm), fun _ => bounded_of_unseeded (e := .xs),
    fun _ => bounded_zero (e := .sm), fun _ => bounded_zero (e := .xs), ?_, ?_,
    fun w => ⟨mulhi_one_left w, mulhi_twoPow63_left w⟩, by decide, mulhi_zero, by decide⟩
  · rintro s n _ hs hn rfl
    exact bounded_of_ne_zero (e := .sm) hs hn
  · rintro s n _ hs hn rfl
    exact bounded_of_ne_zero (e := .xs) hs hn

/-! ## The words that an engine draws repeat -/

/-- An orbit of an injective function returns within the size of the space. -/
theorem exists_lt_iterate_eq {α : Type} [Finite α] {f : α → α} (hf : Function.Injective f) (x : α) {k : Nat}
    (hk : Nat.card α ≤ k) : ∃ j < k, f^[j] x = f^[k] x := by
  have := Fintype.ofFinite α
  have hpos := Function.minimalPeriod_pos_of_mem_periodicPts (hf.mem_periodicPts x)
  have hle : Function.minimalPeriod f x ≤ Nat.card α := by
    rw [Nat.card_eq_fintype_card]
    exact Function.minimalPeriod_le_card
  exact ⟨k % Function.minimalPeriod f x, (Nat.mod_lt k hpos).trans_le (hle.trans hk),
    Function.iterate_mod_minimalPeriod_eq⟩

/-- The state of XS is its four words. -/
def xsWordsEquiv : XsWords ≃ Word × Word × Word × Word where
  toFun x := (x.s0, x.s1, x.s2, x.s3)
  invFun p := ⟨p.1, p.2.1, p.2.2.1, p.2.2.2⟩
  left_inv _ := rfl
  right_inv _ := rfl

theorem finite_xsWords : Finite XsWords := Finite.of_equiv _ xsWordsEquiv.symm

theorem card_xsWords : Nat.card XsWords = 2 ^ 256 := by
  have hword : Nat.card Word = 2 ^ 64 := by
    rw [Nat.card_eq_fintype_card, ← FinEnum.card_eq_fintypeCard, FinEnum.card_bitVec]
  rw [Nat.card_congr xsWordsEquiv, Nat.card_prod, Nat.card_prod, Nat.card_prod, hword]
  norm_num

theorem drawnWord_xs (k : Nat) (s : State) : drawnWord .xs k s = xsOut (xsNext^[k] s.xs).s1 := by
  rw [drawnWord, afterDraws_xs]
  rfl

/-- After 2^256 draws an engine draws no new word. -/
theorem exists_lt_drawnWord_eq (e : Engine) (s : State) {k : Nat} (hk : Config.rejFuel ≤ k) :
    ∃ j < k, drawnWord e j s = drawnWord e k s := by
  rw [Config.rejFuel] at hk
  cases e with
  | sm =>
    refine ⟨k % 2 ^ 64, by omega, ?_⟩
    have hmod : BitVec.ofNat 64 (k % 2 ^ 64) = BitVec.ofNat 64 k := BitVec.eq_of_toNat_eq (by simp)
    rw [drawnWord_sm, drawnWord_sm, hmod]
  | xs =>
    have := finite_xsWords
    obtain ⟨j, hj, h⟩ := exists_lt_iterate_eq xsNext_injective s.xs (card_xsWords.trans_le hk)
    exact ⟨j, hj, by rw [drawnWord_xs, drawnWord_xs, h]⟩

/-! ## The first accepted word (R125) -/

/-- `k` is the place of the first word that is accepted for the bound `n`, of those engine `e` draws from `s`. -/
structure FirstAccepted (e : Engine) (n : Word) (s : State) (k : Nat) : Prop where
  rejected : ∀ j < k, drawnWord e j s < threshold n
  accepted : threshold n ≤ drawnWord e k s

theorem FirstAccepted.unique {e : Engine} {n : Word} {s : State} {k k' : Nat} (h : FirstAccepted e n s k)
    (h' : FirstAccepted e n s k') : k = k' := by
  rcases Nat.lt_trichotomy k k' with hlt | heq | hgt
  · exact absurd h.accepted (BitVec.not_le.mpr (h'.rejected k hlt))
  · exact heq
  · exact absurd h'.accepted (BitVec.not_le.mpr (h.rejected k' hgt))

/-- A later word would repeat one that was rejected. -/
theorem FirstAccepted.lt_rejFuel {e : Engine} {n : Word} {s : State} {k : Nat} (h : FirstAccepted e n s k) :
    k < Config.rejFuel := by
  by_contra hk
  obtain ⟨j, hj, heq⟩ := exists_lt_drawnWord_eq e s (Nat.le_of_not_lt hk)
  exact absurd h.accepted (BitVec.not_le.mpr (heq ▸ h.rejected j hj))

theorem rejLoop_of_firstAccepted {e : Engine} {n : Word} {s : State} {k fuel : Nat} (h : FirstAccepted e n s k)
    (hk : k < fuel) : rejLoop e n fuel s = some (drawnWord e k s % n, afterDraws e (k + 1) s) := by
  cases hl : rejLoop e n fuel s with
  | none => exact absurd h.accepted (BitVec.not_le.mpr ((rejLoop_eq_none_iff e n fuel s).mp hl k hk))
  | some p =>
    obtain ⟨k', -, hrej, hacc, hw, ht⟩ := rejLoop_eq_some (w := p.1) (t := p.2) hl
    obtain rfl := h.unique ⟨hrej, hacc⟩
    rw [← hw, ← ht]

/-! ## BOUNDED_REJ (R125) -/

theorem boundedRej_of_unseeded {e : Engine} {s : State} (n : Word) (h : seededBit e s = false) :
    boundedRej e n s = .next (raise .notSeeded s) := ifSeeded_of_unseeded _ h

theorem boundedRej_zero {e : Engine} {s : State} (h : seededBit e s = true) :
    boundedRej e 0 s = .next (raise .boundZero s) := (ifSeeded_of_seeded _ h).trans (ifBound_zero s _)

/-- The command answers the first accepted word, however late it comes. -/
theorem boundedRej_of_firstAccepted {e : Engine} {n : Word} {s : State} {k : Nat} (hs : seededBit e s = true)
    (hn : n ≠ 0) (h : FirstAccepted e n s k) :
    boundedRej e n s = .next (respond (drawnWord e k s % n) (afterDraws e (k + 1) s)) := by
  rw [boundedRej, ifSeeded_of_seeded _ hs, ifBound_of_ne _ hn, rejLoop_of_firstAccepted h h.lt_rejFuel]

theorem smNext_gamma_mul (k : Nat) (m : Word) :
    smNext (gamma * BitVec.ofNat 64 k + m) = gamma * BitVec.ofNat 64 (k + 1) + m := by
  rw [smNext, ← BitVec.add_assoc, BitVec.ofNat_add, BitVec.mul_add, BitVec.mul_one, BitVec.add_comm gamma]

theorem exec_boundedRejSm_of_firstAccepted {s : State} {n : Word} {k : Nat} (hs : s.seeded.getLsbD 0 = true)
    (hn : n ≠ 0) (hrej : ∀ j < k, mix64 (gamma * BitVec.ofNat 64 (j + 1) + s.sm) < threshold n)
    (hacc : threshold n ≤ mix64 (gamma * BitVec.ofNat 64 (k + 1) + s.sm)) :
    exec (.boundedRejSm n) s = .next (respond (mix64 (gamma * BitVec.ofNat 64 (k + 1) + s.sm) % n)
      (writeSm (gamma * BitVec.ofNat 64 (k + 1) + s.sm) s)) := by
  simp only [← smNext_gamma_mul, ← drawnWord_sm] at hrej hacc ⊢
  have h := boundedRej_of_firstAccepted (e := .sm) hs hn ⟨hrej, hacc⟩
  rwa [afterDraws_sm, ← smNext_gamma_mul] at h

theorem exec_boundedRejXs_of_firstAccepted {s : State} {n : Word} {k : Nat} (hs : s.seeded.getLsbD 1 = true)
    (hn : n ≠ 0) (hrej : ∀ j < k, xsOut (xsNext^[j] s.xs).s1 < threshold n)
    (hacc : threshold n ≤ xsOut (xsNext^[k] s.xs).s1) :
    exec (.boundedRejXs n) s = .next (respond (xsOut (xsNext^[k] s.xs).s1 % n) (writeXs (xsNext^[k + 1] s.xs) s)) := by
  simp only [← drawnWord_xs] at hrej hacc ⊢
  have h := boundedRej_of_firstAccepted (e := .xs) hs hn ⟨hrej, hacc⟩
  rwa [afterDraws_xs] at h

/-- The example of R125: the first draw is 0 and rejected, the second is `0xE220A8397B1DCDAF`. -/
theorem exec_boundedRejSm_three {s : State} (hs : s.seeded.getLsbD 0 = true) (hsm : s.sm = 0x61C8864680B583EB#64) :
    exec (.boundedRejSm 3) s = .next (respond 1 (writeSm gamma s)) := by
  have hrej : ∀ j < 1, mix64 (gamma * BitVec.ofNat 64 (j + 1) + s.sm) < threshold 3 := by rw [hsm]; decide
  have hsecond : gamma * BitVec.ofNat 64 (1 + 1) + s.sm = gamma := by rw [hsm]; decide
  have hword : threshold 3 ≤ mix64 gamma ∧ mix64 gamma % 3 = 1 := by decide
  obtain ⟨hacc, hmod⟩ := hword
  have h := exec_boundedRejSm_of_firstAccepted hs (by decide) hrej (by rwa [hsecond])
  rwa [hsecond, hmod] at h

/-! ## The corner cases of R125 -/

theorem threshold_one_shiftLeft : ∀ i < 64, threshold (1#64 <<< i) = 0#64 := by decide

theorem threshold_one_le (w : Word) : threshold 1 ≤ w := by
  rw [show threshold 1 = 0 by decide]
  exact Nat.zero_le w.toNat

theorem threshold_allOnes_le_iff (w : Word) : threshold 0xFFFFFFFFFFFFFFFF#64 ≤ w ↔ w ≠ 0 := by
  rw [show threshold 0xFFFFFFFFFFFFFFFF#64 = 1 by decide]
  bv_omega

/-- Settles O34: the checks in order, the first accepted word on either engine, and the corner cases' thresholds. -/
theorem boundedRejDrawsUntilAccepted : Obligations.BoundedRejDrawsUntilAccepted := by
  unfold Obligations.BoundedRejDrawsUntilAccepted
  refine ⟨fun _ _ => ⟨rfl, rfl⟩, fun _ => boundedRej_of_unseeded (e := .sm),
    fun _ => boundedRej_of_unseeded (e := .xs), fun _ => boundedRej_zero (e := .sm),
    fun _ => boundedRej_zero (e := .xs), ?_, ?_, threshold_one_shiftLeft, fun w => ⟨threshold_one_le w, BitVec.umod_one⟩, by decide,
    threshold_allOnes_le_iff, by decide, fun _ => exec_boundedRejSm_three⟩
  · rintro s n k _ hs hn hrej rfl hacc
    exact exec_boundedRejSm_of_firstAccepted hs hn hrej hacc
  · rintro s n k _ hs hn hrej rfl hacc
    exact exec_boundedRejXs_of_firstAccepted hs hn hrej hacc

end Sys2Proof.Machine
end

section
/-!
PROOF. Binary64 reals (43_real.md R140, R142): the fields of a packed word, exact rounding, and from them the value `m / 2^52` of
`Real01Bits`; then REAL01 and REAL_BETWEEN on either engine.
-/

namespace Sys2Proof.Machine

/-! ## The fields of a packed word (R5) -/

theorem f64Exp_eq (f : Word) : f64Exp f = f.toNat / 2 ^ 52 % 2 ^ 11 := by
  rw [f64Exp, BitVec.extractLsb'_toNat, Nat.shiftRight_eq_div_pow]

theorem f64Frac_eq (f : Word) : f64Frac f = f.toNat % 2 ^ 52 := by
  rw [f64Frac, BitVec.extractLsb'_toNat, Nat.shiftRight_zero]

theorem f64Sign_eq (f : Word) : f64Sign f = decide (2 ^ 63 ≤ f.toNat) := BitVec.msb_eq_decide f

theorem f64Pack_toNat (neg : Bool) {mag : Nat} (h : mag < 2 ^ 63) :
    (f64Pack neg mag).toNat = (if neg then 2 ^ 63 else 0) + mag := by
  rw [f64Pack, BitVec.toNat_ofNat]
  cases neg <;> exact Nat.mod_eq_of_lt (by simp; omega)

theorem f64Sign_pack (neg : Bool) {mag : Nat} (h : mag < 2 ^ 63) : f64Sign (f64Pack neg mag) = neg := by
  rw [f64Sign_eq, f64Pack_toNat neg h]
  cases neg with
  | false => simpa using h
  | true => simp

theorem f64Exp_pack (neg : Bool) {mag : Nat} (h : mag < 2 ^ 63) : f64Exp (f64Pack neg mag) = mag / 2 ^ 52 := by
  rw [f64Exp_eq, f64Pack_toNat neg h]
  cases neg <;> simp only [if_true, Bool.false_eq_true, if_false] <;> omega

theorem f64Frac_pack (neg : Bool) {mag : Nat} (h : mag < 2 ^ 63) : f64Frac (f64Pack neg mag) = mag % 2 ^ 52 := by
  rw [f64Frac_eq, f64Pack_toNat neg h]
  cases neg <;> simp only [if_true, Bool.false_eq_true, if_false] <;> omega

/-- An operand is rejected exactly for the exponent 0x7FF (R142). -/
theorem f64Finite_iff_exp (f : Word) : f64Finite f = true ↔ f64Exp f ≠ 0x7FF := by
  by_cases hf : f64Frac f = 0 <;> simp [f64Finite, isNaN, isInf, hf]

theorem f64Finite_iff_field (f : Word) : f64Finite f = true ↔ f.extractLsb' 52 11 ≠ 0x7FF#11 := by
  rw [f64Finite_iff_exp, f64Exp, Ne, Ne, ← BitVec.toNat_inj]
  rfl

theorem f64Finite_eq_false_iff_field (f : Word) : f64Finite f = false ↔ f.extractLsb' 52 11 = 0x7FF#11 := by
  rw [← Bool.not_eq_true, f64Finite_iff_field, not_not]

theorem f64Finite_iff_not_isNaN_and_not_isInf (f : Word) : f64Finite f = true ↔ isNaN f = false ∧ isInf f = false := by
  simp [f64Finite]

/-! ## Normal numbers

A normal number is packed as `d * 2^52 + q`, with the significand `q` from `2^52` to `2^53` and the biased exponent `d + 1`. -/

section Normal

variable {q d : Nat}

theorem normal_mag_lt_infMag (hq' : q < 2 ^ 53) (hd : d ≤ 2045) : d * 2 ^ 52 + q < f64InfMag := by
  unfold f64InfMag
  omega

theorem f64Exp_pack_normal (neg : Bool) (hq : 2 ^ 52 ≤ q) (hq' : q < 2 ^ 53) (hd : d ≤ 2045) :
    f64Exp (f64Pack neg (d * 2 ^ 52 + q)) = d + 1 := by
  rw [f64Exp_pack neg (by omega)]
  omega

theorem f64Finite_pack_normal (neg : Bool) (hq : 2 ^ 52 ≤ q) (hq' : q < 2 ^ 53) (hd : d ≤ 2045) :
    f64Finite (f64Pack neg (d * 2 ^ 52 + q)) = true := by
  rw [f64Finite_iff_exp, f64Exp_pack_normal neg hq hq' hd]
  omega

theorem f64Units_pack_normal (neg : Bool) (hq : 2 ^ 52 ≤ q) (hq' : q < 2 ^ 53) (hd : d ≤ 2045) :
    f64Units (f64Pack neg (d * 2 ^ 52 + q)) = q * 2 ^ d := by
  have hfrac : 2 ^ 52 + f64Frac (f64Pack neg (d * 2 ^ 52 + q)) = q := by
    rw [f64Frac_pack neg (by omega)]
    omega
  rw [f64Units, f64Exp_pack_normal neg hq hq' hd, if_neg (Nat.succ_ne_zero d), hfrac, Nat.add_sub_cancel]

theorem f64Value_pack_normal (hq : 2 ^ 52 ≤ q) (hq' : q < 2 ^ 53) (hd : d ≤ 2045) :
    f64Value (f64Pack false (d * 2 ^ 52 + q)) = (q * 2 ^ d : Nat) := by
  rw [f64Value, f64Sign_pack false (by omega), f64Units_pack_normal false hq hq' hd]
  rfl

/-! ## Exact rounding (R141, R143) -/

theorem roundShift_mul_twoPow (q d : Nat) : roundShift (q * 2 ^ d) d = q := by
  have hpos : 0 < 2 ^ d := Nat.two_pow_pos d
  have hdiv : q * 2 ^ d / 2 ^ d = q := Nat.mul_div_cancel q hpos
  have hmod : q * 2 ^ d % 2 ^ d = 0 := Nat.mul_mod_left q (2 ^ d)
  simp only [roundShift, hdiv, hmod]
  exact if_neg (by omega)

theorem log2_normal (hq : 2 ^ 52 ≤ q) (hq' : q < 2 ^ 53) (d : Nat) : (q * 2 ^ d).log2 = 52 + d := by
  have hpos : 0 < 2 ^ d := Nat.two_pow_pos d
  refine (Nat.log2_eq_iff (Nat.mul_ne_zero (by omega) hpos.ne')).mpr ⟨?_, ?_⟩
  · rw [Nat.pow_add]
    exact Nat.mul_le_mul_right _ hq
  · rw [Nat.add_right_comm, Nat.pow_add]
    exact Nat.mul_lt_mul_of_pos_right hq' hpos

/-- Rounding drops nothing from a number that has a 53-bit significand. -/
theorem f64Round_normal (neg : Bool) (hq : 2 ^ 52 ≤ q) (hq' : q < 2 ^ 53) (hd : d ≤ 2045) :
    f64Round neg (q * 2 ^ d) 0 = f64Pack neg (d * 2 ^ 52 + q) := by
  have hshift : max ((q * 2 ^ d).log2 - 52) 0 = d := by
    rw [log2_normal hq hq', Nat.add_sub_cancel_left, Nat.max_zero]
  simp only [f64Round, hshift, roundShift_mul_twoPow, Nat.sub_zero,
    Nat.min_eq_left (normal_mag_lt_infMag hq' hd).le]

end Normal

/-- The difference of two finite numbers of different value is rounded once. -/
theorem f64Sub_of_finite {a b : Word} (ha : f64Finite a = true) (hb : f64Finite b = true)
    (hne : f64Value a - f64Value b ≠ 0) :
    f64Sub a b = f64Round (decide (f64Value a - f64Value b < 0)) (f64Value a - f64Value b).natAbs 0 := by
  obtain ⟨hna, hia⟩ := (f64Finite_iff_not_isNaN_and_not_isInf a).mp ha
  obtain ⟨hnb, hib⟩ := (f64Finite_iff_not_isNaN_and_not_isInf b).mp hb
  simp [f64Sub, hna, hia, hnb, hib, hne]

/-! ## The conversion of a drawn word (R141) -/

theorem f64One_eq_pack : f64One = f64Pack false (1022 * 2 ^ 52 + 2 ^ 52) := by decide

/-- `v` has the exponent of 1.0 and the fraction `m`. -/
theorem f64One_or_shift_eq_pack (w : Word) :
    f64One ||| (w >>> 12) = f64Pack false (1022 * 2 ^ 52 + (2 ^ 52 + w.toNat / 2 ^ 12)) := by
  have hm : w.toNat / 2 ^ 12 < 2 ^ 52 := by omega
  apply BitVec.eq_of_toNat_eq
  rw [f64Pack_toNat false (by omega), BitVec.toNat_or, BitVec.toNat_ushiftRight, Nat.shiftRight_eq_div_pow]
  have hone : f64One.toNat = 2 ^ 52 * 0x3FF := rfl
  rw [hone, ← Nat.two_pow_add_eq_or_of_lt hm, if_neg Bool.false_ne_true]
  omega

theorem real01Bits_eq_zero {w : Word} (hm : w.toNat / 2 ^ 12 = 0) : real01Bits w = 0 := by
  have hshift : w >>> 12 = 0 := by
    apply BitVec.eq_of_toNat_eq
    rw [BitVec.toNat_ushiftRight, Nat.shiftRight_eq_div_pow, hm]
    rfl
  rw [real01Bits, hshift]
  decide +kernel

/-- `v - 1.0` is `m` units of `2^-52`, before it is rounded. -/
theorem real01Bits_eq_round {w : Word} (hm : w.toNat / 2 ^ 12 ≠ 0) :
    real01Bits w = f64Round false (w.toNat / 2 ^ 12 * 2 ^ 1022) 0 := by
  have hv : 2 ^ 52 + w.toNat / 2 ^ 12 < 2 ^ 53 := by omega
  have hdiff : f64Value (f64One ||| (w >>> 12)) - f64Value f64One = (w.toNat / 2 ^ 12 * 2 ^ 1022 : Nat) := by
    rw [f64One_or_shift_eq_pack, f64One_eq_pack, f64Value_pack_normal (Nat.le_add_right _ _) hv (by decide),
      f64Value_pack_normal le_rfl (by decide) (by decide), Nat.add_mul, Nat.cast_add, add_sub_cancel_left]
  have hne : f64Value (f64One ||| (w >>> 12)) - f64Value f64One ≠ 0 := by
    rw [hdiff, Nat.cast_ne_zero]
    exact Nat.mul_ne_zero hm (NeZero.ne _)
  have hvfin : f64Finite (f64One ||| (w >>> 12)) = true := by
    rw [f64One_or_shift_eq_pack]
    exact f64Finite_pack_normal false (Nat.le_add_right _ _) hv (by decide)
  rw [real01Bits, f64Sub_of_finite hvfin (by decide) hne, hdiff, Int.natAbs_natCast,
    decide_eq_false (Int.natCast_nonneg _).not_gt]

/-- A non-zero `m` below `2^52` moved up until its highest bit is bit 52. -/
theorem mul_twoPow_log2_bounds {m : Nat} (h0 : m ≠ 0) (h : m < 2 ^ 52) :
    m.log2 < 52 ∧ 2 ^ 52 ≤ m * 2 ^ (52 - m.log2) ∧ m * 2 ^ (52 - m.log2) < 2 ^ 53 := by
  have hp : m.log2 < 52 := (Nat.log2_lt h0).mpr h
  have hlow52 : 2 ^ m.log2 * 2 ^ (52 - m.log2) = 2 ^ 52 := by rw [← pow_add, Nat.add_sub_of_le hp.le]
  have hhigh53 : 2 ^ (m.log2 + 1) * 2 ^ (52 - m.log2) = 2 ^ 53 := by
    rw [← pow_add, Nat.add_right_comm, Nat.add_sub_of_le hp.le]
  refine ⟨hp, ?_, ?_⟩
  · rw [← hlow52]
    exact Nat.mul_le_mul_right _ (Nat.log2_self_le h0)
  · rw [← hhigh53]
    exact Nat.mul_lt_mul_of_pos_right Nat.lt_log2_self (Nat.two_pow_pos _)

/-- The packed form of the result: nothing is lost, since `m` has at most 52 bits. -/
theorem real01Bits_eq_pack {w : Word} (hm : w.toNat / 2 ^ 12 ≠ 0) :
    real01Bits w = f64Pack false
      ((970 + (w.toNat / 2 ^ 12).log2) * 2 ^ 52 + w.toNat / 2 ^ 12 * 2 ^ (52 - (w.toNat / 2 ^ 12).log2)) := by
  obtain ⟨hp, hq, hq'⟩ := mul_twoPow_log2_bounds hm (by omega)
  rw [← f64Round_normal false hq hq' (by omega), real01Bits_eq_round hm, Nat.mul_assoc, ← pow_add]
  congr 3
  omega

/-- The result is exactly `m / 2^52` (R141), as `m * 2^1022` units of `2^-1074`. -/
theorem f64Units_real01Bits (w : Word) : f64Units (real01Bits w) = w.toNat / 2 ^ 12 * 2 ^ 1022 := by
  by_cases hm : w.toNat / 2 ^ 12 = 0
  · rw [real01Bits_eq_zero hm, hm, Nat.zero_mul]
    rfl
  · obtain ⟨hp, hq, hq'⟩ := mul_twoPow_log2_bounds hm (by omega)
    rw [real01Bits_eq_pack hm, f64Units_pack_normal false hq hq' (by omega), Nat.mul_assoc, ← pow_add]
    congr 2
    omega

/-! ## The largest and the smallest non-zero result (R140) -/

theorem real01Bits_allOnes : real01Bits 0xFFFFFFFFFFFFFFFF#64 = 0x3FEFFFFFFFFFFFFE#64 := by decide +kernel

theorem real01Bits_smallest : real01Bits 0x1000#64 = 0x3CB0000000000000#64 := by decide +kernel

/-- The word of all ones has the largest `m`. -/
theorem f64Units_real01Bits_le (w : Word) : f64Units (real01Bits w) ≤ f64Units 0x3FEFFFFFFFFFFFFE#64 := by
  rw [← real01Bits_allOnes, f64Units_real01Bits, f64Units_real01Bits]
  exact Nat.mul_le_mul_right _ (Nat.div_le_div_right (Nat.le_of_lt_succ w.isLt))

/-- The largest binary64 below 1.0 is larger than every result. -/
theorem real01Bits_ne_largestBelowOne (w : Word) : real01Bits w ≠ 0x3FEFFFFFFFFFFFFF#64 := by
  intro h
  have hle := f64Units_real01Bits_le w
  have hlt : f64Units 0x3FEFFFFFFFFFFFFE#64 < f64Units 0x3FEFFFFFFFFFFFFF#64 := by decide +kernel
  rw [h] at hle
  exact absurd hlt hle.not_gt

theorem f64Units_smallest_le_real01Bits {w : Word} (h : real01Bits w ≠ 0) :
    f64Units 0x3CB0000000000000#64 ≤ f64Units (real01Bits w) := by
  have hm : 1 ≤ w.toNat / 2 ^ 12 := Nat.one_le_iff_ne_zero.mpr fun hm => h (real01Bits_eq_zero hm)
  rw [← real01Bits_smallest, f64Units_real01Bits, f64Units_real01Bits]
  exact Nat.mul_le_mul_right _ hm

/-! ## REAL01 (R140) -/

theorem real01_of_unseeded {e : Engine} {s : State} (h : seededBit e s = false) :
    real01 e s = .next (raise .notSeeded s) := ifSeeded_of_unseeded _ h

theorem real01_of_seeded {e : Engine} {s : State} (h : seededBit e s = true) :
    real01 e s = .next (respond (real01Bits (draw e s).1) (draw e s).2) := ifSeeded_of_seeded _ h

/-- Settles O37: the check and the one draw on either engine, the sample words, and the bounds from the value `m / 2^52`. -/
theorem real01AnswersConversion : Obligations.Real01AnswersConversion := by
  unfold Obligations.Real01AnswersConversion
  exact ⟨fun _ _ => ⟨rfl, rfl⟩, fun _ => real01_of_unseeded (e := .sm), fun _ => real01_of_unseeded (e := .xs),
    fun _ => real01_of_seeded (e := .sm), fun _ => real01_of_seeded (e := .xs),
    real01Bits_eq_zero rfl, real01Bits_allOnes, real01Bits_eq_zero rfl, by decide +kernel, real01Bits_smallest,
    by decide +kernel, fun w => ⟨real01Bits_ne_largestBelowOne w, f64Units_real01Bits_le w⟩,
    fun _ => f64Units_smallest_le_real01Bits⟩

/-! ## REAL_BETWEEN (R142) -/

theorem realBetween_of_unseeded {e : Engine} {s : State} (lo hi : Word) (h : seededBit e s = false) :
    realBetween e lo hi s = .next (raise .notSeeded s) := ifSeeded_of_unseeded _ h

theorem realBetween_of_not_finite {e : Engine} {s : State} {lo hi : Word} (hs : seededBit e s = true)
    (h : lo.extractLsb' 52 11 = 0x7FF#11 ∨ hi.extractLsb' 52 11 = 0x7FF#11) :
    realBetween e lo hi s = .next (raise .badFloat s) :=
  (ifSeeded_of_seeded _ hs).trans
    (ifFinite_of_not _ (h.imp (f64Finite_eq_false_iff_field lo).mpr (f64Finite_eq_false_iff_field hi).mpr))

theorem realBetween_of_finite {e : Engine} {s : State} {lo hi : Word} (hs : seededBit e s = true)
    (hlo : lo.extractLsb' 52 11 ≠ 0x7FF#11) (hhi : hi.extractLsb' 52 11 ≠ 0x7FF#11) :
    realBetween e lo hi s = .next (respond (realBetweenBits lo hi (draw e s).1) (draw e s).2) :=
  (ifSeeded_of_seeded _ hs).trans
    (ifFinite_of_finite _ ((f64Finite_iff_field lo).mpr hlo) ((f64Finite_iff_field hi).mpr hhi))

/-- The example of R142: from `SM = 0`, `2.0, 5.0` gives `3.0 * 0.8833108082136425`. -/
theorem realBetweenBits_two_five :
    realBetweenBits 0x4000000000000000#64 0x4014000000000000#64 (mix64 (smNext 0)) = 0x4005330FC5638ACA#64 := by
  decide +kernel

/-- Settles O39: the two checks in order on either engine, then the one draw and the two rounded operations. -/
theorem realBetweenScalesOnly : Obligations.RealBetweenScalesOnly := by
  unfold Obligations.RealBetweenScalesOnly
  refine ⟨fun _ _ => ⟨rfl, rfl⟩, fun _ => realBetween_of_unseeded (e := .sm), fun _ => realBetween_of_unseeded (e := .xs),
    fun _ _ _ => realBetween_of_not_finite (e := .sm), fun _ _ _ => realBetween_of_not_finite (e := .xs), ?_, ?_, ?_⟩
  · rintro s lo hi _ hs hlo hhi rfl
    exact realBetween_of_finite (e := .sm) hs hlo hhi
  · rintro s lo hi _ hs hlo hhi rfl
    exact realBetween_of_finite (e := .xs) hs hlo hhi
  · intro s hs hsm
    refine ⟨_, realBetween_of_finite (e := .sm) hs (by decide) (by decide), ?_⟩
    rw [respond_rsp, draw_sm, hsm, realBetweenBits_two_five]
    rfl

end Sys2Proof.Machine
end

section
/-!
PROOF. STATUS (44_control.md R160): the bits of the word it answers, that it answers in every state and changes nothing that it
reads, and the rule's example.
-/

namespace Sys2Proof.Machine

/-! ## The word that STATUS answers -/

theorem statusWord_getLsbD (s : State) (j : Nat) : (statusWord s).getLsbD j =
    if j < 2 then s.seeded.getLsbD j else if j < 8 then false else (readErr s).getLsbD (j - 8) := by
  simp only [statusWord, BitVec.getLsbD_setWidth, BitVec.getLsbD_append, BitVec.getLsbD_zero, Nat.sub_sub,
    show j - 2 < 6 ↔ j < 8 by omega]
  by_cases hj : j < 64
  · simp only [hj, decide_true, Bool.true_and]
  · simp only [show ¬ j < 64 by omega, show ¬ j < 2 by omega, show ¬ j < 8 by omega, if_false, decide_false, Bool.false_and,
      BitVec.getLsbD_of_ge (readErr s) (j - 8) (by omega)]

theorem statusWord_extract_seeded (s : State) : (statusWord s).extractLsb' 0 2 = s.seeded := by
  refine BitVec.eq_of_getLsbD_eq fun i hi => ?_
  rw [BitVec.getLsbD_extractLsb', statusWord_getLsbD, Nat.zero_add, if_pos hi, decide_eq_true hi, Bool.true_and]

/-- Between SEEDED and ERR the word is 0. -/
theorem statusWord_extract_gap (s : State) : (statusWord s).extractLsb' 2 6 = 0#6 := by
  refine BitVec.eq_of_getLsbD_eq fun i hi => ?_
  rw [BitVec.getLsbD_extractLsb', statusWord_getLsbD, if_neg (by omega), if_pos (by omega), Bool.and_false,
    BitVec.getLsbD_zero]

/-- Above ERR the word is 0. -/
theorem statusWord_extract_high (s : State) : (statusWord s).extractLsb' 16 48 = 0#48 := by
  refine BitVec.eq_of_getLsbD_eq fun i _ => ?_
  rw [BitVec.getLsbD_extractLsb', statusWord_getLsbD, if_neg (by omega), if_neg (by omega),
    BitVec.getLsbD_of_ge _ _ (by omega), Bool.and_false, BitVec.getLsbD_zero]

/-- The word depends on SEEDED and ERR alone. -/
theorem statusWord_congr {s t : State} (hseeded : t.seeded = s.seeded) (herr : t.err = s.err) :
    statusWord t = statusWord s := by
  rw [statusWord, statusWord, readErr_congr_err herr, hseeded]

/-! ## STATUS -/

theorem exec_status (s : State) : exec .status s = .next (respond (statusWord s) s) := rfl

/-- A second STATUS answers as the first, which changed neither SEEDED nor ERR. -/
theorem exec_status_twice {s t u : State} (ht : exec .status s = .next t) (hu : exec .status t = .next u) :
    u.rsp = t.rsp := by
  cases (exec_status s).symm.trans ht
  cases (exec_status _).symm.trans hu
  rw [respond_rsp, respond_rsp, statusWord_congr (respond_seeded _ s) (respond_err _ s)]

/-! ## The example of R160 -/

theorem perform_drawXs_of_unseeded {s : State} (h : s.seeded.getLsbD 1 = false) :
    perform .drawXs s = some (⟨errCode .notSeeded, 0⟩, raise .notSeeded s) := by
  simp [perform, holds, requestsEntropy, exec_drawXs_of_unseeded h]

theorem perform_seedSm (w : Word) (s : State) :
    perform (.seedSm w) s = some (⟨statusOk, 0⟩, respond 0 (seedEngine .sm w s)) := rfl

theorem perform_status (s : State) :
    perform .status s = some (⟨statusOk, statusWord s⟩, respond (statusWord s) s) := rfl

/-- The refused draw has set `ERR[2]`, and the seeding `SEEDED[0]`. -/
theorem statusWord_after_notSeeded_seedSm {s : State} (hseeded : s.seeded = 0) (herr : s.err = 0) (w : Word) :
    statusWord (respond 0 (seedEngine .sm w (raise .notSeeded s))) = 0x401#64 := by
  simp only [statusWord, readErr, respond_seeded, respond_err, seedEngine_sm, raise_seeded, raise_err, hseeded, herr]
  decide

theorem performAll_drawXs_seedSm_status {s : State} (hseeded : s.seeded = 0) (herr : s.err = 0) (w : Word) :
    performAll [.drawXs, .seedSm w, .status] s =
      some ([(.drawXs, ⟨errCode .notSeeded, 0⟩), (.seedSm w, ⟨statusOk, 0⟩), (.status, ⟨statusOk, 0x401#64⟩)],
        respond 0x401#64 (respond 0 (seedEngine .sm w (raise .notSeeded s)))) := by
  have hdraw := perform_drawXs_of_unseeded (s := s) (by rw [hseeded]; rfl)
  simp only [performAll, hdraw, perform_seedSm, perform_status, statusWord_after_notSeeded_seedSm hseeded herr]

/-- Settles O43: the fields of the word that is answered in every state, and the example's three commands in order. -/
theorem statusReadsErrAndSeeded : Obligations.StatusReadsErrAndSeeded := by
  unfold Obligations.StatusReadsErrAndSeeded
  refine ⟨fun _ _ => ⟨rfl, rfl⟩, ?_, fun _ _ _ => exec_status_twice, ?_⟩
  · intro s
    exact ⟨statusWord s, exec_status s, statusWord_extract_seeded s, statusWord_extract_gap s, statusWord_extract_err s,
      statusWord_extract_high s⟩
  · intro s hseeded herr
    exact ⟨_, _, performAll_drawXs_seedSm_status hseeded herr 5, rfl⟩

end Sys2Proof.Machine
end

section
/-!
PROOF. Errors (60_exceptions.md R181 to R185): which commands read an engine, what makes each command end with each code, and what
a command that ends with an error leaves.
-/

namespace Sys2Proof.Machine

/-! ## The commands that read an engine (R182) -/

/-- The engine that a command reads, and so the one whose seeding it checks first. -/
def engineRead : Instr → Option Engine
  | .drawSm | .boundedSm _ | .boundedRejSm _ | .real01Sm | .realBetweenSm _ _ | .stateRdSm _ => some .sm
  | .drawXs | .boundedXs _ | .boundedRejXs _ | .real01Xs | .realBetweenXs _ _ | .stateRdXs _ => some .xs
  | .seedSm _ | .seedXs _ | .seedEntSm | .seedEntXs | .minSm | .minXs | .maxSm | .maxXs | .status => none

/-- Such a command checks the seeding of its engine before anything else. -/
theorem exec_eq_ifSeeded {i : Instr} {e : Engine} (hr : engineRead i = some e) (s : State) :
    ∃ body, exec i s = ifSeeded e s body := by
  cases i <;> cases hr <;> exact ⟨_, rfl⟩

theorem exec_of_unseeded {i : Instr} {e : Engine} {s : State} (hr : engineRead i = some e) (h : seededBit e s = false) :
    exec i s = .next (raise .notSeeded s) := by
  obtain ⟨body, hbody⟩ := exec_eq_ifSeeded hr s
  rw [hbody, ifSeeded_of_unseeded body h]

/-! ## The cause of each error (R181, R185) -/

theorem errCode_injective : Function.Injective errCode := by
  intro k k'
  cases k <;> cases k' <;> decide

/-- What makes the command `i` end with each code at `s`, the checks in the order of R185: an operand error is that of a seeded
engine. No decoded command ends with ILLEGAL_CMD. -/
def ErrorCause (i : Instr) (s : State) : ErrCode → Prop
  | .illegalCmd => False
  | .notSeeded => ∃ e, engineRead i = some e ∧ seededBit e s = false
  | .boundZero => ((i = .boundedSm 0 ∨ i = .boundedRejSm 0) ∧ seededBit .sm s = true) ∨
      ((i = .boundedXs 0 ∨ i = .boundedRejXs 0) ∧ seededBit .xs s = true)
  | .badFloat => (∃ lo hi, i = .realBetweenSm lo hi ∧ seededBit .sm s = true) ∨
      ∃ lo hi, i = .realBetweenXs lo hi ∧ seededBit .xs s = true
  | .entropyFail => (i = .seedEntSm ∨ i = .seedEntXs) ∧ ∃ rest, s.ent = .fail :: rest
  | .badIndex => (∃ a, i = .stateRdSm a ∧ a ≠ 0 ∧ seededBit .sm s = true) ∨
      ∃ a, i = .stateRdXs a ∧ 3 < a.toNat ∧ seededBit .xs s = true

/-- Every error that an outcome answers with has the property `C`. -/
def RaisesOnly (C : ErrCode → Prop) (o : Result) : Prop :=
  ∀ t r k, o = .next t → t.rsp = some r → r.status = errCode k → C k

section
variable {C : ErrCode → Prop} {s : State} {body : Result}

theorem raisesOnly_respond (d : Word) : RaisesOnly C (.next (respond d s)) := by
  rintro _ _ k ⟨⟩ ⟨⟩ hk
  exact absurd hk.symm (errCode_ne_zero k)

theorem raisesOnly_raise {k : ErrCode} (h : C k) : RaisesOnly C (.next (raise k s)) := by
  rintro _ _ k' ⟨⟩ ⟨⟩ hk
  exact errCode_injective hk ▸ h

theorem raisesOnly_ifBound {n : Word} (hc : n = 0 → C .boundZero) (h : RaisesOnly C body) :
    RaisesOnly C (ifBound n s body) := by
  by_cases hn : n = 0
  · subst hn; rw [ifBound_zero]; exact raisesOnly_raise (hc rfl)
  · rwa [ifBound_of_ne _ hn]

theorem raisesOnly_ifFinite {lo hi : Word} (hc : C .badFloat) (h : RaisesOnly C body) :
    RaisesOnly C (ifFinite lo hi s body) := by
  unfold ifFinite
  split
  · exact h
  · exact raisesOnly_raise hc

theorem raisesOnly_drawAndAnswer (e : Engine) (f : Word → Word) : RaisesOnly C (drawAndAnswer e f s) :=
  raisesOnly_respond _

theorem raisesOnly_seedEnt {e : Engine} (hs : s.rsp = none) (hc : ∀ rest, s.ent = .fail :: rest → C .entropyFail) :
    RaisesOnly C (seedEnt e s) := by
  rcases entropyRead_cases s with ⟨w, rest, he, -⟩ | ⟨rest, he, -⟩ | ⟨he, -⟩
  · rw [seedEnt_of_word he]; exact raisesOnly_respond _
  · rw [seedEnt_of_fail he]; exact raisesOnly_raise (hc rest he)
  · rw [seedEnt_of_waiting he]
    rintro _ r k ⟨⟩ hr -
    simp [hs] at hr

end

section
variable {i : Instr} {e : Engine} {s : State}

theorem raisesOnly_ifSeeded {body : Result} (he : engineRead i = some e)
    (h : seededBit e s = true → RaisesOnly (ErrorCause i s) body) : RaisesOnly (ErrorCause i s) (ifSeeded e s body) := by
  cases hs : seededBit e s with
  | false => rw [ifSeeded_of_unseeded _ hs]; exact raisesOnly_raise ⟨e, he, hs⟩
  | true => rw [ifSeeded_of_seeded _ hs]; exact h hs

theorem raisesOnly_bounded {n : Word} (he : engineRead i = some e)
    (hc : n = 0 → seededBit e s = true → ErrorCause i s .boundZero) : RaisesOnly (ErrorCause i s) (bounded e n s) :=
  raisesOnly_ifSeeded he fun hs => raisesOnly_ifBound (hc · hs) (raisesOnly_drawAndAnswer _ _)

theorem raisesOnly_boundedRej {n : Word} (he : engineRead i = some e)
    (hc : n = 0 → seededBit e s = true → ErrorCause i s .boundZero) : RaisesOnly (ErrorCause i s) (boundedRej e n s) := by
  refine raisesOnly_ifSeeded he fun hs => raisesOnly_ifBound (hc · hs) ?_
  cases rejLoop e n Config.rejFuel s with
  | none => rintro _ _ _ ⟨⟩
  | some p => exact raisesOnly_respond p.1

theorem raisesOnly_stateRead {index : Word} (he : engineRead i = some e)
    (hc : stateWord e index s = none → seededBit e s = true → ErrorCause i s .badIndex) :
    RaisesOnly (ErrorCause i s) (stateRead e index s) := by
  refine raisesOnly_ifSeeded he fun hs => ?_
  cases hw : stateWord e index s with
  | none => exact raisesOnly_raise (hc hw hs)
  | some w => exact raisesOnly_respond w

end

theorem ne_zero_of_stateWord_sm_eq_none {index : Word} {s : State} (h : stateWord .sm index s = none) : index ≠ 0 := by
  rintro rfl
  cases h

theorem three_lt_of_stateWord_xs_eq_none {index : Word} {s : State} (h : stateWord .xs index s = none) :
    3 < index.toNat := by
  simpa [h] using stateWord_cases .xs index s

/-- A command ends with an error only for the cause of that error. -/
theorem exec_raisesOnly (i : Instr) {s : State} (hs : s.rsp = none) : RaisesOnly (ErrorCause i s) (exec i s) := by
  cases i with
  | seedSm w => exact raisesOnly_respond 0
  | seedXs w => exact raisesOnly_respond 0
  | seedEntSm => exact raisesOnly_seedEnt hs fun rest he => ⟨.inl rfl, rest, he⟩
  | seedEntXs => exact raisesOnly_seedEnt hs fun rest he => ⟨.inr rfl, rest, he⟩
  | drawSm => exact raisesOnly_ifSeeded rfl fun _ => raisesOnly_drawAndAnswer _ _
  | drawXs => exact raisesOnly_ifSeeded rfl fun _ => raisesOnly_drawAndAnswer _ _
  | boundedSm n => exact raisesOnly_bounded rfl fun hn h => .inl ⟨.inl (hn ▸ rfl), h⟩
  | boundedXs n => exact raisesOnly_bounded rfl fun hn h => .inr ⟨.inl (hn ▸ rfl), h⟩
  | boundedRejSm n => exact raisesOnly_boundedRej rfl fun hn h => .inl ⟨.inr (hn ▸ rfl), h⟩
  | boundedRejXs n => exact raisesOnly_boundedRej rfl fun hn h => .inr ⟨.inr (hn ▸ rfl), h⟩
  | real01Sm => exact raisesOnly_ifSeeded rfl fun _ => raisesOnly_drawAndAnswer _ _
  | real01Xs => exact raisesOnly_ifSeeded rfl fun _ => raisesOnly_drawAndAnswer _ _
  | realBetweenSm lo hi =>
    exact raisesOnly_ifSeeded rfl fun h => raisesOnly_ifFinite (.inl ⟨lo, hi, rfl, h⟩) (raisesOnly_drawAndAnswer _ _)
  | realBetweenXs lo hi =>
    exact raisesOnly_ifSeeded rfl fun h => raisesOnly_ifFinite (.inr ⟨lo, hi, rfl, h⟩) (raisesOnly_drawAndAnswer _ _)
  | minSm => exact raisesOnly_respond minv
  | minXs => exact raisesOnly_respond minv
  | maxSm => exact raisesOnly_respond maxv
  | maxXs => exact raisesOnly_respond maxv
  | stateRdSm index =>
    exact raisesOnly_stateRead rfl fun hw h => .inl ⟨index, rfl, ne_zero_of_stateWord_sm_eq_none hw, h⟩
  | stateRdXs index =>
    exact raisesOnly_stateRead rfl fun hw h => .inr ⟨index, rfl, three_lt_of_stateWord_xs_eq_none hw, h⟩
  | status => exact raisesOnly_respond _

/-- Settles O44: a command that reads an engine checks its seeding first, and NOT_SEEDED has no other cause. -/
theorem unseededEngineIsNotRead : Obligations.UnseededEngineIsNotRead := by
  unfold Obligations.UnseededEngineIsNotRead
  refine ⟨?_, ?_, ?_⟩
  · rintro s _ n lo hi index hs rfl
    have hread {i : Instr} (hi : engineRead i = some .sm) := exec_of_unseeded (s := s) hi hs
    exact ⟨hread rfl, hread rfl, hread rfl, hread rfl, hread rfl, hread rfl⟩
  · rintro s _ n lo hi index hs rfl
    have hread {i : Instr} (hi : engineRead i = some .xs) := exec_of_unseeded (s := s) hi hs
    exact ⟨hread rfl, hread rfl, hread rfl, hread rfl, hread rfl, hread rfl⟩
  · intro s t r w i hi hs ht hr hstatus
    have hnone : ∀ i ∈ [.seedSm w, .seedXs w, .seedEntSm, .seedEntXs, .minSm, .minXs, .maxSm, .maxXs, .status],
        engineRead i = none := by simp [engineRead]
    obtain ⟨e, he, -⟩ : ErrorCause i s .notSeeded := exec_raisesOnly i hs t r .notSeeded ht hr hstatus
    rw [hnone i hi] at he
    cases he

/-! ## The order of errors (R185) -/

theorem decodeOp_error_congr {op : Nat} {e : Engine} {a b : Word} {r : Reject} (h : decodeOp op e a b = .error r)
    (a' b' : Word) : decodeOp op e a' b' = .error r := by
  rcases (exists_decodeOp_error_iff op e a b).mp ⟨r, h⟩ with hop | ⟨rfl, rfl⟩
  · rwa [decodeOp_of_reserved hop] at h ⊢
  · exact h

/-- Why a byte is illegal does not depend on the operand words. -/
theorem decode_error_congr {c : BitVec 8} {a b : Word} {r : Reject} (h : decode ⟨c, a, b⟩ = .error r) (a' b' : Word) :
    decode ⟨c, a', b'⟩ = .error r := by
  simp only [decode] at h ⊢
  split_ifs at h ⊢ with hrsv
  · exact h
  · exact decodeOp_error_congr h a' b'

/-- Settles O46: an illegal byte is refused by the decoder, the seeding is checked before the operands, and each error of a
decoded command has its own cause. -/
theorem errorPriority : Obligations.ErrorPriority := by
  unfold Obligations.ErrorPriority
  refine ⟨fun s k r hc hs hd => ⟨_, step_eq_illegalCmd hc hs hd, rfl⟩, fun c a b a' b' r h => decode_error_congr h a' b',
    ?_, ?_, ?_⟩
  · intro s hs i hi
    have hread : ∀ i ∈ [Instr.boundedSm 0, .boundedRejSm 0, .stateRdSm 1, .realBetweenSm 0x7FF0000000000000#64 0],
        engineRead i = some .sm := by simp [engineRead]
    exact ⟨_, exec_of_unseeded (hread i hi) hs, rfl⟩
  · intro s hs i hi
    have hread : ∀ i ∈ [Instr.boundedXs 0, .boundedRejXs 0, .stateRdXs 4, .realBetweenXs 0x7FF0000000000000#64 0],
        engineRead i = some .xs := by simp [engineRead]
    exact ⟨_, exec_of_unseeded (hread i hi) hs, rfl⟩
  · intro s i t r hs ht hr
    have hcause (k : ErrCode) : r.status = errCode k → ErrorCause i s k := exec_raisesOnly i hs t r k ht hr
    exact ⟨hcause .badIndex, hcause .boundZero, hcause .badFloat, hcause .entropyFail, hcause .illegalCmd⟩

/-! ## What an error changes (R184) -/

theorem Failure.host_eq {k : ErrCode} {s s1 : State} (h : Failure k s s1) : s1.host = s.host := by
  rcases h with rfl | ⟨-, rest, -, rfl⟩ <;> rfl

/-- An error uses up nothing of the entropy source but the one failed request. -/
theorem Failure.ent_cases {k : ErrCode} {s s1 : State} (h : Failure k s s1) :
    s1.ent = s.ent ∨ (k = .entropyFail ∧ s.ent = .fail :: s1.ent) := by
  rcases h with rfl | ⟨hk, rest, he, rfl⟩
  · exact .inl rfl
  · exact .inr ⟨hk, he⟩

/-- After an error the state is that of before, but for the response, the bit of `ERR` and the entropy source. -/
theorem Failure.raise_eq {k : ErrCode} {s s1 : State} (h : Failure k s s1) :
    raise k s1 = { s with
      cmd := none, rsp := some ⟨errCode k, 0⟩, err := s.err ||| (1#8 <<< (errCode k).toNat), ent := s1.ent } := by
  rcases h with rfl | ⟨-, rest, -, rfl⟩ <;> rfl

/-- A command that does not wait and whose status is not OK ends with an error. -/
theorem exec_eq_raise {i : Instr} {s t : State} {r : Response} (hs : s.rsp = none) (h : exec i s = .next t)
    (hr : t.rsp = some r) (hstatus : r.status ≠ statusOk) : ∃ k s1, Failure k s s1 ∧ t = raise k s1 := by
  have he := exec_ends i s
  rw [h] at he
  cases he with
  | holds _ => simp [hs] at hr
  | error k s1 hf => exact ⟨k, s1, hf, rfl⟩
  | answer d s1 _ => cases hr; exact absurd rfl hstatus

/-- A step that finds RSP free and answers a status other than OK is an error of the block. -/
theorem step_eq_raise {s t : State} {r : Response} (hs : s.rsp = none) (h : step s = .next t) (hr : t.rsp = some r)
    (hstatus : r.status ≠ statusOk) : ∃ k s1, Failure k s s1 ∧ t = raise k s1 := by
  rcases step_cases s with ⟨-, hstep⟩ | ⟨-, -, -, -, -, hstep⟩ | ⟨-, i, -, -, -, -, hstep⟩ <;> rw [hstep] at h
  · cases h
    simp [hostStep_rsp_none hs] at hr
  · cases h
    exact ⟨.illegalCmd, s, .inl rfl, rfl⟩
  · exact exec_eq_raise hs h hr hstatus

/-! ## The host's next action on the channels (R203) -/

/-- A response that waits on RSP is taken. -/
theorem step_of_take {s : State} {r : Response} {rest : List HostAct} (hh : s.host = .take :: rest)
    (hr : s.rsp = some r) : step s = .next { s with rsp := none, taken := s.taken ++ [r], host := rest } := by
  simp [step, hr, hostStep, hh, hostTake]

/-- A command is accepted where both channels are free. -/
theorem step_of_send {s : State} {k : Command} {rest : List HostAct} (hh : s.host = .send k :: rest)
    (hc : s.cmd = none) (hr : s.rsp = none) : step s = .next { s with cmd := some k, host := rest } := by
  simp [step, hc, hr, hostStep, hh, hostSend]

/-- Once the response to a finished command is taken, the next command is accepted. -/
theorem step_take_then_send {t : State} {r : Response} {k : Command} {rest : List HostAct}
    (hh : t.host = .take :: .send k :: rest) (hc : t.cmd = none) (hr : t.rsp = some r) :
    ∃ u, step t = .next u ∧ step u = .next { u with cmd := some k, host := rest } :=
  ⟨_, step_of_take hh hr, step_of_send rfl hc rfl⟩

/-- Settles O45: a step that answers a status other than OK is `raise` of some code, with its six codes and its frame. -/
theorem errorsChangeOnlyTheirBit : Obligations.ErrorsChangeOnlyTheirBit := by
  unfold Obligations.ErrorsChangeOnlyTheirBit
  intro s _ t S d _ hs h hr hS
  obtain ⟨k, s1, hf, rfl⟩ := step_eq_raise hs h hr hS
  obtain ⟨rfl, rfl⟩ : errCode k = S ∧ 0 = d := by simpa using hr
  obtain ⟨hlow, hhigh⟩ := errCode_toNat_range k
  refine ⟨hlow, hhigh, rfl, hf.raise_eq, ?_, fun k' rest hh => ?_⟩
  · exact hf.ent_cases.imp_right fun ⟨hk, he⟩ => ⟨congrArg errCode hk, he⟩
  · exact step_take_then_send (hf.host_eq.trans hh) (raise_cmd k s1) (raise_rsp k s1)

end Sys2Proof.Machine
end

section
/-!
PROOF. The channels CMD and RSP (70_reset_and_hazards.md R203): when the turn is the host's, what a host that must wait leaves, and
that one command is outstanding at a time.
-/

namespace Sys2Proof.Machine

/-! ## Whose turn it is -/

/-- The block has nothing to perform, so the host acts: no command is outstanding, a response waits on RSP, or the command waits
for the entropy source. -/
theorem step_eq_hostStep {s : State} (h : s.cmd = none ∨ s.rsp ≠ none ∨ blockHolds s = true) :
    step s = .next (hostStep s) := by
  rcases step_cases s with ⟨-, hs⟩ | ⟨k, r, hc, hr, hd, -⟩ | ⟨k, i, hc, hr, hd, hh, -⟩
  · exact hs
  · have hb : blockHolds s = false := by simp [blockHolds, hc, hd]
    simp [hc, hr, hb] at h
  · have hb : blockHolds s = false := (blockHolds_eq_holds hc hd).trans hh
    simp [hc, hr, hb] at h

/-- A block that waits for the entropy source has a command outstanding. -/
theorem cmd_ne_none_of_blockHolds {s : State} (h : blockHolds s = true) : s.cmd ≠ none := by
  intro hc
  simp [blockHolds, hc] at h

/-! ## A host that waits -/

/-- A host with no action to come changes nothing. -/
theorem hostStep_of_nil {s : State} (hh : s.host = []) : hostStep s = s := by
  simp [hostStep, hh]

/-- Where a channel is not free, the host's command is still to come. -/
theorem hostStep_of_send_blocked {s : State} {k : Command} {rest : List HostAct} (hh : s.host = .send k :: rest)
    (h : s.cmd ≠ none ∨ s.rsp ≠ none) : hostStep s = s := by
  have hbusy : ¬ (s.cmd = none ∧ s.rsp = none) := not_and_or.mpr h
  simp [hostStep, hh, hostSend, hbusy]

/-- Settles O9: in the three waiting cases the turn is the host's, which finds a channel not free or has no action to come. -/
theorem oneCommandOutstanding : Obligations.OneCommandOutstanding := by
  unfold Obligations.OneCommandOutstanding
  refine ⟨fun s k rest => step_of_send, fun s k rest r hh hr => ?_, fun s r hh hr => ?_, fun s k rest hh _ hb => ?_,
    fun s r rest => step_of_take⟩
  · have hbusy : s.rsp ≠ none := by simp [hr]
    rw [step_eq_hostStep (.inr (.inl hbusy)), hostStep_of_send_blocked hh (.inr hbusy)]
  · have hbusy : s.rsp ≠ none := by simp [hr]
    rw [step_eq_hostStep (.inr (.inl hbusy)), hostStep_of_nil hh]
  · rw [step_eq_hostStep (.inr (.inr hb)), hostStep_of_send_blocked hh (.inl (cmd_ne_none_of_blockHolds hb))]

end Sys2Proof.Machine
end

section
/-!
PROOF. Decoding and encoding undo each other (30_encoding.md R61, R63, R65, R66, R68), and the words written out from the
opcode map.
-/

namespace Sys2Proof.Machine

theorem decode_encode (i : Instr) : decode (encode i) = .ok i := by
  cases i <;> rfl

theorem byte_mem_legalBytes_of_decode {k : Command} {i : Instr} (h : decode k = .ok i) : k.byte ∈ legalBytes :=
  (mem_legalBytes_iff k.byte).mpr ((exists_decode_ok_iff k).mp ⟨i, h⟩)

/-- The encoder gives back a decoded command but for the words that it does not read: one case for each legal byte. -/
theorem encode_of_decode {k : Command} {i : Instr} (h : decode k = .ok i) :
    encode i = ⟨k.byte, if k.readsA then k.a else 0, if k.readsB then k.b else 0⟩ := by
  have hbyte : k.byte ∈ legalBytes := byte_mem_legalBytes_of_decode h
  obtain ⟨c, a, b⟩ := k
  change c ∈ legalBytes at hbyte
  fin_cases hbyte <;> cases h <;> rfl

/-- Settles O2: one case for each instruction, and one for each legal byte. -/
theorem decodeAndEncodeAgree : Obligations.DecodeAndEncodeAgree := by
  unfold Obligations.DecodeAndEncodeAgree
  exact ⟨decode_encode, fun k i => encode_of_decode⟩

/-- Settles O4: the decoder evaluated on the words as they are written out. -/
theorem opcodeMapWords : Obligations.OpcodeMapWords := by
  unfold Obligations.OpcodeMapWords
  decide

end Sys2Proof.Machine
end

section
/-!
PROOF. The invariant (10_state.md R25; 41_xoshiro256ss.md R107; 30_encoding.md R62; 70_reset_and_hazards.md R203): it holds at
reset, each of the two ends of a command keeps it, and so does each action of the host.
-/

namespace Sys2Proof.Machine

/-! ## What a command leaves of the host's side -/

theorem sameHostSide_seedEngine (e : Engine) (w : Word) (s : State) : sameHostSide s (seedEngine e w s) := by
  cases e <;> exact ⟨rfl, rfl, rfl⟩

theorem Progress.sameHostSide {i : Instr} {s s1 : State} (h : Progress i s s1) : sameHostSide s s1 := by
  rcases h with rfl | ⟨e, k, -, -, rfl⟩ | ⟨e, w, s0, -, rfl | ⟨rest, -, rfl⟩, rfl⟩
  · exact ⟨rfl, rfl, rfl⟩
  · exact sameHostSide_afterDraws e (k + 1) s
  · exact sameHostSide_seedEngine e w s0
  · exact sameHostSide_seedEngine e w { s with ent := rest }

/-- An error changes nothing but the entropy source's answers, before it is recorded and answered. -/
theorem Failure.eq_withEnt {k : ErrCode} {s s1 : State} (h : Failure k s s1) : s1 = { s with ent := s1.ent } := by
  rcases h with rfl | ⟨-, rest, -, rfl⟩ <;> rfl

theorem Failure.sameHostSide {k : ErrCode} {s s1 : State} (h : Failure k s s1) : sameHostSide s s1 := by
  rw [h.eq_withEnt]
  exact ⟨rfl, rfl, rfl⟩

/-! ## The all-zero state of XS (R107) -/

theorem xsNonzeroWhenSeeded_iff (s : State) :
    xsNonzeroWhenSeeded s = true ↔ (seededBit .xs s = true → s.xs ≠ ⟨0, 0, 0, 0⟩) := by
  cases h : seededBit .xs s <;> simp [xsNonzeroWhenSeeded, h]

theorem xsNext_iterate_ne_zero {x : XsWords} (h : x ≠ ⟨0, 0, 0, 0⟩) (k : Nat) : xsNext^[k] x ≠ ⟨0, 0, 0, 0⟩ := by
  induction k with
  | zero => exact h
  | succ k ih =>
    rw [Function.iterate_succ_apply']
    exact xsNext_ne_zero ih

theorem xsNonzeroWhenSeeded_seedEngine {s : State} (e : Engine) (w : Word) (h : xsNonzeroWhenSeeded s = true) :
    xsNonzeroWhenSeeded (seedEngine e w s) = true := by
  rw [xsNonzeroWhenSeeded_iff] at h ⊢
  cases e with
  | sm => simpa [seedEngine, seededBit, engineIndex] using h
  | xs => exact fun _ => xsOfSeed_ne_zero w

/-- Neither draws nor a seeding bring a seeded XS to the all-zero state. -/
theorem Progress.xsNonzeroWhenSeeded {i : Instr} {s s1 : State} (hp : Progress i s s1)
    (h : Machine.xsNonzeroWhenSeeded s = true) : Machine.xsNonzeroWhenSeeded s1 = true := by
  rcases hp with rfl | ⟨e, k, -, -, rfl⟩ | ⟨e, w, s0, -, rfl | ⟨rest, -, rfl⟩, rfl⟩
  · exact h
  · rw [xsNonzeroWhenSeeded_iff] at h ⊢
    cases e with
    | sm => rw [afterDraws_sm]; exact h
    | xs => rw [afterDraws_xs]; exact fun hs => xsNext_iterate_ne_zero (h hs) (k + 1)
  · exact xsNonzeroWhenSeeded_seedEngine e w h
  · exact xsNonzeroWhenSeeded_seedEngine (s := { s with ent := rest }) e w h

/-! ## The two ends of a command -/

theorem inv_respond {i : Instr} {s s1 : State} (d : Word) (hp : Progress i s s1) (h : s.Inv) : (respond d s1).Inv := by
  obtain ⟨herr, hxs, hrsp, -, -⟩ := h
  obtain ⟨-, htaken, -⟩ := hp.sameHostSide
  refine ⟨?_, hp.xsNonzeroWhenSeeded hxs, ?_, rfl, rfl⟩
  · simpa [errReservedClear, hp.err_eq] using herr
  · simp only [responsesLegal, Bool.and_eq_true] at hrsp ⊢
    exact ⟨by simp [responseLegal, statusOk], by simpa [htaken] using hrsp.2⟩

/-- Recording an error of any code leaves ERR's bits 0 and 7 clear and sets the bit of the code. -/
theorem recordError_bits (k : ErrCode) (err : BitVec 8) (h : err &&& 0x81#8 = 0) :
    (err ||| (1#8 <<< (errCode k).toNat)) &&& 0x81#8 = 0 ∧
      (err ||| (1#8 <<< (errCode k).toNat)).getLsbD (errCode k).toNat = true := by
  revert err
  cases k <;> decide

theorem responseLegal_error (k : ErrCode) : responseLegal ⟨errCode k, 0⟩ = true := by
  cases k <;> rfl

theorem inv_raise {k : ErrCode} {s s1 : State} (hf : Failure k s s1) (h : s.Inv) : (raise k s1).Inv := by
  obtain ⟨herr, hxs, hrsp, -, -⟩ := h
  obtain ⟨hclear, hset⟩ := recordError_bits k s.err (by simpa [errReservedClear] using herr)
  rw [hf.eq_withEnt]
  refine ⟨?_, hxs, ?_, rfl, ?_⟩
  · simpa [errReservedClear] using hclear
  · simp only [responsesLegal, Bool.and_eq_true] at hrsp ⊢
    exact ⟨by simpa using responseLegal_error k, hrsp.2⟩
  · simp only [errorRecorded, raise_rsp, raise_err, hset, Bool.or_true]

/-! ## The host's actions -/

theorem inv_resetBlock {s : State} (h : responsesLegal s = true) : (resetBlock s).Inv := by
  refine ⟨by simp [errReservedClear], by simp [xsNonzeroWhenSeeded_iff, seededBit], ?_, by simp [oneOutstanding],
    by simp [errorRecorded]⟩
  simp only [responsesLegal, Bool.and_eq_true, resetBlock_rsp, resetBlock_taken] at h ⊢
  exact ⟨rfl, h.2⟩

theorem inv_hostStep {s : State} (h : s.Inv) : (hostStep s).Inv := by
  rcases hostStep_cases s with ⟨hs, -⟩ | ⟨k, rest, -, -, hr, hs⟩ | ⟨r, rest, -, hr, hs⟩ | ⟨rest, -, hs⟩ <;> rw [hs]
  · exact h
  · obtain ⟨herr, hxs, hrsp, -, hrec⟩ := h
    exact ⟨herr, hxs, hrsp, by simp [oneOutstanding, hr], hrec⟩
  · obtain ⟨herr, hxs, hrsp, -, -⟩ := h
    refine ⟨herr, hxs, ?_, by simp [oneOutstanding], rfl⟩
    simpa [responsesLegal, hr, and_comm] using hrsp
  · obtain ⟨-, -, hrsp, -, -⟩ := h
    exact inv_resetBlock hrsp

/-! ## The statements -/

/-- What performing a command leaves has the invariant. -/
theorem inv_of_exec {i : Instr} {s t : State} (h : s.Inv) (he : exec i s = .next t) : t.Inv := by
  have hends := exec_ends i s
  rw [he] at hends
  cases hends with
  | holds _ => exact h
  | error k s1 hf => exact inv_raise hf h
  | answer d s1 hp => exact inv_respond d hp h

/-- Settles O54: the host acts, an illegal byte is answered, or a command is performed; each keeps the invariant. -/
theorem stepKeepsInvariant : Obligations.StepKeepsInvariant := by
  unfold Obligations.StepKeepsInvariant
  intro s t h ht
  rcases step_cases s with ⟨-, hs⟩ | ⟨-, -, -, -, -, hs⟩ | ⟨-, i, -, -, -, -, hs⟩ <;> rw [hs] at ht
  · cases ht
    exact inv_hostStep h
  · cases ht
    exact inv_raise (.inl rfl) h
  · exact inv_of_exec h ht

/-- Settles O53: every part of the invariant, evaluated. -/
theorem resetMeetsInvariant : Obligations.ResetMeetsInvariant := by
  unfold Obligations.ResetMeetsInvariant
  decide

/-- Settles O12: the fields of `State.reset` and the two constants as they are defined. -/
theorem resetLeavesUnseeded : Obligations.ResetLeavesUnseeded := by
  unfold Obligations.ResetLeavesUnseeded
  decide

end Sys2Proof.Machine
end

section
/-!
PROOF. Isolation of the engines (10_state.md R22, R23, R31): a command changes only the engine it uses, and its outcome depends
only on the engine it reads. States that differ in engines that nothing reads have outcomes that differ there alone; from this
one relation come the isolation of the engines and that unseeded words cannot be observed.
-/

namespace Sys2Proof.Machine

/-! ## The engines that a command leaves -/

/-- The words of engine `e` are those of before. -/
def EngineKept : Engine → State → State → Prop
  | .sm, s, t => t.sm = s.sm
  | .xs, s, t => t.xs = s.xs

theorem engineKept_self (e : Engine) (s : State) : EngineKept e s s := by
  cases e <;> rfl

theorem engineKept_afterDraws {e e' : Engine} (h : e' ≠ e) (k : Nat) (s : State) : EngineKept e s (afterDraws e' k s) := by
  cases e <;> cases e'
  · exact absurd rfl h
  · rw [afterDraws_xs]; rfl
  · rw [afterDraws_sm]; rfl
  · exact absurd rfl h

theorem engineKept_seedEngine {e e' : Engine} (h : e' ≠ e) (w : Word) (s : State) : EngineKept e s (seedEngine e' w s) := by
  cases e <;> cases e'
  · exact absurd rfl h
  · rfl
  · rfl
  · exact absurd rfl h

theorem Progress.engineKept {e : Engine} {i : Instr} {s s1 : State} (h : Progress i s s1)
    (hu : usesEngine e i = false) : EngineKept e s s1 := by
  have hne {e' : Engine} (hu' : usesEngine e' i = true) : e' ≠ e := by
    rintro rfl
    simp [hu] at hu'
  rcases h with rfl | ⟨e', k, hu', -, rfl⟩ | ⟨e', w, s0, hu', hs0, rfl⟩
  · exact engineKept_self e s1
  · exact engineKept_afterDraws (hne hu') (k + 1) s
  · have h0 := engineKept_seedEngine (hne hu') w s0
    rcases hs0 with rfl | ⟨rest, -, rfl⟩
    · exact h0
    · cases e <;> exact h0

/-- STATE_RD reads the words of its engine alone. -/
theorem stateWord_congr {e : Engine} {s t : State} (h : EngineKept e s t) (index : Word) :
    stateWord e index t = stateWord e index s := by
  unfold stateWord
  cases e with
  | sm =>
    rw [show t.sm = s.sm from h]
    rcases index.toNat with _ | n <;> rfl
  | xs =>
    rw [show t.xs = s.xs from h]
    rcases index.toNat with _ | _ | _ | _ | n <;> rfl

/-- A command that neither seeds engine `e` nor draws from it leaves its words. -/
theorem exec_engineKept {e : Engine} {i : Instr} {s t : State} (hu : usesEngine e i = false) (h : exec i s = .next t) :
    EngineKept e s t := by
  have he := exec_ends i s
  rw [h] at he
  cases he with
  | holds _ => exact engineKept_self e s
  | error k s1 hf =>
    rw [hf.eq_withEnt]
    cases e <;> rfl
  | answer d s1 hp =>
    have h1 := hp.engineKept hu
    cases e <;> exact h1

/-! ## States that differ in engines that nothing reads -/

/-- `s'` differs from `s` in the words of its engines alone, and agrees with it on each engine that `P` names. What `P` names
may depend on `SEEDED`. -/
def SameBut (P : Engine → BitVec 2 → Prop) (s s' : State) : Prop :=
  (∃ w x, s' = { s with sm := w, xs := x }) ∧ ∀ e, P e s.seeded → EngineKept e s s'

/-- Two outcomes of the same kind, whose next states differ as `SameBut` says. -/
inductive Alike (P : Engine → BitVec 2 → Prop) : Result → Result → Prop where
  | next {t t' : State} (h : SameBut P t t') : Alike P (.next t) (.next t')
  | fault (f : Fault) : Alike P (.fault f) (.fault f)

section
variable {P : Engine → BitVec 2 → Prop} {s s' : State}

theorem Alike.of_next {t : State} {o : Result} (h : Alike P (.next t) o) : ∃ t', o = .next t' ∧ SameBut P t t' := by
  obtain ⟨h'⟩ | _ := h
  exact ⟨_, rfl, h'⟩

/-- Where the second state is always `f` of the first, so is the second outcome. -/
theorem Alike.eq_mapNext {f : State → State} {o o' : Result} (h : Alike P o o')
    (hf : ∀ t t', o' = .next t' → SameBut P t t' → t' = f t) : o' = mapNext f o := by
  cases h with
  | next ht => exact congrArg _ (hf _ _ rfl ht)
  | fault f => rfl

theorem Alike.of_fault {f : Fault} {o : Result} (h : Alike P (.fault f) o) : o = .fault f := by
  cases h
  rfl

theorem SameBut.seededBit_eq (h : SameBut P s s') (e : Engine) : seededBit e s' = seededBit e s := by
  obtain ⟨⟨w, x, rfl⟩, -⟩ := h
  rfl

theorem SameBut.respond (h : SameBut P s s') (d : Word) : SameBut P (respond d s) (respond d s') := by
  obtain ⟨⟨w, x, rfl⟩, hP⟩ := h
  refine ⟨⟨w, x, rfl⟩, fun e he => ?_⟩
  cases e <;> exact hP _ he

theorem SameBut.raise (h : SameBut P s s') (k : ErrCode) : SameBut P (raise k s) (raise k s') := by
  obtain ⟨⟨w, x, rfl⟩, hP⟩ := h
  refine ⟨⟨w, x, rfl⟩, fun e he => ?_⟩
  cases e <;> exact hP _ he

theorem SameBut.withEnt (h : SameBut P s s') (ent : List EntAct) :
    SameBut P { s with ent := ent } { s' with ent := ent } := by
  obtain ⟨⟨w, x, rfl⟩, hP⟩ := h
  refine ⟨⟨w, x, rfl⟩, fun e he => ?_⟩
  cases e <;> exact hP _ he

/-- A draw of an engine on which the states agree gives one word, and the states agree on that engine again. -/
theorem SameBut.draw {e : Engine} (h : SameBut P s s') (he : P e s.seeded) :
    (draw e s').1 = (draw e s).1 ∧ SameBut P (draw e s).2 (draw e s').2 := by
  obtain ⟨⟨w, x, rfl⟩, hP⟩ := h
  cases e with
  | sm =>
    obtain rfl : w = s.sm := hP .sm he
    exact ⟨rfl, ⟨_, x, rfl⟩, fun e' he' => by cases e' with | sm => rfl | xs => exact hP .xs he'⟩
  | xs =>
    obtain rfl : x = s.xs := hP .xs he
    exact ⟨rfl, ⟨w, _, rfl⟩, fun e' he' => by cases e' with | sm => exact hP .sm he' | xs => rfl⟩

/-- Seeding an engine makes the states agree on it. -/
theorem SameBut.seedEngine {e : Engine} (h : SameBut P s s')
    (hseed : ∀ e', P e' (s.seeded ||| (1#2 <<< engineIndex e)) → P e' s.seeded ∨ e' = e) (v : Word) :
    SameBut P (seedEngine e v s) (seedEngine e v s') := by
  obtain ⟨⟨w, x, rfl⟩, hP⟩ := h
  cases e with
  | sm =>
    refine ⟨⟨v, x, rfl⟩, fun e' he' => ?_⟩
    cases e' with
    | sm => rfl
    | xs => exact hP .xs ((hseed .xs he').resolve_right (by simp))
  | xs =>
    refine ⟨⟨w, xsOfSeed v, rfl⟩, fun e' he' => ?_⟩
    cases e' with
    | sm => exact hP .sm ((hseed .sm he').resolve_right (by simp))
    | xs => rfl

/-! ## Alike outcomes, along the shapes of the commands -/

theorem alike_ifSeeded {e : Engine} {body body' : Result} (h : SameBut P s s')
    (hb : seededBit e s = true → Alike P body body') : Alike P (ifSeeded e s body) (ifSeeded e s' body') := by
  cases hs : seededBit e s with
  | false =>
    rw [ifSeeded_of_unseeded _ hs, ifSeeded_of_unseeded _ ((h.seededBit_eq e).trans hs)]
    exact .next (h.raise _)
  | true =>
    rw [ifSeeded_of_seeded _ hs, ifSeeded_of_seeded _ ((h.seededBit_eq e).trans hs)]
    exact hb hs

theorem alike_ifBound {n : Word} {body body' : Result} (h : SameBut P s s') (hb : Alike P body body') :
    Alike P (ifBound n s body) (ifBound n s' body') := by
  unfold ifBound
  split
  · exact .next (h.raise _)
  · exact hb

theorem alike_ifFinite {lo hi : Word} {body body' : Result} (h : SameBut P s s') (hb : Alike P body body') :
    Alike P (ifFinite lo hi s body) (ifFinite lo hi s' body') := by
  unfold ifFinite
  split
  · exact hb
  · exact .next (h.raise _)

theorem alike_drawAndAnswer {e : Engine} (h : SameBut P s s') (he : P e s.seeded) (f : Word → Word) :
    Alike P (drawAndAnswer e f s) (drawAndAnswer e f s') := by
  obtain ⟨hw, hd⟩ := h.draw he
  rw [drawAndAnswer, drawAndAnswer, hw]
  exact .next (hd.respond _)

/-- The rejection loop draws the same words, so it ends at the same draw or at none. -/
theorem rejLoop_alike {e : Engine} (n : Word) (fuel : Nat) (h : SameBut P s s') (he : P e s.seeded) :
    (rejLoop e n fuel s = none ∧ rejLoop e n fuel s' = none) ∨
    ∃ v t t', rejLoop e n fuel s = some (v, t) ∧ rejLoop e n fuel s' = some (v, t') ∧ SameBut P t t' := by
  induction fuel generalizing s s' with
  | zero => exact .inl ⟨rfl, rfl⟩
  | succ fuel ih =>
    obtain ⟨hw, hd⟩ := h.draw he
    simp only [rejLoop, hw]
    split
    · exact .inr ⟨_, _, _, rfl, rfl, hd⟩
    · exact ih hd (by simpa using he)

theorem alike_boundedRej {e : Engine} (n : Word) (h : SameBut P s s') (he : seededBit e s = true → P e s.seeded) :
    Alike P (boundedRej e n s) (boundedRej e n s') := by
  refine alike_ifSeeded h fun hs => alike_ifBound h ?_
  rcases rejLoop_alike n Config.rejFuel h (he hs) with ⟨h1, h2⟩ | ⟨v, t, t', h1, h2, ht⟩ <;> rw [h1, h2]
  · exact .fault _
  · exact .next (ht.respond v)

theorem alike_stateRead {e : Engine} (index : Word) (h : SameBut P s s') (he : seededBit e s = true → P e s.seeded) :
    Alike P (stateRead e index s) (stateRead e index s') := by
  refine alike_ifSeeded h fun hs => ?_
  rw [stateWord_congr (h.2 e (he hs))]
  cases stateWord e index s with
  | none => exact .next (h.raise _)
  | some v => exact .next (h.respond v)

theorem alike_seedEnt {e : Engine} (h : SameBut P s s')
    (hseed : ∀ e', P e' (s.seeded ||| (1#2 <<< engineIndex e)) → P e' s.seeded ∨ e' = e) :
    Alike P (seedEnt e s) (seedEnt e s') := by
  have hent : s'.ent = s.ent := by obtain ⟨⟨w, x, rfl⟩, -⟩ := h; rfl
  rcases entropyRead_cases s with ⟨v, rest, he, -⟩ | ⟨rest, he, -⟩ | ⟨he, -⟩
  · rw [seedEnt_of_word he, seedEnt_of_word (hent.trans he)]
    exact .next (((h.withEnt rest).seedEngine hseed v).respond 0)
  · rw [seedEnt_of_fail he, seedEnt_of_fail (hent.trans he)]
    exact .next ((h.withEnt rest).raise _)
  · rw [seedEnt_of_waiting he, seedEnt_of_waiting (by rwa [hent])]
    exact .next h

theorem alike_status (h : SameBut P s s') : Alike P (exec .status s) (exec .status s') := by
  have hword : statusWord s' = statusWord s := by obtain ⟨⟨w, x, rfl⟩, -⟩ := h; rfl
  rw [exec_status, exec_status, hword]
  exact .next (h.respond _)

/-- A command whose engine the states agree on has alike outcomes. Of a seeding `P` may come to name the seeded engine alone.
-/
theorem exec_alike {i : Instr} (h : SameBut P s s')
    (hread : ∀ e, engineRead i = some e → seededBit e s = true → P e s.seeded)
    (hseed : ∀ e e', P e' (s.seeded ||| (1#2 <<< engineIndex e)) → P e' s.seeded ∨ e' = e) :
    Alike P (exec i s) (exec i s') := by
  cases i with
  | seedSm v => exact .next ((h.seedEngine (hseed .sm) v).respond 0)
  | seedXs v => exact .next ((h.seedEngine (hseed .xs) v).respond 0)
  | seedEntSm => exact alike_seedEnt h (hseed .sm)
  | seedEntXs => exact alike_seedEnt h (hseed .xs)
  | drawSm => exact alike_ifSeeded h fun hs => alike_drawAndAnswer h (hread _ rfl hs) _
  | drawXs => exact alike_ifSeeded h fun hs => alike_drawAndAnswer h (hread _ rfl hs) _
  | boundedSm n => exact alike_ifSeeded h fun hs => alike_ifBound h (alike_drawAndAnswer h (hread _ rfl hs) _)
  | boundedXs n => exact alike_ifSeeded h fun hs => alike_ifBound h (alike_drawAndAnswer h (hread _ rfl hs) _)
  | boundedRejSm n => exact alike_boundedRej n h (hread _ rfl)
  | boundedRejXs n => exact alike_boundedRej n h (hread _ rfl)
  | real01Sm => exact alike_ifSeeded h fun hs => alike_drawAndAnswer h (hread _ rfl hs) _
  | real01Xs => exact alike_ifSeeded h fun hs => alike_drawAndAnswer h (hread _ rfl hs) _
  | realBetweenSm lo hi => exact alike_ifSeeded h fun hs => alike_ifFinite h (alike_drawAndAnswer h (hread _ rfl hs) _)
  | realBetweenXs lo hi => exact alike_ifSeeded h fun hs => alike_ifFinite h (alike_drawAndAnswer h (hread _ rfl hs) _)
  | minSm => exact .next (h.respond minv)
  | minXs => exact .next (h.respond minv)
  | maxSm => exact .next (h.respond maxv)
  | maxXs => exact .next (h.respond maxv)
  | stateRdSm index => exact alike_stateRead index h (hread _ rfl)
  | stateRdXs index => exact alike_stateRead index h (hread _ rfl)
  | status => exact alike_status h

end

/-! ## Isolation (R23) -/

/-- Every engine but `e` is named. -/
def AllBut (e : Engine) : Engine → BitVec 2 → Prop := fun e' _ => e' ≠ e

theorem exec_alike_allBut {e : Engine} {i : Instr} {s s' : State} (hr : engineRead i ≠ some e)
    (h : SameBut (AllBut e) s s') : Alike (AllBut e) (exec i s) (exec i s') :=
  exec_alike h (fun _ he' _ heq => hr (heq ▸ he')) fun _ _ => .inl

theorem engineRead_ne_sm {i : Instr} (hu : usesSm i = false) (hi : ∀ a, i ≠ .stateRdSm a) : engineRead i ≠ some .sm := by
  cases i <;> simp_all [usesSm, engineRead]

theorem engineRead_ne_xs {i : Instr} (hu : usesXs i = false) (hi : ∀ a, i ≠ .stateRdXs a) : engineRead i ≠ some .xs := by
  cases i <;> simp_all [usesXs, engineRead]

/-- The outcome of a command that does not use SM and does not read its counter is the same with another counter, which stays.
-/
theorem exec_writeSm {i : Instr} (s : State) (w : Word) (hu : usesSm i = false) (hi : ∀ a, i ≠ .stateRdSm a) :
    exec i (writeSm w s) = mapNext (writeSm w) (exec i s) := by
  have hsame : SameBut (AllBut .sm) s (writeSm w s) :=
    ⟨⟨w, s.xs, rfl⟩, fun e he => by cases e with | sm => exact absurd rfl he | xs => rfl⟩
  refine (exec_alike_allBut (engineRead_ne_sm hu hi) hsame).eq_mapNext fun t t' ht' ⟨⟨w', x', heq⟩, hP⟩ => ?_
  have hthis : t'.sm = w := exec_engineKept (e := .sm) hu ht'
  have hother : t'.xs = t.xs := hP .xs (by simp [AllBut])
  subst heq hthis
  exact congrArg (fun v => { t with sm := w', xs := v }) hother

/-- The same for XS. -/
theorem exec_writeXs {i : Instr} (s : State) (x : XsWords) (hu : usesXs i = false) (hi : ∀ a, i ≠ .stateRdXs a) :
    exec i (writeXs x s) = mapNext (writeXs x) (exec i s) := by
  have hsame : SameBut (AllBut .xs) s (writeXs x s) :=
    ⟨⟨s.sm, x, rfl⟩, fun e he => by cases e with | sm => rfl | xs => exact absurd rfl he⟩
  refine (exec_alike_allBut (engineRead_ne_xs hu hi) hsame).eq_mapNext fun t t' ht' ⟨⟨w', x', heq⟩, hP⟩ => ?_
  have hthis : t'.xs = x := exec_engineKept (e := .xs) hu ht'
  have hother : t'.sm = t.sm := hP .sm (by simp [AllBut])
  subst heq hthis
  exact congrArg (fun v => { t with xs := x', sm := v }) hother

/-- Settles O49: what a command leaves by what it can do, and what it depends on by alike outcomes. -/
theorem enginesAreIsolated : Obligations.EnginesAreIsolated := by
  unfold Obligations.EnginesAreIsolated
  refine ⟨fun i s t h => ⟨fun hu => ?_, fun hu => ?_⟩, fun i s w => exec_writeSm s w, fun i s x => exec_writeXs s x⟩
  · exact exec_engineKept (e := .sm) hu h
  · exact exec_engineKept (e := .xs) hu h

/-! ## Unseeded words cannot be observed (R31) -/

/-- The engine is seeded, as its bit of `SEEDED` says. -/
def Visible (e : Engine) (seeded : BitVec 2) : Prop := seeded.getLsbD (engineIndex e) = true

theorem visible_of_or {seeded : BitVec 2} {e e' : Engine} (h : Visible e' (seeded ||| (1#2 <<< engineIndex e))) :
    Visible e' seeded ∨ e' = e := by
  revert seeded
  cases e <;> cases e' <;> simp [Visible, engineIndex]

/-- Whether the block waits depends on CMD and the entropy source alone. -/
theorem holds_congr {s t : State} (he : t.ent = s.ent) (i : Instr) : holds i t = holds i s := by
  rw [Bool.eq_iff_iff]
  simp only [holds, Bool.and_eq_true, beq_iff_eq, entropyRead_waiting_iff, he]

theorem blockHolds_congr {s t : State} (hc : t.cmd = s.cmd) (he : t.ent = s.ent) : blockHolds t = blockHolds s := by
  simp only [blockHolds, hc, holds_congr he]

/-- A reset leaves free values in the engines, the same whatever they held. -/
theorem resetBlock_withEngines (s : State) (w : Word) (x : XsWords) :
    resetBlock { s with sm := w, xs := x } = resetBlock s := by
  have hb : blockHolds { s with sm := w, xs := x } = blockHolds s := blockHolds_congr rfl rfl
  simp only [resetBlock, hb]

/-- The host reads no engine. -/
theorem SameBut.hostStep {P : Engine → BitVec 2 → Prop} {s s' : State} (h : SameBut P s s') :
    SameBut P (hostStep s) (hostStep s') := by
  obtain ⟨⟨w, x, rfl⟩, hP⟩ := h
  have hkeep {t : State} (hsm : t.sm = s.sm) (hxs : t.xs = s.xs) (hse : t.seeded = s.seeded) :
      SameBut P t { t with sm := w, xs := x } := by
    refine ⟨⟨w, x, rfl⟩, fun e he => ?_⟩
    rw [hse] at he
    cases e with
    | sm => exact (hP .sm he).trans hsm.symm
    | xs => exact (hP .xs he).trans hxs.symm
  cases hh : s.host with
  | nil => simpa [Machine.hostStep, hh] using hkeep (t := s) rfl rfl rfl
  | cons a rest =>
    cases a with
    | send k =>
      by_cases hc : s.cmd = none ∧ s.rsp = none
      · simpa [Machine.hostStep, hh, hostSend, hc] using hkeep (t := { s with cmd := some k, host := rest }) rfl rfl rfl
      · simpa [Machine.hostStep, hh, hostSend, hc] using hkeep (t := s) rfl rfl rfl
    | take =>
      cases hr : s.rsp with
      | none => simpa [Machine.hostStep, hh, hostTake, hr] using hkeep (t := s) rfl rfl rfl
      | some r =>
        simpa [Machine.hostStep, hh, hostTake, hr] using
          hkeep (t := { s with rsp := none, taken := s.taken ++ [r], host := rest }) rfl rfl rfl
    | reset =>
      simp only [Machine.hostStep, hh, hostReset]
      rw [resetBlock_withEngines { s with host := rest } w x]
      exact ⟨⟨_, _, rfl⟩, fun e _ => engineKept_self e _⟩

/-- States that differ in unseeded engines alone make alike steps. -/
theorem step_alike {s s' : State} (h : SameBut Visible s s') : Alike Visible (step s) (step s') := by
  obtain ⟨hc, hr, he⟩ : s'.cmd = s.cmd ∧ s'.rsp = s.rsp ∧ s'.ent = s.ent := by
    obtain ⟨⟨w, x, rfl⟩, -⟩ := h
    exact ⟨rfl, rfl, rfl⟩
  rcases step_cases s with ⟨hturn, hs⟩ | ⟨k, r, hk, hn, hd, hs⟩ | ⟨k, i, hk, hn, hd, hh, hs⟩ <;> rw [hs]
  · rw [step_eq_hostStep (s := s') (by rwa [hc, hr, blockHolds_congr hc he])]
    exact .next h.hostStep
  · rw [step_eq_illegalCmd (hc.trans hk) (hr.trans hn) hd]
    exact .next (h.raise _)
  · rw [step_eq_exec (hc.trans hk) (hr.trans hn) hd ((holds_congr he i).trans hh)]
    exact exec_alike h (fun e _ hs => hs) fun e e' => visible_of_or

theorem run_succ_next {s t : State} (h : step s = .next t) (n : Nat) :
    Sys2Proof.core.run (n + 1) s = Sys2Proof.core.run n t := by
  simp only [Host.Core.run, Sys2Proof.core, h]

theorem run_succ_fault {s : State} {f : Fault} (h : step s = .fault f) (n : Nat) :
    Sys2Proof.core.run (n + 1) s = .fault f := by
  simp only [Host.Core.run, Sys2Proof.core, h]

theorem run_alike {s s' : State} (h : SameBut Visible s s') (n : Nat) :
    Alike Visible (Sys2Proof.core.run n s) (Sys2Proof.core.run n s') := by
  induction n generalizing s s' with
  | zero => exact .next h
  | succ n ih =>
    have hstep := step_alike h
    generalize ho : step s = o, ho' : step s' = o' at hstep
    cases hstep with
    | next ht => rw [run_succ_next ho, run_succ_next ho']; exact ih ht
    | fault f => rw [run_succ_fault ho, run_succ_fault ho']; exact .fault f

/-- Settles O55, by induction on the number of steps: the states stay the same but for engines that are not seeded. -/
theorem unseededContentsAreUnobservable : Obligations.UnseededContentsAreUnobservable := by
  unfold Obligations.UnseededContentsAreUnobservable
  rintro s _ w x n rfl
  have hsame : SameBut Visible s { s with
      sm := if s.seeded.getLsbD 0 then s.sm else w, xs := if s.seeded.getLsbD 1 then s.xs else x } := by
    refine ⟨⟨_, _, rfl⟩, fun e he => ?_⟩
    cases e with
    | sm => exact if_pos he
    | xs => exact if_pos he
  have hrun := run_alike hsame n
  constructor
  · intro t ht
    obtain ⟨t', ht', hdiff, hP⟩ := (ht ▸ hrun).of_next
    exact ⟨t', ht', hdiff, hP .sm, hP .xs⟩
  · intro f hf
    exact (hf ▸ hrun).of_fault

end Sys2Proof.Machine
end

section
/-!
PROOF. One step and one command (30_encoding.md R60; 60_exceptions.md R180, R193; 70_reset_and_hazards.md R200, R205;
10_state.md R24): the inversion of `exec` by the kind of the command, sharper than `exec_ends`, and from it who moves, what
each command answers, which faults there are, what sets SEEDED and what uses up entropy.
-/

namespace Sys2Proof.Machine

/-! ## The course of a command by its kind -/

/-- The engine that a command seeds. -/
def engineSeeded : Instr → Option Engine
  | .seedSm _ | .seedEntSm => some .sm
  | .seedXs _ | .seedEntXs => some .xs
  | .drawSm | .boundedSm _ | .boundedRejSm _ | .real01Sm | .realBetweenSm _ _ | .stateRdSm _ => none
  | .drawXs | .boundedXs _ | .boundedRejXs _ | .real01Xs | .realBetweenXs _ _ | .stateRdXs _ => none
  | .minSm | .minXs | .maxSm | .maxXs | .status => none

/-- The command is one of the two whose loop may have no end. -/
def IsBoundedRej (i : Instr) : Prop := (∃ n, i = .boundedRejSm n) ∨ ∃ n, i = .boundedRejXs n

/-- What performing `i` at `s` comes to: a command that seeds nothing ends with an error, answers after some draws (or none),
or loops without end; one that seeds does so with its own word or with one of the entropy source, which may also fail or be
waited for. -/
inductive Course (i : Instr) (s : State) : Result → Prop where
  | error (k : ErrCode) (hi : engineSeeded i = none) : Course i s (.next (raise k s))
  | answer (e : Engine) (k : Nat) (d : Word) (hi : engineSeeded i = none) : Course i s (.next (respond d (afterDraws e k s)))
  | endless (hi : IsBoundedRej i) : Course i s (.fault .rejFuelExhausted)
  | seeded (e : Engine) (w : Word) (hi : engineSeeded i = some e) : Course i s (.next (respond 0 (seedEngine e w s)))
  | entropy (e : Engine) (w : Word) (rest : List EntAct) (hi : engineSeeded i = some e) (hr : requestsEntropy i = true)
      (hent : s.ent = .word w :: rest) : Course i s (.next (respond 0 (seedEngine e w { s with ent := rest })))
  | entropyFail (rest : List EntAct) (hr : requestsEntropy i = true) (hent : s.ent = .fail :: rest) :
      Course i s (.next (raise .entropyFail { s with ent := rest }))
  | waits (h : holds i s = true) : Course i s (.next s)

section
variable {i : Instr} {e : Engine} {s : State} {body : Result}

theorem course_respond (d : Word) (hi : engineSeeded i = none) : Course i s (.next (respond d s)) :=
  .answer .sm 0 d hi

theorem course_ifSeeded (hi : engineSeeded i = none) (h : Course i s body) : Course i s (ifSeeded e s body) := by
  unfold ifSeeded
  split
  · exact h
  · exact .error _ hi

theorem course_ifBound {n : Word} (hi : engineSeeded i = none) (h : Course i s body) : Course i s (ifBound n s body) := by
  unfold ifBound
  split
  · exact .error _ hi
  · exact h

theorem course_ifFinite {lo hi' : Word} (hi : engineSeeded i = none) (h : Course i s body) :
    Course i s (ifFinite lo hi' s body) := by
  unfold ifFinite
  split
  · exact h
  · exact .error _ hi

theorem course_drawAndAnswer (f : Word → Word) (hi : engineSeeded i = none) : Course i s (drawAndAnswer e f s) :=
  .answer e 1 _ hi

theorem course_boundedRej (n : Word) (hi : engineSeeded i = none) (hb : IsBoundedRej i) :
    Course i s (boundedRej e n s) := by
  refine course_ifSeeded hi (course_ifBound hi ?_)
  cases hl : rejLoop e n Config.rejFuel s with
  | none => exact .endless hb
  | some p =>
    obtain ⟨k, -, -, -, -, ht⟩ := rejLoop_eq_some (w := p.1) (t := p.2) hl
    change Course i s (.next (respond p.1 p.2))
    rw [ht]
    exact .answer e (k + 1) p.1 hi

theorem course_stateRead (index : Word) (hi : engineSeeded i = none) : Course i s (stateRead e index s) := by
  refine course_ifSeeded hi ?_
  cases stateWord e index s with
  | none => exact .error _ hi
  | some w => exact course_respond w hi

theorem course_seedEnt (hi : engineSeeded i = some e) (hr : requestsEntropy i = true) : Course i s (seedEnt e s) := by
  rcases entropyRead_cases s with ⟨w, rest, he, -⟩ | ⟨rest, he, -⟩ | ⟨he, hw⟩
  · rw [seedEnt_of_word he]; exact .entropy e w rest hi hr he
  · rw [seedEnt_of_fail he]; exact .entropyFail rest hr he
  · rw [seedEnt_of_waiting he]; exact .waits (by simp [holds, hr, hw])

end

theorem exec_course (i : Instr) (s : State) : Course i s (exec i s) := by
  cases i with
  | seedSm w => exact .seeded .sm w rfl
  | seedXs w => exact .seeded .xs w rfl
  | seedEntSm => exact course_seedEnt rfl rfl
  | seedEntXs => exact course_seedEnt rfl rfl
  | drawSm => exact course_ifSeeded rfl (course_drawAndAnswer _ rfl)
  | drawXs => exact course_ifSeeded rfl (course_drawAndAnswer _ rfl)
  | boundedSm n => exact course_ifSeeded rfl (course_ifBound rfl (course_drawAndAnswer _ rfl))
  | boundedXs n => exact course_ifSeeded rfl (course_ifBound rfl (course_drawAndAnswer _ rfl))
  | boundedRejSm n => exact course_boundedRej n rfl (.inl ⟨n, rfl⟩)
  | boundedRejXs n => exact course_boundedRej n rfl (.inr ⟨n, rfl⟩)
  | real01Sm => exact course_ifSeeded rfl (course_drawAndAnswer _ rfl)
  | real01Xs => exact course_ifSeeded rfl (course_drawAndAnswer _ rfl)
  | realBetweenSm lo hi => exact course_ifSeeded rfl (course_ifFinite rfl (course_drawAndAnswer _ rfl))
  | realBetweenXs lo hi => exact course_ifSeeded rfl (course_ifFinite rfl (course_drawAndAnswer _ rfl))
  | minSm => exact course_respond minv rfl
  | minXs => exact course_respond minv rfl
  | maxSm => exact course_respond maxv rfl
  | maxXs => exact course_respond maxv rfl
  | stateRdSm index => exact course_stateRead index rfl
  | stateRdXs index => exact course_stateRead index rfl
  | status => exact course_respond _ rfl

/-! ## Who moves (R180, R205) -/

theorem requestsEntropy_iff (i : Instr) : requestsEntropy i = true ↔ i = .seedEntSm ∨ i = .seedEntXs := by
  cases i <;> simp [requestsEntropy]

theorem holds_iff (i : Instr) (s : State) : holds i s = true ↔
    (i = .seedEntSm ∨ i = .seedEntXs) ∧ (s.ent = [] ∨ ∃ rest, s.ent = .silent :: rest) := by
  rw [holds, Bool.and_eq_true, requestsEntropy_iff, beq_iff_eq, entropyRead_waiting_iff]

/-- Settles O1: one lemma about `step` for each of its cases. -/
theorem stepPerformsDecodedCommand : Obligations.StepPerformsDecodedCommand := by
  unfold Obligations.StepPerformsDecodedCommand
  refine ⟨fun s k i => step_eq_exec, fun s k r => step_eq_illegalCmd, ?_, ?_, holds_iff⟩
  · intro s k i hc _ hd hh
    exact step_eq_hostStep (.inr (.inr ((blockHolds_eq_holds hc hd).trans hh)))
  · intro s hs
    exact step_eq_hostStep (hs.imp_right .inl)

/-! ## The response of a command (R60, R62) -/

/-- The command bytes of SEED and SEED_ENT. -/
def seedingBytes : List (BitVec 8) := [0x00#8, 0x10#8, 0x01#8, 0x11#8]

theorem engineSeeded_of_decode {k : Command} {i : Instr} (hk : k.byte ∈ seedingBytes) (hd : decode k = .ok i) :
    engineSeeded i ≠ none := by
  obtain ⟨c, a, b⟩ := k
  change c ∈ seedingBytes at hk
  fin_cases hk <;> cases hd <;> simp [engineSeeded]

/-- The block answers: CMD is free, RSP holds a response with a legal status, and the host's side is as it was. -/
structure Answered (s t : State) (r : Response) : Prop where
  cmd : t.cmd = none
  rsp : t.rsp = some r
  side : sameHostSide s t
  status : r.status.toNat ≤ 6
  data : r.status ≠ 0 → r.data = 0

theorem answered_raise (k : ErrCode) {s s1 : State} (h : sameHostSide s s1) : Answered s (raise k s1) ⟨errCode k, 0⟩ where
  cmd := rfl
  rsp := rfl
  side := h
  status := (errCode_toNat_range k).2
  data _ := rfl

theorem answered_respond (d : Word) {s s1 : State} (h : sameHostSide s s1) : Answered s (respond d s1) ⟨statusOk, d⟩ where
  cmd := rfl
  rsp := rfl
  side := h
  status := (by decide : statusOk.toNat ≤ 6)
  data hne := absurd rfl hne

/-- A command that does not wait is answered, with data 0 where it seeds. -/
theorem exec_answered {i : Instr} {s t : State} (hh : holds i s = false) (h : exec i s = .next t) :
    ∃ r, Answered s t r ∧ (engineSeeded i ≠ none → r.data = 0) := by
  have hc := exec_course i s
  rw [h] at hc
  cases hc with
  | error k hi => exact ⟨_, answered_raise k ⟨rfl, rfl, rfl⟩, fun _ => rfl⟩
  | answer e k d hi => exact ⟨_, answered_respond d (sameHostSide_afterDraws e k s), fun hne => absurd hi hne⟩
  | seeded e w hi => exact ⟨_, answered_respond 0 (sameHostSide_seedEngine e w s), fun _ => rfl⟩
  | entropy e w rest hi hr hent =>
    exact ⟨_, answered_respond 0 (sameHostSide_seedEngine e w { s with ent := rest }), fun _ => rfl⟩
  | entropyFail rest hr hent => exact ⟨_, answered_raise .entropyFail ⟨rfl, rfl, rfl⟩, fun _ => rfl⟩
  | waits hw => simp [hh] at hw

/-- Settles O10: an illegal byte is answered with ILLEGAL_CMD, and a legal command as its course says. -/
theorem everyCommandAnswersOnce : Obligations.EveryCommandAnswersOnce := by
  unfold Obligations.EveryCommandAnswersOnce
  intro s k t hc hr hb ht
  obtain ⟨r, hans, hdata⟩ : ∃ r, Answered s t r ∧ (k.byte ∈ seedingBytes → r.data = 0) := by
    cases hd : decode k with
    | error _ =>
      rw [step_eq_illegalCmd hc hr hd] at ht
      cases ht
      exact ⟨_, answered_raise .illegalCmd ⟨rfl, rfl, rfl⟩, fun _ => rfl⟩
    | ok i =>
      have hh : holds i s = false := (blockHolds_eq_holds hc hd).symm.trans hb
      rw [step_eq_exec hc hr hd hh] at ht
      obtain ⟨r, hans, hdata⟩ := exec_answered hh ht
      exact ⟨r, hans, fun hk => hdata (engineSeeded_of_decode hk hd)⟩
  obtain ⟨hhost, htaken, -⟩ := hans.side
  exact ⟨hans.cmd, htaken, hhost, r, hans.rsp, hans.status, hans.data, hdata⟩

/-! ## Faults (R125) -/

/-- An endless loop rejects every word that the engine would ever draw: after the fuel the words repeat. -/
theorem forall_lt_rejFuel_iff (e : Engine) (n : Word) (s : State) :
    (∀ k < Config.rejFuel, drawnWord e k s < threshold n) ↔ ∀ k, drawnWord e k s < threshold n := by
  refine ⟨fun h k => ?_, fun h k _ => h k⟩
  induction k using Nat.strong_induction_on with
  | _ k ih =>
    rcases Nat.lt_or_ge k Config.rejFuel with hk | hk
    · exact h k hk
    · obtain ⟨j, hj, heq⟩ := exists_lt_drawnWord_eq e s hk
      exact heq ▸ ih j hj

theorem boundedRej_fault_iff {e : Engine} {n : Word} {s : State} (hs : seededBit e s = true) (hn : n ≠ 0) :
    boundedRej e n s = .fault .rejFuelExhausted ↔ ∀ k, drawnWord e k s < threshold n := by
  rw [← forall_lt_rejFuel_iff, ← rejLoop_eq_none_iff, boundedRej, ifSeeded_of_seeded _ hs, ifBound_of_ne _ hn]
  cases rejLoop e n Config.rejFuel s <;> simp

/-- No other command faults. -/
theorem isBoundedRej_of_fault {i : Instr} {s : State} {f : Fault} (h : exec i s = .fault f) : IsBoundedRej i := by
  have hc := exec_course i s
  rw [h] at hc
  cases hc with
  | endless hi => exact hi

/-- Settles O11: the loop runs out of fuel exactly where it rejects every word, since the words repeat within the fuel. -/
theorem faultsExactlyInEndlessLoops : Obligations.FaultsExactlyInEndlessLoops := by
  unfold Obligations.FaultsExactlyInEndlessLoops
  refine ⟨step_ne_refused, fun s n hs hn => ?_, fun s n hs hn => ?_, fun i s f => isBoundedRej_of_fault⟩
  · refine (boundedRej_fault_iff (e := .sm) hs hn).trans (forall_congr' fun k => ?_)
    rw [drawnWord_sm, smNext_gamma_mul]
    rfl
  · refine (boundedRej_fault_iff (e := .xs) hs hn).trans (forall_congr' fun k => ?_)
    rw [drawnWord_xs]
    rfl

/-! ## Reset (R200) -/

theorem hostStep_of_reset {s : State} {rest : List HostAct} (hh : s.host = .reset :: rest) :
    hostStep s = resetBlock { s with host := rest } := by
  simp [hostStep, hh, hostReset]

/-- With no command outstanding a reset drops no request on ENT. -/
theorem resetBlock_ent_of_no_cmd {s : State} (hc : s.cmd = none) : (resetBlock s).ent = s.ent := by
  simp [resetBlock, blockHolds, hc]

/-- Settles O13: the turn is the host's, its reset leaves the channels free, and so the next command is accepted. -/
theorem hostResetClearsStatus : Obligations.HostResetClearsStatus := by
  unfold Obligations.HostResetClearsStatus
  intro s rest hh hturn
  refine ⟨resetBlock { s with host := rest }, ?_, resetBlock_seeded _, resetBlock_err _, resetBlock_cmd _, resetBlock_rsp _,
    resetBlock_taken _, resetBlock_host _, fun hc => resetBlock_ent_of_no_cmd (s := { s with host := rest }) hc, ?_⟩
  · rw [step_eq_hostStep hturn, hostStep_of_reset hh]
  · intro k later hrest
    exact step_of_send ((resetBlock_host _).trans hrest) (resetBlock_cmd _) (resetBlock_rsp _)

/-! ## SEEDED (R24) -/

@[simp] theorem afterDraws_seeded (e : Engine) (k : Nat) (s : State) : (afterDraws e k s).seeded = s.seeded := by
  cases e with
  | sm => rw [afterDraws_sm]
  | xs => rw [afterDraws_xs]

theorem seedEngine_seeded (e : Engine) (w : Word) (s : State) :
    (seedEngine e w s).seeded = s.seeded ||| (1#2 <<< engineIndex e) := by
  cases e <;> rfl

/-- Seeding an engine sets its bit of SEEDED and no other. -/
theorem seededBit_of_seeded_eq_or {s t : State} {e : Engine} (h : t.seeded = s.seeded ||| (1#2 <<< engineIndex e))
    (e' : Engine) :
    seededBit e' t = true ↔ seededBit e' s = true ∨ e = e' := by
  rw [seededBit, h, BitVec.getLsbD_or, Bool.or_eq_true, seededBit]
  cases e <;> cases e' <;> simp [engineIndex]

/-- What performing a command does to SEEDED: nothing, or it sets the bit of the engine that the command seeds and answers OK.
-/
theorem exec_seeded_cases {i : Instr} {s t : State} (hh : holds i s = false) (h : exec i s = .next t) :
    (t.seeded = s.seeded ∧ ∀ e, engineSeeded i = some e → ∀ d, t.rsp ≠ some ⟨0#4, d⟩) ∨
    ∃ e, engineSeeded i = some e ∧ t.rsp = some ⟨0#4, 0⟩ ∧ t.seeded = s.seeded ||| (1#2 <<< engineIndex e) := by
  have hc := exec_course i s
  rw [h] at hc
  cases hc with
  | error k hi => exact .inl ⟨rfl, by simp [hi]⟩
  | answer e k d hi => exact .inl ⟨by simp, by simp [hi]⟩
  | seeded e w hi => exact .inr ⟨e, hi, rfl, seedEngine_seeded e w s⟩
  | entropy e w rest hi hr hent => exact .inr ⟨e, hi, rfl, seedEngine_seeded e w { s with ent := rest }⟩
  | entropyFail rest hr hent => exact .inl ⟨rfl, by simp [errCode]⟩
  | waits hw => simp [hh] at hw

theorem exec_seededBit_iff {i : Instr} {s t : State} (hh : holds i s = false) (h : exec i s = .next t) (e : Engine) :
    seededBit e t = true ↔ seededBit e s = true ∨ (engineSeeded i = some e ∧ ∃ d, t.rsp = some ⟨0#4, d⟩) := by
  rcases exec_seeded_cases hh h with ⟨heq, hno⟩ | ⟨e', hi, hok, heq⟩
  · rw [seededBit_congr_seeded e heq]
    refine (or_iff_left ?_).symm
    rintro ⟨hi, d, hd⟩
    exact hno e hi d hd
  · rw [seededBit_of_seeded_eq_or heq, hi, hok]
    simp

theorem engineSeeded_eq_sm_iff (i : Instr) : engineSeeded i = some .sm ↔ (∃ w, i = .seedSm w) ∨ i = .seedEntSm := by
  cases i <;> simp [engineSeeded]

theorem engineSeeded_eq_xs_iff (i : Instr) : engineSeeded i = some .xs ↔ (∃ w, i = .seedXs w) ∨ i = .seedEntXs := by
  cases i <;> simp [engineSeeded]

theorem exec_keeps_seeded {i : Instr} {s t : State} {j : Nat} (hh : holds i s = false) (h : exec i s = .next t)
    (hj : s.seeded.getLsbD j = true) : t.seeded.getLsbD j = true := by
  rcases exec_seeded_cases hh h with ⟨heq, -⟩ | ⟨e, -, -, heq⟩
  · rwa [heq]
  · rw [heq, BitVec.getLsbD_or, hj, Bool.true_or]

theorem hostStep_keeps_seeded (s : State) : (hostStep s).seeded = s.seeded ∨ ∃ rest, s.host = .reset :: rest := by
  rcases hostStep_cases s with ⟨h, -⟩ | ⟨k, rest, -, -, -, h⟩ | ⟨r, rest, -, -, h⟩ | ⟨rest, hr, -⟩
  · left; rw [h]
  · left; rw [h]
  · left; rw [h]
  · right; exact ⟨rest, hr⟩

/-- Settles O48: what a command does to SEEDED, and that the host clears it by a reset alone. -/
theorem seededBitsFollowSeeding : Obligations.SeededBitsFollowSeeding := by
  unfold Obligations.SeededBitsFollowSeeding
  constructor
  · intro i s t hh h
    rw [← engineSeeded_eq_sm_iff, ← engineSeeded_eq_xs_iff]
    exact ⟨exec_seededBit_iff hh h .sm, exec_seededBit_iff hh h .xs⟩
  · intro s t j h hj
    rcases step_cases s with ⟨-, hs⟩ | ⟨-, -, -, -, -, hs⟩ | ⟨-, i, -, -, -, hh, hs⟩ <;> rw [hs] at h
    · cases h
      exact (hostStep_keeps_seeded s).imp_left fun heq => by rwa [heq]
    · cases h
      exact .inl hj
    · exact .inl (exec_keeps_seeded hh h hj)

/-- Settles O51: the two seedings write different fields, and set one bit each. -/
theorem seedingOrderIsFree : Obligations.SeedingOrderIsFree := by
  unfold Obligations.SeedingOrderIsFree
  intro s a b
  have horder : respond 0 (seedEngine .xs b (respond 0 (seedEngine .sm a s))) =
      respond 0 (seedEngine .sm a (respond 0 (seedEngine .xs b s))) := by
    simp [respond, endCommand, seedEngine_sm, seedEngine_xs, BitVec.or_assoc]
  have hboth (v : BitVec 2) : v ||| 1#2 ||| 2#2 = 0b11#2 := by
    revert v
    decide
  exact ⟨_, _, _, exec_seedSm a s, exec_seedXs b _, exec_seedXs b s, horder ▸ exec_seedSm a _, hboth s.seeded⟩

/-! ## The entropy source (R193) -/

@[simp] theorem afterDraws_ent (e : Engine) (k : Nat) (s : State) : (afterDraws e k s).ent = s.ent := by
  cases e with
  | sm => rw [afterDraws_sm]
  | xs => rw [afterDraws_xs]

@[simp] theorem seedEngine_ent (e : Engine) (w : Word) (s : State) : (seedEngine e w s).ent = s.ent := by
  cases e <;> rfl

/-- A command uses up no answer of the entropy source, or it is SEED_ENT and uses up one. -/
theorem exec_ent_cases {i : Instr} {s t : State} (h : exec i s = .next t) :
    t.ent = s.ent ∨ ((i = .seedEntSm ∨ i = .seedEntXs) ∧ ∃ a, s.ent = a :: t.ent ∧ a ≠ .silent) := by
  have hc := exec_course i s
  rw [h] at hc
  cases hc with
  | error k hi => exact .inl rfl
  | answer e k d hi => exact .inl (by simp)
  | seeded e w hi => exact .inl (by simp)
  | entropy e w rest hi hr hent => exact .inr ⟨(requestsEntropy_iff i).mp hr, _, by simpa using hent, by simp⟩
  | entropyFail rest hr hent => exact .inr ⟨(requestsEntropy_iff i).mp hr, _, by simpa using hent, by simp⟩
  | waits hw => exact .inl rfl

/-- With no command outstanding the host uses up no answer. -/
theorem hostStep_ent_of_no_cmd {s : State} (hc : s.cmd = none) : (hostStep s).ent = s.ent := by
  rcases hostStep_cases s with ⟨h, -⟩ | ⟨k, rest, -, -, -, h⟩ | ⟨r, rest, -, -, h⟩ | ⟨rest, -, h⟩ <;> rw [h]
  exact resetBlock_ent_of_no_cmd (s := { s with host := rest }) hc

/-- While a command is outstanding the host can change nothing of the block but by taking a response or by a reset. -/
theorem hostStep_of_cmd {s : State} (hc : s.cmd ≠ none) (hreset : ∀ rest, s.host ≠ .reset :: rest) :
    hostStep s = { s with rsp := (hostStep s).rsp, taken := (hostStep s).taken, host := (hostStep s).host } := by
  rcases hostStep_cases s with ⟨h, -⟩ | ⟨k, rest, -, hn, -, -⟩ | ⟨r, rest, -, -, h⟩ | ⟨rest, hr, -⟩
  · rw [h]
  · exact absurd hn hc
  · rw [h]
  · exact absurd hr (hreset rest)

/-- Settles O52: the course of a command, and the host's actions while no command is outstanding or one waits. -/
theorem onlySeedEntRequestsEntropy : Obligations.OnlySeedEntRequestsEntropy := by
  unfold Obligations.OnlySeedEntRequestsEntropy
  refine ⟨fun i s t => exec_ent_cases, fun s t hc ht => ?_, fun s t hb ht => ?_⟩
  · rw [step_eq_hostStep (.inl hc)] at ht
    cases ht
    exact hostStep_ent_of_no_cmd hc
  · rw [step_eq_hostStep (.inr (.inr hb))] at ht
    cases ht
    by_cases hreset : ∃ rest, s.host = .reset :: rest
    · exact .inr hreset
    · left
      rw [hostStep_of_cmd (cmd_ne_none_of_blockHolds hb) fun rest hr => hreset ⟨rest, hr⟩]
      exact ⟨rfl, rfl, rfl, rfl, rfl, rfl⟩

end Sys2Proof.Machine
end

section
/-!
PROOF. The engines as functions (40_splitmix64.md section 3; 41_xoshiro256ss.md section 3): injective functions of a finite
space are bijections, so SM draws each word once in 2^64 draws; and the draws after a seeding depend on the seed alone, by
induction on the commands performed.
-/

namespace Sys2Proof.Machine

/-! ## Bijections (R81, R100, R101) -/

theorem mix64_bijective : Function.Bijective mix64 := Finite.injective_iff_bijective.mp mix64_injective

theorem mix64_zero : mix64 0 = 0 := by decide

theorem mix64_eq_zero_iff (z : Word) : mix64 z = 0 ↔ z = 0 := mix64_injective.eq_iff' mix64_zero

/-- The increment is odd, so it has an inverse modulo 2^64. -/
theorem gamma_mul_injective : Function.Injective (gamma * ·) :=
  (IsUnit.of_mul_eq_one 0xF1DE83E19937733D#64 (by decide)).mul_right_injective

/-- The word of a later draw as a bijection of the number of draws before it. -/
theorem drawnWord_sm_bijective (m : Word) :
    Function.Bijective fun k : Word => mix64 (smNext (gamma * k + m)) :=
  Finite.injective_iff_bijective.mp <|
    mix64_injective.comp <| (add_right_injective gamma).comp <| (add_left_injective m).comp gamma_mul_injective

/-- Settles O19: the transform is injective and its domain finite, and the counters of 2^64 draws are all different. -/
theorem mix64IsABijection : Obligations.Mix64IsABijection := by
  unfold Obligations.Mix64IsABijection
  refine ⟨mix64_bijective, mix64_eq_zero_iff, fun s w => ?_⟩
  obtain ⟨k, hk, hunique⟩ := (drawnWord_sm_bijective s.sm).existsUnique w
  refine ⟨k.toNat, ⟨k.isLt, ?_⟩, ?_⟩
  · rw [drawnWord_sm, BitVec.ofNat_toNat, BitVec.setWidth_eq]
    exact hk
  · rintro j ⟨hj, hw⟩
    rw [drawnWord_sm] at hw
    rw [← hunique _ hw, BitVec.toNat_ofNat, Nat.mod_eq_of_lt hj]

theorem xsNext_bijective : Function.Bijective xsNext := by
  have := finite_xsWords
  exact Finite.injective_iff_bijective.mp xsNext_injective

theorem xsOut_bijective : Function.Bijective xsOut := Finite.injective_iff_bijective.mp xsOut_injective

/-- Settles O22: the lines of R101 put together, each sum in its order. -/
theorem xsNextClosedForm : Obligations.XsNextClosedForm := by
  unfold Obligations.XsNextClosedForm
  intro x
  refine ⟨?_, ?_, rfl, ?_⟩
  · exact (BitVec.xor_assoc _ _ _).symm
  · exact (BitVec.xor_assoc _ _ _).symm
  · exact rotl_eq_rotateLeft _ 45 (by decide) (by decide)

/-- The four counters that a seed gives are different: they differ by one to three increments. -/
theorem seed_counters_distinct (w : Word) (i j : Nat) (hi : i < 4) (hj : j < 4)
    (h : mix64 (gamma * BitVec.ofNat 64 (i + 1) + w) = mix64 (gamma * BitVec.ofNat 64 (j + 1) + w)) : i = j := by
  have heq := congrArg BitVec.toNat (gamma_mul_injective (add_left_injective w (mix64_injective h)))
  simp only [BitVec.toNat_ofNat] at heq
  omega

/-- The seeded words as the first four words that SM would draw from the seed. -/
theorem xsOfSeed_eq (w : Word) : xsOfSeed w =
    ⟨mix64 (gamma * BitVec.ofNat 64 1 + w), mix64 (gamma * BitVec.ofNat 64 2 + w), mix64 (gamma * BitVec.ofNat 64 3 + w),
      mix64 (gamma * BitVec.ofNat 64 4 + w)⟩ := by
  have h1 : smNext w = gamma * BitVec.ofNat 64 (0 + 1) + w := by simp [smNext]
  simp only [xsOfSeed, h1, smNext_gamma_mul]

/-- Settles O27: the update is injective, and a word is 0 only at the counter 0, which one of the four at most is. -/
theorem xsStateNeverAllZero : Obligations.XsStateNeverAllZero := by
  unfold Obligations.XsStateNeverAllZero
  refine ⟨xsNext_bijective, xsNext_zero, fun w => ?_, fun w => xsNext_iterate_ne_zero (xsOfSeed_ne_zero w)⟩
  have hdiff (i j : Nat) (hij : i < j ∧ j < 4) (h0 : mix64 (gamma * BitVec.ofNat 64 (i + 1) + w) = 0) :
      mix64 (gamma * BitVec.ofNat 64 (j + 1) + w) ≠ 0 := fun h0' =>
    hij.1.ne (seed_counters_distinct w i j (hij.1.trans hij.2) hij.2 (h0.trans h0'.symm))
  rw [xsOfSeed_eq]
  exact ⟨fun h => ⟨hdiff 0 1 (by decide) h, hdiff 0 2 (by decide) h, hdiff 0 3 (by decide) h⟩,
    fun h => ⟨hdiff 1 2 (by decide) h, hdiff 1 3 (by decide) h⟩, hdiff 2 3 (by decide)⟩

/-- Settles O28: the scrambler is injective, and 0 is its value at 0. -/
theorem xsOutIsABijection : Obligations.XsOutIsABijection := by
  unfold Obligations.XsOutIsABijection
  exact ⟨xsOut_bijective, fun s => xsOut_eq_zero_iff s.xs.s1⟩

/-! ## The draws after a seeding -/

/-- DRAW on engine `e`. -/
def drawInstr : Engine → Instr
  | .sm => .drawSm
  | .xs => .drawXs

theorem exec_drawInstr {e : Engine} {s : State} (h : seededBit e s = true) :
    exec (drawInstr e) s = .next (respond (draw e s).1 (draw e s).2) := by
  cases e <;> exact ifSeeded_of_seeded _ h

/-- The words that an engine draws depend on its own words alone. -/
theorem drawnWord_congr {e : Engine} {s t : State} (h : EngineKept e s t) (k : Nat) : drawnWord e k t = drawnWord e k s := by
  cases e with
  | sm => exact drawnWord_sm_congr h k
  | xs => rw [drawnWord_xs, drawnWord_xs, show t.xs = s.xs from h]

theorem performAll_cons {i : Instr} {is : List Instr} {s u : State} {rs : List (Instr × Response)}
    (h : performAll (i :: is) s = some (rs, u)) :
    ∃ r t rs', perform i s = some (r, t) ∧ performAll is t = some (rs', u) ∧ rs = (i, r) :: rs' := by
  simp only [performAll] at h
  cases hp : perform i s with
  | none => simp [hp] at h
  | some p =>
    cases hrest : performAll is p.2 with
    | none => simp [hp, hrest] at h
    | some q =>
      obtain ⟨rfl, rfl⟩ : (i, p.1) :: q.1 = rs ∧ q.2 = u := by simpa [hp, hrest] using h
      exact ⟨p.1, p.2, q.1, rfl, hrest, rfl⟩

theorem perform_eq_some {i : Instr} {s t : State} {r : Response} (h : perform i s = some (r, t)) :
    holds i s = false ∧ exec i s = .next t ∧ t.rsp = some r := by
  unfold perform at h
  cases hh : holds i s with
  | true => simp [hh] at h
  | false =>
    cases he : exec i s with
    | next u =>
      obtain ⟨r', hr', rfl, rfl⟩ : ∃ r', u.rsp = some r' ∧ r' = r ∧ u = t := by simpa [hh, he] using h
      exact ⟨rfl, rfl, hr'⟩
    | fault f => simp [hh, he] at h
    | refused f => simp [hh, he] at h

theorem responsesTo_cons (i j : Instr) (r : Response) (rs : List (Instr × Response)) :
    responsesTo i ((j, r) :: rs) = if j = i then r :: responsesTo i rs else responsesTo i rs := by
  unfold responsesTo
  split <;> simp [*]

theorem ne_drawInstr_of_unused {e : Engine} {i : Instr} (h : usesEngine e i = false) : i ≠ drawInstr e := by
  rintro rfl
  cases e <;> cases h

/-- From a seeded engine the responses to its DRAWs are its drawn words in order, whatever commands that do not use it run
between: a DRAW answers the next one, and any other command leaves the engine's words. -/
theorem responsesTo_drawInstr {e : Engine} {is : List Instr} {s u : State} {rs : List (Instr × Response)}
    (hs : seededBit e s = true) (huse : ∀ i ∈ is, i = drawInstr e ∨ usesEngine e i = false)
    (hrun : performAll is s = some (rs, u)) :
    responsesTo (drawInstr e) rs = (List.range (is.count (drawInstr e))).map fun j => ⟨statusOk, drawnWord e j s⟩ := by
  induction is generalizing s rs with
  | nil =>
    cases hrun
    rfl
  | cons i is ih =>
    obtain ⟨r, t, rs', hp, hrest, rfl⟩ := performAll_cons hrun
    obtain ⟨hh, hexec, hr⟩ := perform_eq_some hp
    have ht : seededBit e t = true := exec_keeps_seeded hh hexec hs
    have hrs := ih ht (fun j hj => huse j (List.mem_cons_of_mem i hj)) hrest
    rw [responsesTo_cons, hrs]
    rcases huse i List.mem_cons_self with rfl | hu
    · cases (exec_drawInstr hs).symm.trans hexec
      cases hr
      have hnext (k : Nat) : drawnWord e k (respond (draw e s).1 (draw e s).2) = drawnWord e (k + 1) s := by
        rw [drawnWord_succ]
        exact drawnWord_congr (by cases e <;> rfl) k
      rw [if_pos rfl, List.count_cons_self, List.range_succ_eq_map, List.map_cons, List.map_map]
      simp only [hnext]
      rfl
    · have hkept := exec_engineKept hu hexec
      rw [if_neg (ne_drawInstr_of_unused hu), List.count_cons_of_ne (ne_drawInstr_of_unused hu)]
      simp only [drawnWord_congr hkept]

/-- Settles O20: the drawn words after the seeding, in the closed form of SM. -/
theorem smDrawsDependOnSeedAlone : Obligations.SmDrawsDependOnSeedAlone := by
  unfold Obligations.SmDrawsDependOnSeedAlone
  intro s w t is rs u ht huse hrun
  cases (exec_seedSm w s).symm.trans ht
  have h := responsesTo_drawInstr (s := respond 0 (seedEngine .sm w s)) (seededBit_seedEngine .sm w s) huse hrun
  simp only [drawnWord_sm, smNext_gamma_mul] at h
  exact h

/-- Settles O29: the drawn words after the seeding, in the closed form of XS. -/
theorem xsDrawsDependOnSeedAlone : Obligations.XsDrawsDependOnSeedAlone := by
  unfold Obligations.XsDrawsDependOnSeedAlone
  intro s w t is rs u ht huse hrun
  cases (exec_seedXs w s).symm.trans ht
  have h := responsesTo_drawInstr (s := respond 0 (seedEngine .xs w s)) (seededBit_seedEngine .xs w s) huse hrun
  simp only [drawnWord_xs] at h
  exact h

end Sys2Proof.Machine
end

section
/-!
PROOF. The table of side effects (20_memory.md section 3): the commands that change nothing answer the same twice, a seeding
repeated leaves the same state, and a command that answers OK after drawing changes its engine by its draws alone.
-/

namespace Sys2Proof.Machine

/-! ## Commands that change no engine -/

/-- The three outcomes of STATE_RD. -/
theorem stateRead_cases (e : Engine) (index : Word) (s : State) :
    (seededBit e s = false ∧ stateRead e index s = .next (raise .notSeeded s)) ∨
    (seededBit e s = true ∧ stateWord e index s = none ∧ stateRead e index s = .next (raise .badIndex s)) ∨
    ∃ w, seededBit e s = true ∧ stateWord e index s = some w ∧ stateRead e index s = .next (respond w s) := by
  unfold stateRead
  cases hs : seededBit e s with
  | false => exact .inl ⟨rfl, ifSeeded_of_unseeded _ hs⟩
  | true =>
    rw [ifSeeded_of_seeded _ hs]
    cases stateWord e index s with
    | none => exact .inr (.inl ⟨rfl, rfl, rfl⟩)
    | some w => exact .inr (.inr ⟨w, rfl, rfl, rfl⟩)

/-- The engines and SEEDED are those of before, and the response is that of `u`. -/
def SameEnginesAndResponse (s t u : State) : Prop :=
  t.sm = s.sm ∧ t.xs = s.xs ∧ t.seeded = s.seeded ∧ u.rsp = t.rsp

theorem stateRead_twice {e : Engine} {index : Word} {s t u : State} (ht : stateRead e index s = .next t)
    (hu : stateRead e index t = .next u) : SameEnginesAndResponse s t u := by
  rcases stateRead_cases e index s with ⟨hs, h⟩ | ⟨hs, hw, h⟩ | ⟨w, hs, hw, h⟩ <;> cases h.symm.trans ht <;>
    refine ⟨rfl, rfl, rfl, ?_⟩
  · cases (ifSeeded_of_unseeded (s := raise .notSeeded s) _ hs).symm.trans hu
    rfl
  · have hw' : stateWord e index (raise .badIndex s) = none := (stateWord_congr (by cases e <;> rfl) index).trans hw
    rw [stateRead, ifSeeded_of_seeded (s := raise .badIndex s) _ hs, hw'] at hu
    cases hu
    rfl
  · have hw' : stateWord e index (respond w s) = some w := (stateWord_congr (by cases e <;> rfl) index).trans hw
    rw [stateRead, ifSeeded_of_seeded (s := respond w s) _ hs, hw'] at hu
    cases hu
    rfl

theorem exec_twice_sameEnginesAndResponse {i : Instr} {s t u : State} {a : Word}
    (hi : i ∈ [.stateRdSm a, .stateRdXs a, .status, .minSm, .minXs, .maxSm, .maxXs])
    (ht : exec i s = .next t) (hu : exec i t = .next u) : SameEnginesAndResponse s t u := by
  fin_cases hi
  · exact stateRead_twice ht hu
  · exact stateRead_twice ht hu
  · have hrsp := exec_status_twice ht hu
    cases ht
    exact ⟨rfl, rfl, rfl, hrsp⟩
  all_goals
    cases ht
    cases hu
    exact ⟨rfl, rfl, rfl, rfl⟩

/-! ## Seedings -/

/-- A second seeding with the same word finds the engine and its bit as it would leave them. -/
theorem respond_seedEngine_twice (e : Engine) (w : Word) (s : State) :
    respond 0 (seedEngine e w (respond 0 (seedEngine e w s))) = respond 0 (seedEngine e w s) := by
  cases e <;> simp [respond, endCommand, seedEngine_sm, seedEngine_xs, BitVec.or_assoc]

theorem exec_seed_twice {i : Instr} {s t u : State} {w : Word} (hi : i ∈ [.seedSm w, .seedXs w])
    (ht : exec i s = .next t) (hu : exec i t = .next u) : u = t := by
  fin_cases hi <;> cases ht <;> cases hu
  · exact respond_seedEngine_twice .sm w s
  · exact respond_seedEngine_twice .xs w s

/-- SEED_ENT answers OK only with a word of the entropy source. -/
theorem seedEnt_ok {e : Engine} {s t : State} {d : Word} (hw : entropyRead s ≠ .waiting) (h : seedEnt e s = .next t)
    (hok : t.rsp = some ⟨0#4, d⟩) :
    ∃ w rest, s.ent = .word w :: rest ∧ t = respond 0 (seedEngine e w { s with ent := rest }) := by
  rcases entropyRead_cases s with ⟨w, rest, he, -⟩ | ⟨rest, he, -⟩ | ⟨-, hwait⟩
  · cases (seedEnt_of_word he).symm.trans h
    exact ⟨w, rest, he, rfl⟩
  · cases (seedEnt_of_fail he).symm.trans h
    cases hok
  · exact absurd hwait hw

theorem entropyRead_ne_waiting {i : Instr} {s : State} (hr : requestsEntropy i = true) (hh : holds i s = false) :
    entropyRead s ≠ .waiting := by
  simpa [holds, hr] using hh

/-- Repeated, SEED_ENT takes the entropy source's next word. -/
theorem seedEnt_twice {e : Engine} {s t : State} {w w' : Word} {rest : List EntAct}
    (hent : s.ent = .word w :: .word w' :: rest) (h : seedEnt e s = .next t) :
    seedEnt e t = .next (respond 0 (seedEngine e w' { t with ent := rest })) := by
  cases (seedEnt_of_word hent).symm.trans h
  exact seedEnt_of_word (by simp)

/-! ## Commands that draw -/

/-- Where the outcome is a response with status OK, it came after a number of draws with the property `P`, and nothing else. -/
def DrawsOk (P : Nat → Prop) (e : Engine) (s : State) (o : Result) : Prop :=
  ∀ t d, o = .next t → t.rsp = some ⟨0#4, d⟩ → ∃ k, P k ∧ t = respond d (afterDraws e k s)

section
variable {P : Nat → Prop} {e : Engine} {s : State} {body : Result}

theorem drawsOk_raise (k : ErrCode) : DrawsOk P e s (.next (raise k s)) := by
  rintro _ d ⟨⟩ hok
  simp only [raise_rsp, Option.some.injEq, Response.mk.injEq] at hok
  exact absurd hok.1 (errCode_ne_zero k)

theorem drawsOk_respond {k : Nat} (hk : P k) (v : Word) : DrawsOk P e s (.next (respond v (afterDraws e k s))) := by
  rintro _ d ⟨⟩ ⟨⟩
  exact ⟨k, hk, rfl⟩

theorem drawsOk_ifSeeded (h : DrawsOk P e s body) : DrawsOk P e s (ifSeeded e s body) := by
  unfold ifSeeded
  split
  · exact h
  · exact drawsOk_raise _

theorem drawsOk_ifBound {n : Word} (h : DrawsOk P e s body) : DrawsOk P e s (ifBound n s body) := by
  unfold ifBound
  split
  · exact drawsOk_raise _
  · exact h

theorem drawsOk_ifFinite {lo hi : Word} (h : DrawsOk P e s body) : DrawsOk P e s (ifFinite lo hi s body) := by
  unfold ifFinite
  split
  · exact h
  · exact drawsOk_raise _

theorem drawsOk_drawAndAnswer (f : Word → Word) : DrawsOk (· = 1) e s (drawAndAnswer e f s) :=
  drawsOk_respond (P := (· = 1)) (k := 1) rfl _

theorem drawsOk_boundedRej (n : Word) : DrawsOk (1 ≤ ·) e s (boundedRej e n s) := by
  refine drawsOk_ifSeeded (drawsOk_ifBound ?_)
  cases hl : rejLoop e n Config.rejFuel s with
  | none => rintro _ _ ⟨⟩
  | some p =>
    obtain ⟨k, -, -, -, -, ht⟩ := rejLoop_eq_some (w := p.1) (t := p.2) hl
    change DrawsOk (1 ≤ ·) e s (.next (respond p.1 p.2))
    rw [ht]
    exact drawsOk_respond (Nat.le_add_left 1 k) p.1

end

theorem exec_sm_drawsOk {i : Instr} {n lo hi : Word} (h : i ∈ [.drawSm, .boundedSm n, .real01Sm, .realBetweenSm lo hi])
    (s : State) : DrawsOk (· = 1) .sm s (exec i s) := by
  fin_cases h
  · exact drawsOk_ifSeeded (drawsOk_drawAndAnswer _)
  · exact drawsOk_ifSeeded (drawsOk_ifBound (drawsOk_drawAndAnswer _))
  · exact drawsOk_ifSeeded (drawsOk_drawAndAnswer _)
  · exact drawsOk_ifSeeded (drawsOk_ifFinite (drawsOk_drawAndAnswer _))

theorem exec_xs_drawsOk {i : Instr} {n lo hi : Word} (h : i ∈ [.drawXs, .boundedXs n, .real01Xs, .realBetweenXs lo hi])
    (s : State) : DrawsOk (· = 1) .xs s (exec i s) := by
  fin_cases h
  · exact drawsOk_ifSeeded (drawsOk_drawAndAnswer _)
  · exact drawsOk_ifSeeded (drawsOk_ifBound (drawsOk_drawAndAnswer _))
  · exact drawsOk_ifSeeded (drawsOk_drawAndAnswer _)
  · exact drawsOk_ifSeeded (drawsOk_ifFinite (drawsOk_drawAndAnswer _))

/-- Settles O50, one lemma for each row of the table; an engine after its draws is in the closed form of `afterDraws`. -/
theorem sideEffectsByCommand : Obligations.SideEffectsByCommand := by
  unfold Obligations.SideEffectsByCommand
  refine ⟨fun i s t u a => exec_twice_sameEnginesAndResponse, fun i s t u w => exec_seed_twice, ?_, ?_, ?_, ?_, ?_, ?_, ?_⟩
  · intro i s t d n lo hi hmem ht hok
    obtain ⟨_, rfl, rfl⟩ := exec_sm_drawsOk hmem s t d ht hok
    rfl
  · intro i s t d n lo hi hmem ht hok
    obtain ⟨_, rfl, rfl⟩ := exec_xs_drawsOk hmem s t d ht hok
    rfl
  · intro s t n d ht hok
    obtain ⟨k, hk, rfl⟩ := drawsOk_boundedRej (e := .sm) n t d ht hok
    exact ⟨k, hk, by rw [afterDraws_sm]; rfl⟩
  · intro s t n d ht hok
    obtain ⟨k, hk, rfl⟩ := drawsOk_boundedRej (e := .xs) n t d ht hok
    exact ⟨k, hk, by rw [afterDraws_xs]; rfl⟩
  · intro s t d hh ht hok
    obtain ⟨w, rest, he, rfl⟩ := seedEnt_ok (e := .sm) (entropyRead_ne_waiting rfl hh) ht hok
    exact ⟨w, he, rfl⟩
  · intro s t d hh ht hok
    obtain ⟨w, rest, he, rfl⟩ := seedEnt_ok (e := .xs) (entropyRead_ne_waiting rfl hh) ht hok
    exact ⟨w, he, rfl⟩
  · intro s t w w' rest hent
    exact ⟨fun ht => ⟨_, seedEnt_twice (e := .sm) hent ht, rfl, rfl⟩,
      fun ht => ⟨_, seedEnt_twice (e := .xs) hent ht, rfl, rfl⟩⟩

end Sys2Proof.Machine
end

section
/-!
PROOF. Bounded integers in numbers (42_bounded.md sections 1 and 2): how many words give each result, the threshold as a
remainder of 2^64, and that the rejection loop of SM meets every word.
-/

namespace Sys2Proof.Machine

/-! ## The high product (R121) -/

theorem toNat_pos {n : Word} (hn : n ≠ 0) : 0 < n.toNat := Nat.pos_of_ne_zero (BitVec.toNat_ne_iff_ne.mpr hn)

theorem toNat_mulhi (n w : Word) : (mulhi n w).toNat = n.toNat * w.toNat / 2 ^ 64 := by
  rw [mulhi, BitVec.toNat_ofNat]
  refine Nat.mod_eq_of_lt (Nat.div_lt_of_lt_mul ?_)
  exact Nat.mul_lt_mul'' n.isLt w.isLt

theorem mulhi_lt {n : Word} (w : Word) (hn : n ≠ 0) : (mulhi n w).toNat < n.toNat := by
  rw [toNat_mulhi]
  refine Nat.div_lt_of_lt_mul ?_
  rw [Nat.mul_comm]
  exact Nat.mul_lt_mul_of_pos_right w.isLt (toNat_pos hn)

/-- The words that give `r` are those from `⌈r 2^64 / n⌉` up to `⌈(r+1) 2^64 / n⌉`. -/
theorem filter_mulhi_eq {n : Word} {r : Nat} (hr : r < n.toNat) :
    ((Finset.range (2 ^ 64)).filter fun v => (mulhi n (BitVec.ofNat 64 v)).toNat = r) =
      Finset.Ico (r * 2 ^ 64 ⌈/⌉ n.toNat) ((r + 1) * 2 ^ 64 ⌈/⌉ n.toNat) := by
  have hpos : 0 < n.toNat := by omega
  have htop : (r + 1) * 2 ^ 64 ⌈/⌉ n.toNat ≤ 2 ^ 64 :=
    (ceilDiv_le_iff_le_mul hpos).mpr (Nat.mul_le_mul_right _ hr)
  have hceil (v : Nat) : v < (r + 1) * 2 ^ 64 ⌈/⌉ n.toNat ↔ n.toNat * v < (r + 1) * 2 ^ 64 := by
    rw [← not_le, ceilDiv_le_iff_le_mul hpos, not_le]
  ext v
  rw [Finset.mem_filter, Finset.mem_range, Finset.mem_Ico, hceil, ceilDiv_le_iff_le_mul hpos, toNat_mulhi, BitVec.toNat_ofNat]
  constructor
  · rintro ⟨hv, h⟩
    rw [Nat.mod_eq_of_lt hv] at h
    omega
  · rintro ⟨hlow, hhigh⟩
    have hv : v < 2 ^ 64 := ((hceil v).mpr hhigh).trans_le htop
    rw [Nat.mod_eq_of_lt hv]
    omega

/-- A step of `2^64` moves the rounded quotient by `⌊2^64 / n⌋` or one more. -/
theorem ceil_step_cases (n r : Nat) (hn : 0 < n) :
    ((r + 1) * 2 ^ 64 + n - 1) / n - (r * 2 ^ 64 + n - 1) / n = 2 ^ 64 / n ∨
    ((r + 1) * 2 ^ 64 + n - 1) / n - (r * 2 ^ 64 + n - 1) / n = 2 ^ 64 / n + 1 := by
  have hsplit : (r + 1) * 2 ^ 64 + n - 1 = (r * 2 ^ 64 + n - 1) + 2 ^ 64 := by omega
  have hlow : (r * 2 ^ 64 + n - 1) / n + 2 ^ 64 / n ≤ (r * 2 ^ 64 + n - 1 + 2 ^ 64) / n := Nat.div_add_div_le_add_div
  have hhigh := Nat.add_div_le_div_add_div_add_one (r * 2 ^ 64 + n - 1) (2 ^ 64) n
  rw [hsplit]
  generalize (r * 2 ^ 64 + n - 1 + 2 ^ 64) / n = b, (r * 2 ^ 64 + n - 1) / n = a, 2 ^ 64 / n = q at hlow hhigh ⊢
  omega

/-- Settles O31: the words that give a result are an interval between two rounded quotients. -/
theorem boundedRangeAndBias : Obligations.BoundedRangeAndBias := by
  unfold Obligations.BoundedRangeAndBias
  refine ⟨fun n w => mulhi_lt w, fun n r hr => ?_⟩
  dsimp only
  rw [filter_mulhi_eq hr, Nat.card_Ico, Nat.ceilDiv_eq_add_pred_div, Nat.ceilDiv_eq_add_pred_div]
  exact ⟨rfl, ceil_step_cases n.toNat r (by omega)⟩

/-! ## The threshold (R122) -/

theorem toNat_threshold_eq_sub_mod {n : Word} (hn : n ≠ 0) : (threshold n).toNat = (2 ^ 64 - n.toNat) % n.toNat := by
  have hpos : 0 < n.toNat := toNat_pos hn
  have hneg : (0 - n).toNat = 2 ^ 64 - n.toNat := by
    rw [BitVec.toNat_sub]
    exact Nat.mod_eq_of_lt (by simp; omega)
  rw [threshold, BitVec.toNat_umod, hneg]

theorem toNat_threshold {n : Word} (hn : n ≠ 0) : (threshold n).toNat = 2 ^ 64 % n.toNat := by
  rw [toNat_threshold_eq_sub_mod hn, ← Nat.mod_eq_sub_mod n.isLt.le]

theorem threshold_lt {n : Word} (hn : n ≠ 0) : (threshold n).toNat < n.toNat := by
  rw [toNat_threshold hn]
  exact Nat.mod_lt _ (toNat_pos hn)

/-- Settles O32: subtracting `n` once from `2^64` leaves its remainder; the sample values are evaluated. -/
theorem thresholdIsTwoTo64ModN : Obligations.ThresholdIsTwoTo64ModN := by
  unfold Obligations.ThresholdIsTwoTo64ModN
  refine ⟨fun n hn => ⟨toNat_threshold_eq_sub_mod hn, toNat_threshold hn, threshold_lt hn⟩, ?_⟩
  decide

/-! ## Uniformity (R123, R124) -/

/-- Of `q` periods of `n` numbers, each residue is met `q` times. -/
theorem card_filter_mod_eq {n r : Nat} (hr : r < n) (a q : Nat) :
    ((Finset.Ico a (a + n * q)).filter fun v => v % n = r).card = q := by
  have hpos : (0 : ℚ) < n := by exact_mod_cast (Nat.zero_le r).trans_lt hr
  have hmod : ((Finset.Ico a (a + n * q)).filter fun v => v % n = r) =
      (Finset.Ico a (a + n * q)).filter fun v => v ≡ r [MOD n] := by
    simp only [Nat.ModEq, Nat.mod_eq_of_lt hr]
  have hshift : ((a + n * q : Nat) - r : ℚ) / n = (a - r) / n + (q : ℤ) := by
    push_cast
    field_simp
    ring
  have hcard := Nat.Ico_filter_modEq_card a (a + n * q) ((Nat.zero_le r).trans_lt hr) r
  rw [hshift, Int.ceil_add_intCast, add_sub_cancel_left, max_eq_left (Int.natCast_nonneg q)] at hcard
  rw [hmod]
  exact_mod_cast hcard

/-- The accepted words with result `r` are the numbers from the threshold up that leave the remainder `r`. -/
theorem filter_accepted_eq (n : Word) (r : Nat) :
    ((Finset.range (2 ^ 64)).filter fun v => threshold n ≤ BitVec.ofNat 64 v ∧ (BitVec.ofNat 64 v % n).toNat = r) =
      (Finset.Ico (threshold n).toNat (2 ^ 64)).filter fun v => v % n.toNat = r := by
  ext v
  rw [Finset.mem_filter, Finset.mem_filter, Finset.mem_range, Finset.mem_Ico, BitVec.le_def, BitVec.toNat_umod,
    BitVec.toNat_ofNat]
  constructor
  · rintro ⟨hv, hle, hmod⟩
    rw [Nat.mod_eq_of_lt hv] at hle hmod
    exact ⟨⟨hle, hv⟩, hmod⟩
  · rintro ⟨⟨hle, hv⟩, hmod⟩
    rw [Nat.mod_eq_of_lt hv]
    exact ⟨hv, hle, hmod⟩

/-- The remainder of `2^64` is below half of it. -/
theorem threshold_lt_twoPow63 {n : Word} (hn : n ≠ 0) : (threshold n).toNat < 2 ^ 63 := by
  rcases Nat.lt_or_ge (2 ^ 63) n.toNat with hbig | hsmall
  · have hle := Nat.mod_le (2 ^ 64 - n.toNat) n.toNat
    rw [toNat_threshold_eq_sub_mod hn]
    omega
  · exact (threshold_lt hn).trans_le hsmall

/-- Settles O33: the accepted words are whole periods of `n`. -/
theorem rejectionIsUniform : Obligations.RejectionIsUniform := by
  unfold Obligations.RejectionIsUniform
  intro n hn
  have hpos : 0 < n.toNat := toNat_pos hn
  have hdvd : n.toNat ∣ 2 ^ 64 - (threshold n).toNat := by
    rw [toNat_threshold hn]
    exact Nat.dvd_sub_mod (2 ^ 64)
  refine ⟨hdvd, threshold_lt_twoPow63 hn, fun r hr => ?_⟩
  obtain ⟨q, hq⟩ := hdvd
  have hall : 2 ^ 64 = (threshold n).toNat + n.toNat * q := by
    have := (threshold n).isLt
    omega
  rw [filter_accepted_eq, hq, Nat.mul_div_cancel_left q hpos, hall]
  exact card_filter_mod_eq hr _ q

/-! ## Termination on SM (R128) -/

/-- Among its first 2^64 draws SM draws the word of all ones, which every bound accepts. -/
theorem exists_firstAccepted_sm (n : Word) (s : State) : ∃ k < 2 ^ 64, FirstAccepted .sm n s k := by
  obtain ⟨-, -, honce⟩ := mix64IsABijection
  obtain ⟨k, ⟨hk, hw⟩, -⟩ := honce s (BitVec.allOnes 64)
  have hk' : threshold n ≤ drawnWord .sm k s := by
    rw [hw, BitVec.le_def, BitVec.toNat_allOnes]
    exact Nat.le_pred_of_lt (threshold n).isLt
  have hacc : ∃ k, threshold n ≤ drawnWord .sm k s := ⟨k, hk'⟩
  refine ⟨Nat.find hacc, (Nat.find_min' hacc hk').trans_lt hk, fun j hj => ?_, Nat.find_spec hacc⟩
  exact BitVec.not_le.mp (Nat.find_min hacc hj)

/-- Settles O35: the first accepted word comes among 2^64 draws, and its remainder is below the bound. -/
theorem boundedRejSmTerminates : Obligations.BoundedRejSmTerminates := by
  unfold Obligations.BoundedRejSmTerminates
  intro s n hs hn
  obtain ⟨k, hk, hfirst⟩ := exists_firstAccepted_sm n s
  refine ⟨k, drawnWord .sm k s % n, hk, BitVec.umod_lt _ (toNat_pos hn), ?_⟩
  have h := boundedRej_of_firstAccepted (e := .sm) hs hn hfirst
  rw [afterDraws_sm] at h
  exact h

end Sys2Proof.Machine
end

section
/-!
PROOF. Rounding to binary64 (43_real.md R143; 30_encoding.md R68; 93_implementation_defined.md G1, G2). The machine's rounding
of a shifted integer and the assembler's rounding of a ratio are one function of a numerator and a denominator, so what it
means to be nearest, the even one on a tie, is proved once for both.
-/

namespace Sys2Proof.Machine

/-! ## Rounding to a whole number -/

/-- The rounded quotient is at most half a divisor from the dividend, and even where it is exactly half of one. -/
theorem roundRatio_spec (u : Nat) {D : Nat} (hD : 0 < D) :
    2 * (roundRatio u D * D) ≤ 2 * u + D ∧ 2 * u ≤ 2 * (roundRatio u D * D) + D ∧
      (2 * (roundRatio u D * D) = 2 * u + D ∨ 2 * u = 2 * (roundRatio u D * D) + D → roundRatio u D % 2 = 0) := by
  have hmod : u % D < D := Nat.mod_lt u hD
  have hdiv : u / D * D + u % D = u := Nat.div_add_mod' u D
  have hup : (u / D + 1) * D = u / D * D + D := Nat.succ_mul _ _
  unfold roundRatio
  split
  · rw [hup]
    omega
  · omega

/-- The dividend's distance from `j` divisors. -/
def distance (j D u : Nat) : Nat := ((j * D : Nat) - (u : Int)).natAbs

/-- No whole number is nearer than the rounded quotient, and where another is as near the rounded one is even. -/
theorem roundRatio_nearest (u : Nat) {D : Nat} (hD : 0 < D) (j : Nat) :
    distance (roundRatio u D) D u ≤ distance j D u ∧
      (distance (roundRatio u D) D u = distance j D u → j ≠ roundRatio u D → roundRatio u D % 2 = 0) := by
  obtain ⟨hlow, hhigh, heven⟩ := roundRatio_spec u hD
  have hfar (a b : Nat) (h : a < b) : a * D + D ≤ b * D := (Nat.succ_mul a D).symm.trans_le (Nat.mul_le_mul_right D h)
  have hbelow := hfar j (roundRatio u D)
  have habove := hfar (roundRatio u D) j
  unfold distance
  generalize roundRatio u D = r at *
  rcases Nat.lt_trichotomy j r with hlt | rfl | hgt
  · have := hbelow hlt
    omega
  · simp
  · have := habove hgt
    omega

theorem le_roundRatio {u D c : Nat} (hD : 0 < D) (h : c * D ≤ u) : c ≤ roundRatio u D := by
  have hc : c ≤ u / D := (Nat.le_div_iff_mul_le hD).mpr h
  unfold roundRatio
  split <;> omega

theorem roundRatio_le {u D c : Nat} (hD : 0 < D) (h : u < c * D) : roundRatio u D ≤ c := by
  have hc : u / D < c := (Nat.div_lt_iff_lt_mul hD).mpr h
  unfold roundRatio
  split <;> omega

/-! ## The magnitude of a rounded ratio -/

/-- The exponent above the subnormals that leaves 53 bits of `u / den`. -/
def ratioExp (u den : Nat) : Nat := (u / den).log2 - 52

/-- One unit of the last kept bit, in the scale of `u`. -/
def ratioStep (u den : Nat) : Nat := den * 2 ^ ratioExp u den

/-- The significand: `u / den` in those units, rounded. -/
def ratioSig (u den : Nat) : Nat := roundRatio u (ratioStep u den)

/-- The 63 bits below the sign of the binary64 nearest to `u / den` units of `2^-1074`. -/
def ratioMag (u den : Nat) : Nat := min (ratioExp u den * 2 ^ 52 + ratioSig u den) f64InfMag

theorem f64OfRatio_eq_pack (neg : Bool) (num den : Nat) :
    f64OfRatio neg num den = f64Pack neg (ratioMag (num * 2 ^ 1074) den) :=
  rfl

theorem roundShift_eq_roundRatio (n d : Nat) : roundShift n d = roundRatio n (2 ^ d) := by
  unfold roundShift roundRatio
  simp only [gt_iff_lt]

/-- A right shift by `sh` lowers the place of the highest bit by `sh`. -/
theorem log2_div_twoPow (n sh : Nat) : (n / 2 ^ sh).log2 = n.log2 - sh := by
  simp only [Nat.log2_eq_log_two, Nat.log_div_base_pow]

theorem f64Round_eq_pack (neg : Bool) (n sh : Nat) : f64Round neg n sh = f64Pack neg (ratioMag n (2 ^ sh)) := by
  have hexp : max (n.log2 - 52) sh - sh = ratioExp n (2 ^ sh) := by
    rw [ratioExp, log2_div_twoPow]
    omega
  have hstep : 2 ^ max (n.log2 - 52) sh = ratioStep n (2 ^ sh) := by
    rw [ratioStep, ← hexp, ← pow_add]
    congr 1
    omega
  simp only [f64Round, roundShift_eq_roundRatio, hexp, hstep]
  rfl

section
variable {u den : Nat}

theorem ratioStep_pos (hden : 0 < den) : 0 < ratioStep u den := Nat.mul_pos hden (Nat.two_pow_pos _)

theorem lt_ratioStep (hden : 0 < den) : u < 2 ^ 53 * ratioStep u den := by
  have hlog : u / den < 2 ^ (53 + ratioExp u den) :=
    Nat.lt_log2_self.trans_le (Nat.pow_le_pow_right (by decide) (by unfold ratioExp; omega))
  have h := (Nat.div_lt_iff_lt_mul hden).mp hlog
  rwa [pow_add, Nat.mul_assoc, Nat.mul_comm _ den] at h

theorem ratioStep_le (hden : 0 < den) (he : 0 < ratioExp u den) : 2 ^ 52 * ratioStep u den ≤ u := by
  have hlog : (u / den).log2 = 52 + ratioExp u den := by unfold ratioExp at he ⊢; omega
  have hne : u / den ≠ 0 := by
    intro h0
    rw [h0, Nat.log2_zero] at hlog
    omega
  have h := Nat.log2_self_le hne
  rw [hlog, Nat.le_div_iff_mul_le hden, pow_add, Nat.mul_assoc, Nat.mul_comm _ den] at h
  exact h

theorem ratioSig_spec (hden : 0 < den) :
    2 * (ratioSig u den * ratioStep u den) ≤ 2 * u + ratioStep u den ∧
      2 * u ≤ 2 * (ratioSig u den * ratioStep u den) + ratioStep u den ∧
      (2 * (ratioSig u den * ratioStep u den) = 2 * u + ratioStep u den ∨
        2 * u = 2 * (ratioSig u den * ratioStep u den) + ratioStep u den → ratioSig u den % 2 = 0) :=
  roundRatio_spec u (ratioStep_pos hden)

theorem ratioSig_le (hden : 0 < den) : ratioSig u den ≤ 2 ^ 53 := roundRatio_le (ratioStep_pos hden) (lt_ratioStep hden)

theorem le_ratioSig (hden : 0 < den) : ratioExp u den = 0 ∨ 2 ^ 52 ≤ ratioSig u den :=
  (Nat.eq_zero_or_pos _).imp_right fun he => le_roundRatio (ratioStep_pos hden) (ratioStep_le hden he)

/-- A binary64 of a lower exponent is less than `2^52` steps, which the ratio is not. -/
theorem distance_lower_exponent {q d : Nat} (hden : 0 < den) (hq : q < 2 ^ 53) (hd : d < ratioExp u den) :
    distance (ratioSig u den) (ratioStep u den) u < distance (q * 2 ^ d) den u := by
  obtain ⟨hnear, -⟩ := roundRatio_nearest u (ratioStep_pos (u := u) hden) (2 ^ 52)
  have hstep := ratioStep_le hden (Nat.zero_lt_of_lt hd)
  have hlow : q * 2 ^ d * den < 2 ^ 52 * ratioStep u den := by
    have hpow : 2 ^ 53 * 2 ^ d ≤ 2 ^ 52 * 2 ^ ratioExp u den := by
      rw [← pow_add, ← pow_add]
      exact Nat.pow_le_pow_right (by decide) (by omega)
    have hlt : q * 2 ^ d < 2 ^ 52 * 2 ^ ratioExp u den :=
      (Nat.mul_lt_mul_of_pos_right hq (Nat.two_pow_pos d)).trans_le hpow
    calc q * 2 ^ d * den < 2 ^ 52 * 2 ^ ratioExp u den * den := Nat.mul_lt_mul_of_pos_right hlt hden
      _ = 2 ^ 52 * ratioStep u den := by rw [ratioStep, Nat.mul_assoc, Nat.mul_comm den]
  refine hnear.trans_lt ?_
  unfold distance
  omega

/-- No number of units that a binary64 can hold is nearer to the ratio than the rounded significand. -/
theorem ratioSig_nearest (hden : 0 < den) {q d : Nat} (hq : q < 2 ^ 53) :
    distance (ratioSig u den * 2 ^ ratioExp u den) den u ≤ distance (q * 2 ^ d) den u ∧
      (distance (ratioSig u den * 2 ^ ratioExp u den) den u = distance (q * 2 ^ d) den u →
        q * 2 ^ d ≠ ratioSig u den * 2 ^ ratioExp u den → ratioSig u den % 2 = 0) := by
  have hscale (j : Nat) : distance (j * 2 ^ ratioExp u den) den u = distance j (ratioStep u den) u := by
    rw [distance, distance, ratioStep, Nat.mul_assoc, Nat.mul_comm den]
  rcases Nat.lt_or_ge d (ratioExp u den) with hd | hd
  · have hlt := distance_lower_exponent hden hq hd
    rw [hscale]
    exact ⟨hlt.le, fun heq => absurd heq hlt.ne⟩
  · have hsplit : q * 2 ^ d = q * 2 ^ (d - ratioExp u den) * 2 ^ ratioExp u den := by
      rw [Nat.mul_assoc, ← pow_add, Nat.sub_add_cancel hd]
    obtain ⟨hle, heven⟩ := roundRatio_nearest u (ratioStep_pos (u := u) hden) (q * 2 ^ (d - ratioExp u den))
    rw [hsplit, hscale, hscale]
    exact ⟨hle, fun heq hne => heven heq fun h => hne (congrArg (· * 2 ^ ratioExp u den) h)⟩

/-! ## Overflow -/

theorem ratioMag_le : ratioMag u den ≤ f64InfMag := Nat.min_le_right _ _

theorem ratioMag_of_lt (h : ratioMag u den < f64InfMag) : ratioMag u den = ratioExp u den * 2 ^ 52 + ratioSig u den := by
  unfold ratioMag at h ⊢
  omega

/-- Half a spacing above the largest finite magnitude, in steps of its exponent 2045. -/
theorem overflow_eq_step (h : ratioExp u den = 2045) :
    2 * ((2 ^ 54 - 1) * 2 ^ 2044 * den) = (2 ^ 54 - 1) * ratioStep u den := by
  rw [ratioStep, h, pow_succ 2 2044]
  generalize 2 ^ 2044 = p
  ring

theorem overflow_of_infMag_le (hden : 0 < den) (h : f64InfMag ≤ ratioExp u den * 2 ^ 52 + ratioSig u den) :
    (2 ^ 54 - 1) * 2 ^ 2044 * den ≤ u := by
  have hsig := ratioSig_le (u := u) hden
  have he : 2045 ≤ ratioExp u den := by unfold f64InfMag at h; omega
  rcases he.eq_or_lt with he | he
  · have hmax : 2 ^ 53 ≤ ratioSig u den := by unfold f64InfMag at h; omega
    obtain ⟨hlow, -, -⟩ := ratioSig_spec (u := u) hden
    have hmul := Nat.mul_le_mul_right (ratioStep u den) hmax
    have hover : (2 ^ 54 - 1) * ratioStep u den ≤ 2 * u := by omega
    exact Nat.le_of_mul_le_mul_left ((overflow_eq_step he.symm).trans_le hover) Nat.two_pos
  · have hstep := ratioStep_le hden (Nat.zero_lt_of_lt he)
    have hpow : 2 ^ 2046 ≤ 2 ^ ratioExp u den := pow_le_pow_right₀ one_le_two (Nat.succ_le_of_lt he)
    have hbound : 2 ^ 52 * (den * 2 ^ 2046) ≤ 2 ^ 52 * ratioStep u den :=
      Nat.mul_le_mul_left _ (Nat.mul_le_mul_left den hpow)
    have hover : (2 ^ 54 - 1) * 2 ^ 2044 * den ≤ 2 ^ 52 * (den * 2 ^ 2046) := by
      rw [pow_succ 2 2045, pow_succ 2 2044]
      generalize 2 ^ 2044 = p
      calc (2 ^ 54 - 1) * p * den ≤ 2 ^ 54 * p * den := Nat.mul_le_mul_right _ (Nat.mul_le_mul_right _ (by decide))
        _ = 2 ^ 52 * (den * (p * 2 * 2)) := by ring
    exact hover.trans (hbound.trans hstep)

/-- With the largest significand, half a spacing above it is a tie. -/
theorem tie_of_largest {r S : Nat} (hr : r = 2 ^ 53 - 1) (hlow : (2 ^ 54 - 1) * S ≤ 2 * u)
    (hhigh : 2 * u ≤ 2 * (r * S) + S) : 2 * u = 2 * (r * S) + S := by
  have hmul : r * S = (2 ^ 53 - 1) * S := congrArg (· * S) hr
  omega

theorem infMag_le_of_overflow (hden : 0 < den) (h : (2 ^ 54 - 1) * 2 ^ 2044 * den ≤ u) :
    f64InfMag ≤ ratioExp u den * 2 ^ 52 + ratioSig u den := by
  by_contra hlt
  have hlow := le_ratioSig (u := u) hden
  have he : ratioExp u den ≤ 2045 := by unfold f64InfMag at hlt; omega
  rcases he.eq_or_lt with he | he
  · have hmax : ratioSig u den < 2 ^ 53 := by unfold f64InfMag at hlt; omega
    obtain ⟨-, hhigh, heven⟩ := ratioSig_spec (u := u) hden
    have hpos := ratioStep_pos (u := u) hden
    have hover : (2 ^ 54 - 1) * ratioStep u den ≤ 2 * u := (overflow_eq_step he).symm.trans_le (Nat.mul_le_mul_left 2 h)
    clear h
    rcases Nat.lt_or_ge (ratioSig u den) (2 ^ 53 - 1) with hsmall | hlarge
    · have hle : ratioSig u den ≤ 2 ^ 53 - 2 := by omega
      have hmul := Nat.mul_le_mul_right (ratioStep u den) hle
      omega
    · have hsig : ratioSig u den = 2 ^ 53 - 1 := by omega
      have hodd : ratioSig u den % 2 ≠ 0 := by omega
      exact absurd (heven (.inr (tie_of_largest hsig hover hhigh))) hodd
  · have hbelow := lt_ratioStep (u := u) hden
    have hpow : 2 ^ ratioExp u den ≤ 2 ^ 2044 := pow_le_pow_right₀ one_le_two (Nat.le_of_lt_succ he)
    have hbound : 2 ^ 53 * ratioStep u den ≤ 2 ^ 53 * (den * 2 ^ 2044) :=
      Nat.mul_le_mul_left _ (Nat.mul_le_mul_left den hpow)
    have hover : 2 ^ 53 * (den * 2 ^ 2044) ≤ (2 ^ 54 - 1) * 2 ^ 2044 * den := by
      generalize 2 ^ 2044 = p
      calc 2 ^ 53 * (den * p) = 2 ^ 53 * p * den := by ring
        _ ≤ (2 ^ 54 - 1) * p * den := Nat.mul_le_mul_right _ (Nat.mul_le_mul_right _ (by decide))
    exact absurd (hbelow.trans_le (hbound.trans hover)) h.not_gt

end

end Sys2Proof.Machine
end

section
/-!
PROOF. Binary64 values (43_real.md R141 to R145): the value of a packed magnitude, so that a rounded ratio is the nearest value
of either sign; then `f64_sub`, `f64_mul`, `Real01Bits` in closed form, and the corner cases of REAL_BETWEEN.
-/

namespace Sys2Proof.Machine

/-! ## Packed magnitudes -/

/-- The units of a magnitude packed as exponent steps and a significand, which may be subnormal or have carried to `2^53`. -/
theorem f64Units_pack (neg : Bool) {d q : Nat} (hq : q ≤ 2 ^ 53) (hd : d = 0 ∨ 2 ^ 52 ≤ q) (hm : d * 2 ^ 52 + q < 2 ^ 63) :
    f64Units (f64Pack neg (d * 2 ^ 52 + q)) = q * 2 ^ d := by
  rw [f64Units, f64Exp_pack neg hm, f64Frac_pack neg hm]
  rcases Nat.lt_or_ge q (2 ^ 52) with hsub | hnormal
  · have hd0 : d = 0 := by omega
    subst hd0
    rw [if_pos (by omega), pow_zero]
    omega
  · rcases hq.lt_or_eq with hlt | rfl
    · have hexp : (d * 2 ^ 52 + q) / 2 ^ 52 = d + 1 := by omega
      have hfrac : 2 ^ 52 + (d * 2 ^ 52 + q) % 2 ^ 52 = q := by omega
      rw [hexp, hfrac, if_neg (Nat.succ_ne_zero d), Nat.add_sub_cancel]
    · have hexp : (d * 2 ^ 52 + 2 ^ 53) / 2 ^ 52 = d + 1 + 1 := by omega
      have hfrac : 2 ^ 52 + (d * 2 ^ 52 + 2 ^ 53) % 2 ^ 52 = 2 ^ 52 := by omega
      rw [hexp, hfrac, if_neg (Nat.succ_ne_zero (d + 1)), Nat.add_sub_cancel, pow_succ 2 d, pow_succ 2 52]
      ring

/-- The units of every word are a significand below `2^53` times a power of two. -/
theorem exists_f64Units_eq (g : Word) : ∃ q d, q < 2 ^ 53 ∧ f64Units g = q * 2 ^ d := by
  have hfrac : f64Frac g < 2 ^ 52 := by
    rw [f64Frac_eq]
    exact Nat.mod_lt _ (Nat.two_pow_pos 52)
  unfold f64Units
  split
  · exact ⟨f64Frac g, 0, by omega, by rw [pow_zero, Nat.mul_one]⟩
  · exact ⟨2 ^ 52 + f64Frac g, f64Exp g - 1, by omega, rfl⟩

theorem infMag_lt : f64InfMag < 2 ^ 63 := by decide

section
variable {m : Nat} (hm : m ≤ f64InfMag)
include hm

theorem isNaN_pack (neg : Bool) : isNaN (f64Pack neg m) = false := by
  have hm' := hm.trans_lt infMag_lt
  rw [isNaN, f64Exp_pack neg hm', f64Frac_pack neg hm']
  unfold f64InfMag at hm
  rw [Bool.eq_false_iff]
  simp only [ne_eq, Bool.and_eq_true, beq_iff_eq, bne_iff_ne]
  omega

theorem isInf_pack_iff (neg : Bool) : isInf (f64Pack neg m) = true ↔ m = f64InfMag := by
  have hm' := hm.trans_lt infMag_lt
  rw [isInf, f64Exp_pack neg hm', f64Frac_pack neg hm']
  unfold f64InfMag at hm ⊢
  simp only [Bool.and_eq_true, beq_iff_eq]
  omega

theorem f64Finite_pack_iff (neg : Bool) : f64Finite (f64Pack neg m) = true ↔ m < f64InfMag := by
  rw [f64Finite_iff_not_isNaN_and_not_isInf, ← Bool.not_eq_true (isInf _), isInf_pack_iff hm, isNaN_pack hm]
  simp only [true_and]
  omega

end

theorem getLsbD_zero_pack (neg : Bool) {m : Nat} (hm : m < 2 ^ 63) : (f64Pack neg m).getLsbD 0 = decide (m % 2 = 1) := by
  rw [← BitVec.testBit_toNat, Nat.testBit_zero, f64Pack_toNat neg hm]
  cases neg
  · simp
  · congr 2
    simp only [if_true]
    omega

theorem ratioMag_zero (den : Nat) : ratioMag 0 den = 0 := by
  simp [ratioMag, ratioExp, ratioSig, roundRatio]

/-! ## A rounded ratio is the nearest value -/

section
variable {u den : Nat}

theorem isInf_pack_ratioMag_iff (neg : Bool) (hden : 0 < den) :
    isInf (f64Pack neg (ratioMag u den)) = true ↔ (2 ^ 54 - 1) * 2 ^ 2044 * den ≤ u := by
  rw [isInf_pack_iff ratioMag_le]
  have hmin : ratioMag u den = f64InfMag ↔ f64InfMag ≤ ratioExp u den * 2 ^ 52 + ratioSig u den := by
    unfold ratioMag
    omega
  exact hmin.trans ⟨overflow_of_infMag_le hden, infMag_le_of_overflow hden⟩

theorem f64Units_pack_ratioMag (neg : Bool) (hden : 0 < den) (hfin : ratioMag u den < f64InfMag) :
    f64Units (f64Pack neg (ratioMag u den)) = ratioSig u den * 2 ^ ratioExp u den := by
  have hlt := hfin.trans infMag_lt
  rw [ratioMag_of_lt hfin] at hlt ⊢
  exact f64Units_pack neg (ratioSig_le hden) (le_ratioSig hden) hlt

/-- A magnitude with a sign. -/
def withSign (neg : Bool) (n : Nat) : Int := if neg then -(n : Int) else n

/-- What is nearest among magnitudes, zero included, is nearest among values of both signs once it has the sign of the ratio.
-/
theorem signed_nearest {m g : Nat} {P : Prop} (neg neg' : Bool) (hle : distance m den u ≤ distance g den u)
    (hzero : distance m den u ≤ distance 0 den u) (htie : distance m den u = distance g den u → g ≠ m → P) :
    (withSign neg (m * den) - withSign neg u).natAbs ≤ (withSign neg' (g * den) - withSign neg u).natAbs ∧
      ((withSign neg (m * den) - withSign neg u).natAbs = (withSign neg' (g * den) - withSign neg u).natAbs →
        withSign neg' (g * den) ≠ withSign neg (m * den) → P) := by
  have hcongr : g = m → g * den = m * den := congrArg (· * den)
  have hfar (h : distance m den u = distance g den u) (hne : g * den ≠ m * den) : P := htie h fun heq => hne (hcongr heq)
  unfold distance at hle hzero hfar
  unfold withSign
  rw [Nat.zero_mul] at hzero
  generalize m * den = a, g * den = b at *
  cases neg <;> cases neg' <;> simp only [if_true, if_false, Bool.false_eq_true] <;>
    exact ⟨by omega, fun heq hne => hfar (by omega) (by omega)⟩

theorem f64Value_eq_withSign (f : Word) : f64Value f = withSign (f64Sign f) (f64Units f) := rfl

theorem withSign_mul (neg : Bool) (n k : Nat) : withSign neg n * k = withSign neg (n * k) := by
  cases neg <;> simp [withSign]

/-- The rounded ratio, with the sign of the exact value, is the nearest value of a binary64, and even on a tie. -/
theorem pack_ratioMag_nearest {r g : Word} (neg : Bool) (hden : 0 < den) (hr : r = f64Pack neg (ratioMag u den))
    (hfin : f64Finite r = true) :
    (f64Value r * den - withSign neg u).natAbs ≤ (f64Value g * den - withSign neg u).natAbs ∧
      ((f64Value r * den - withSign neg u).natAbs = (f64Value g * den - withSign neg u).natAbs →
        f64Value g ≠ f64Value r → r.getLsbD 0 = false) := by
  subst hr
  have hlt : ratioMag u den < f64InfMag := (f64Finite_pack_iff ratioMag_le neg).mp hfin
  have hbits : ratioMag u den < 2 ^ 63 := hlt.trans infMag_lt
  obtain ⟨q, d, hq, hg⟩ := exists_f64Units_eq g
  obtain ⟨hle, htie⟩ := ratioSig_nearest (u := u) (d := d) hden hq
  obtain ⟨hzero, -⟩ := ratioSig_nearest (u := u) (q := 0) (d := 0) hden (Nat.two_pow_pos 53)
  rw [← hg] at hle htie
  have heven : ratioSig u den % 2 = 0 → (f64Pack neg (ratioMag u den)).getLsbD 0 = false := by
    intro h
    rw [getLsbD_zero_pack neg hbits, ratioMag_of_lt hlt]
    exact decide_eq_false (by omega)
  obtain ⟨hnear, hpar⟩ := signed_nearest neg (f64Sign g) hle (by rwa [Nat.zero_mul] at hzero) fun h hne => heven (htie h hne)
  have hvr : f64Value (f64Pack neg (ratioMag u den)) = withSign neg (ratioSig u den * 2 ^ ratioExp u den) := by
    rw [f64Value_eq_withSign, f64Sign_pack neg hbits, f64Units_pack_ratioMag neg hden hlt]
  rw [f64Value_eq_withSign g, hvr, withSign_mul, withSign_mul]
  refine ⟨hnear, fun heq hne => hpar heq fun h => hne ?_⟩
  rw [← withSign_mul, ← withSign_mul] at h
  exact Int.eq_of_mul_eq_mul_right (by exact_mod_cast hden.ne') h

end

/-! ## Subtraction and multiplication (R143) -/

section
variable {a b : Word}

/-- `f64_sub` of finite operands rounds the exact difference once; a zero has the sign that R143 gives it. -/
theorem f64Sub_eq_pack (ha : f64Finite a = true) (hb : f64Finite b = true) :
    f64Sub a b = f64Pack
      (if f64Value a - f64Value b = 0 then f64Sign a && !f64Sign b else decide (f64Value a - f64Value b < 0))
      (ratioMag (f64Value a - f64Value b).natAbs 1) := by
  split
  case isTrue h =>
    obtain ⟨hna, hia⟩ := (f64Finite_iff_not_isNaN_and_not_isInf a).mp ha
    obtain ⟨hnb, hib⟩ := (f64Finite_iff_not_isNaN_and_not_isInf b).mp hb
    simp [f64Sub, hna, hia, hnb, hib, h, ratioMag_zero]
  case isFalse h =>
    rw [f64Sub_of_finite ha hb h, f64Round_eq_pack, pow_zero]

theorem f64Mul_eq_pack (ha : f64Finite a = true) (hb : f64Finite b = true) :
    f64Mul a b = f64Pack (f64Sign a != f64Sign b) (ratioMag (f64Units a * f64Units b) (2 ^ 1074)) := by
  obtain ⟨hna, hia⟩ := (f64Finite_iff_not_isNaN_and_not_isInf a).mp ha
  obtain ⟨hnb, hib⟩ := (f64Finite_iff_not_isNaN_and_not_isInf b).mp hb
  rw [← f64Round_eq_pack]
  simp [f64Mul, hna, hia, hnb, hib]

theorem f64Value_mul (a b : Word) : f64Value a * f64Value b = withSign (f64Sign a != f64Sign b) (f64Units a * f64Units b) := by
  rw [f64Value_eq_withSign, f64Value_eq_withSign]
  cases f64Sign a <;> cases f64Sign b <;> simp [withSign]

theorem withSign_natAbs (v : Int) (s : Bool) : withSign (if v = 0 then s else decide (v < 0)) v.natAbs = v := by
  by_cases h0 : v = 0
  · subst h0
    cases s <;> rfl
  · rw [if_neg h0, withSign]
    by_cases hneg : v < 0
    · rw [if_pos (decide_eq_true hneg)]
      omega
    · rw [if_neg (by simpa using hneg)]
      omega

theorem natAbs_withSign (neg : Bool) (n : Nat) : (withSign neg n).natAbs = n := by
  cases neg <;> simp [withSign]

theorem f64Sub_nearest {r : Word} (ha : f64Finite a = true) (hb : f64Finite b = true) (hr : r = f64Sub a b)
    (hfin : f64Finite r = true) (g : Word) :
    (f64Value r - (f64Value a - f64Value b)).natAbs ≤ (f64Value g - (f64Value a - f64Value b)).natAbs ∧
      ((f64Value r - (f64Value a - f64Value b)).natAbs = (f64Value g - (f64Value a - f64Value b)).natAbs →
        f64Value g ≠ f64Value r → r.getLsbD 0 = false) := by
  have h := pack_ratioMag_nearest (g := g) _ Nat.one_pos (hr.trans (f64Sub_eq_pack ha hb)) hfin
  rwa [withSign_natAbs, Nat.cast_one, Int.mul_one, Int.mul_one] at h

theorem f64Mul_nearest {r : Word} (ha : f64Finite a = true) (hb : f64Finite b = true) (hr : r = f64Mul a b)
    (hfin : f64Finite r = true) (g : Word) :
    (f64Value r * 2 ^ 1074 - f64Value a * f64Value b).natAbs ≤ (f64Value g * 2 ^ 1074 - f64Value a * f64Value b).natAbs ∧
      ((f64Value r * 2 ^ 1074 - f64Value a * f64Value b).natAbs = (f64Value g * 2 ^ 1074 - f64Value a * f64Value b).natAbs →
        f64Value g ≠ f64Value r → r.getLsbD 0 = false) := by
  have h := pack_ratioMag_nearest (g := g) _ (pow_pos two_pos 1074) (hr.trans (f64Mul_eq_pack ha hb)) hfin
  rwa [← f64Value_mul, Nat.cast_pow, Nat.cast_ofNat] at h

theorem isInf_f64Sub_iff (ha : f64Finite a = true) (hb : f64Finite b = true) :
    isInf (f64Sub a b) = true ↔ (2 ^ 54 - 1) * 2 ^ 2044 ≤ (f64Value a - f64Value b).natAbs := by
  rw [f64Sub_eq_pack ha hb, isInf_pack_ratioMag_iff _ Nat.one_pos, Nat.mul_one]

theorem isInf_f64Mul_iff (ha : f64Finite a = true) (hb : f64Finite b = true) :
    isInf (f64Mul a b) = true ↔ (2 ^ 54 - 1) * 2 ^ 3118 ≤ (f64Value a * f64Value b).natAbs := by
  have hexp : 3118 = 2044 + 1074 := rfl
  rw [f64Mul_eq_pack ha hb, isInf_pack_ratioMag_iff _ (pow_pos two_pos 1074), f64Value_mul, natAbs_withSign, hexp, pow_add,
    ← Nat.mul_assoc]

theorem isNaN_f64Sub (ha : f64Finite a = true) (hb : f64Finite b = true) : isNaN (f64Sub a b) = false := by
  rw [f64Sub_eq_pack ha hb, isNaN_pack ratioMag_le]

theorem isNaN_f64Mul (ha : f64Finite a = true) (hb : f64Finite b = true) : isNaN (f64Mul a b) = false := by
  rw [f64Mul_eq_pack ha hb, isNaN_pack ratioMag_le]

theorem f64Sign_f64Sub (ha : f64Finite a = true) (hb : f64Finite b = true) (hne : f64Value a ≠ f64Value b) :
    f64Sign (f64Sub a b) = decide (f64Value a < f64Value b) := by
  rw [f64Sub_eq_pack ha hb, f64Sign_pack _ (ratioMag_le.trans_lt infMag_lt), if_neg (sub_ne_zero.mpr hne)]
  simp only [sub_neg]

theorem f64Sub_of_value_eq (ha : f64Finite a = true) (hb : f64Finite b = true) (heq : f64Value a = f64Value b) :
    f64Sub a b = if f64Sign a && !f64Sign b then 0x8000000000000000#64 else 0#64 := by
  rw [f64Sub_eq_pack ha hb, if_pos (sub_eq_zero.mpr heq), sub_eq_zero.mpr heq, Int.natAbs_zero, ratioMag_zero]
  cases f64Sign a <;> cases f64Sign b <;> rfl

theorem f64Sign_f64Mul (ha : f64Finite a = true) (hb : f64Finite b = true) :
    f64Sign (f64Mul a b) = (f64Sign a != f64Sign b) := by
  rw [f64Mul_eq_pack ha hb, f64Sign_pack _ (ratioMag_le.trans_lt infMag_lt)]

end

/-- Settles O40: both operations round an exact difference or product once, to the nearest value, the even one on a tie. -/
theorem subAndMulRoundToNearestEven : Obligations.SubAndMulRoundToNearestEven := by
  unfold Obligations.SubAndMulRoundToNearestEven
  intro a b ha hb
  exact ⟨isNaN_f64Sub ha hb, isNaN_f64Mul ha hb, fun g r hr hfin _ => f64Sub_nearest ha hb hr hfin g,
    fun g r hr hfin _ => f64Mul_nearest ha hb hr hfin g, isInf_f64Sub_iff ha hb, isInf_f64Mul_iff ha hb,
    f64Sign_f64Sub ha hb, f64Sub_of_value_eq ha hb, f64Sign_f64Mul ha hb⟩

/-! ## Real01Bits in closed form (R141) -/

/-- Settles O38: the packed form and the units of the result, with the leading bit taken out of the significand. -/
theorem real01ClosedForm : Obligations.Real01ClosedForm := by
  unfold Obligations.Real01ClosedForm
  rintro w m p rfl rfl
  by_cases hm : w.toNat / 2 ^ 12 = 0
  · rw [real01Bits_eq_zero hm, hm, if_pos rfl, Nat.zero_mul]
    exact ⟨rfl, rfl, rfl, Nat.zero_mul _⟩
  · obtain ⟨hp, hq, hq'⟩ := mul_twoPow_log2_bounds hm (by omega)
    refine ⟨?_, ?_, ?_, ?_⟩
    · rw [if_neg hm, real01Bits_eq_pack hm, f64Pack, if_neg Bool.false_ne_true]
      congr 1
      omega
    · rw [real01Bits_eq_pack hm, f64Sign_pack false (by omega)]
    · rw [real01Bits_eq_pack hm, f64Finite_pack_normal false hq hq' (by omega)]
    · rw [f64Units_real01Bits, Nat.mul_assoc, ← pow_add]

/-! ## REAL_BETWEEN (R142, R144, R145) -/

end Sys2Proof.Machine
end

section
/-!
PROOF. REAL_BETWEEN at its corners (43_real.md R142, R144, R145): the difference is finite or an infinity, the factor is finite
and not negative, and the product of the two is a NaN only for an infinity and the factor `+0`.
-/

namespace Sys2Proof.Machine

/-! ## The factor -/

theorem f64Finite_real01Bits (w : Word) : f64Finite (real01Bits w) = true := by
  obtain ⟨-, -, hfin, -⟩ := real01ClosedForm w _ _ rfl rfl
  exact hfin

theorem f64Sign_real01Bits (w : Word) : f64Sign (real01Bits w) = false := by
  obtain ⟨-, hsign, -, -⟩ := real01ClosedForm w _ _ rfl rfl
  exact hsign

theorem f64Units_real01Bits_eq_zero_iff (w : Word) : f64Units (real01Bits w) = 0 ↔ w.toNat < 2 ^ 12 := by
  rw [f64Units_real01Bits, Nat.mul_eq_zero, Nat.div_eq_zero_iff_lt (Nat.two_pow_pos 12)]
  exact or_iff_left (pow_pos two_pos 1022).ne'

/-! ## Products with a zero and with an infinity -/

theorem f64Mul_of_units_zero {x y : Word} (hx : f64Finite x = true) (hy : f64Finite y = true)
    (h : f64Units x = 0 ∨ f64Units y = 0) : f64Mul x y = f64Pack (f64Sign x != f64Sign y) 0 := by
  rw [f64Mul_eq_pack hx hy, Nat.mul_eq_zero.mpr h, ratioMag_zero]

theorem isNaN_of_isInf {x : Word} (h : isInf x = true) : isNaN x = false := by
  simp_all [isInf, isNaN]

theorem f64Mul_of_isInf {x y : Word} (hx : isInf x = true) (hy : f64Finite y = true) :
    f64Mul x y = if f64Units y = 0 then f64NaN else f64Pack (f64Sign x != f64Sign y) f64InfMag := by
  obtain ⟨hny, hiy⟩ := (f64Finite_iff_not_isNaN_and_not_isInf y).mp hy
  simp [f64Mul, isNaN_of_isInf hx, hx, hny, hiy]

section
variable {lo hi : Word} (w : Word) (hlo : f64Finite lo = true) (hhi : f64Finite hi = true)

include hlo hhi

theorem f64Finite_f64Sub (h : isInf (f64Sub hi lo) = false) : f64Finite (f64Sub hi lo) = true :=
  (f64Finite_iff_not_isNaN_and_not_isInf _).mpr ⟨isNaN_f64Sub hhi hlo, h⟩

/-- Without an overflow the product is a number and stands as it is. -/
theorem realBetweenBits_of_finite (h : isInf (f64Sub hi lo) = false) :
    realBetweenBits lo hi w = f64Mul (f64Sub hi lo) (real01Bits w) := by
  have hnan := isNaN_f64Mul (f64Finite_f64Sub hlo hhi h) (f64Finite_real01Bits w)
  simp [realBetweenBits, hnan]

theorem isNaN_realBetweenBits_of_finite (h : isInf (f64Sub hi lo) = false) : isNaN (realBetweenBits lo hi w) = false := by
  rw [realBetweenBits_of_finite w hlo hhi h]
  exact isNaN_f64Mul (f64Finite_f64Sub hlo hhi h) (f64Finite_real01Bits w)

theorem f64Sub_eq_of_isInf (h : isInf (f64Sub hi lo) = true) : f64Sub hi lo = f64Pack (f64Sign (f64Sub hi lo)) f64InfMag := by
  rw [f64Sub_eq_pack hhi hlo] at h ⊢
  rw [(isInf_pack_iff ratioMag_le _).mp h, f64Sign_pack _ infMag_lt]

omit hlo hhi in
/-- An overflow gives the NaN with the factor `+0` and the infinity of its sign otherwise. -/
theorem realBetweenBits_of_isInf (h : isInf (f64Sub hi lo) = true) :
    realBetweenBits lo hi w = if w.toNat < 2 ^ 12 then f64NaN else f64Pack (f64Sign (f64Sub hi lo)) f64InfMag := by
  unfold realBetweenBits
  simp only [f64Mul_of_isInf h (f64Finite_real01Bits w), f64Units_real01Bits_eq_zero_iff, f64Sign_real01Bits, Bool.bne_false]
  split
  · rfl
  · rw [isNaN_pack le_rfl]
    rfl

theorem isNaN_realBetweenBits_iff :
    isNaN (realBetweenBits lo hi w) = true ↔ isInf (f64Sub hi lo) = true ∧ w.toNat < 2 ^ 12 := by
  cases h : isInf (f64Sub hi lo) with
  | false => simp [isNaN_realBetweenBits_of_finite w hlo hhi h]
  | true =>
    rw [realBetweenBits_of_isInf w h]
    split
    case isTrue hw => exact iff_of_true (by decide) ⟨rfl, hw⟩
    case isFalse hw => exact iff_of_false (by rw [isNaN_pack le_rfl]; exact Bool.false_ne_true) fun h => hw h.2

theorem realBetweenBits_of_isNaN (h : isNaN (realBetweenBits lo hi w) = true) : realBetweenBits lo hi w = f64NaN := by
  obtain ⟨hinf, hw⟩ := (isNaN_realBetweenBits_iff w hlo hhi).mp h
  rw [realBetweenBits_of_isInf w hinf, if_pos hw]

/-- The sign of a result that is a number is that of the difference. -/
theorem f64Sign_realBetweenBits (h : isNaN (realBetweenBits lo hi w) = false) :
    f64Sign (realBetweenBits lo hi w) = f64Sign (f64Sub hi lo) := by
  cases hinf : isInf (f64Sub hi lo) with
  | false =>
    rw [realBetweenBits_of_finite w hlo hhi hinf, f64Sign_f64Mul (f64Finite_f64Sub hlo hhi hinf) (f64Finite_real01Bits w),
      f64Sign_real01Bits, Bool.bne_false]
  | true =>
    have hw : ¬ w.toNat < 2 ^ 12 := fun hw => by
      rw [(isNaN_realBetweenBits_iff w hlo hhi).mpr ⟨hinf, hw⟩] at h
      cases h
    rw [realBetweenBits_of_isInf w hinf, if_neg hw, f64Sign_pack _ infMag_lt]

/-- A zero difference or a zero factor gives a zero of the difference's sign. -/
theorem realBetweenBits_of_zero (h : isInf (f64Sub hi lo) = false) (hzero : f64Units (f64Sub hi lo) = 0 ∨ w.toNat < 2 ^ 12) :
    realBetweenBits lo hi w = f64Pack (f64Sign (f64Sub hi lo)) 0 := by
  rw [realBetweenBits_of_finite w hlo hhi h, f64Mul_of_units_zero (f64Finite_f64Sub hlo hhi h) (f64Finite_real01Bits w)
    (hzero.imp_right (f64Units_real01Bits_eq_zero_iff w).mpr), f64Sign_real01Bits, Bool.bne_false]

end

/-- Settles O41: the difference is an infinity or finite, and the factor is 0 exactly below 2^12. -/
theorem realBetweenNaNOnlyOnOverflow : Obligations.RealBetweenNaNOnlyOnOverflow := by
  unfold Obligations.RealBetweenNaNOnlyOnOverflow
  exact fun lo hi w hlo hhi => ⟨isNaN_realBetweenBits_iff w hlo hhi, realBetweenBits_of_isNaN w hlo hhi⟩

/-! ## The smallest subnormal difference -/

theorem roundRatio_mul_right (u D : Nat) {c : Nat} (hc : 0 < c) : roundRatio (u * c) (D * c) = roundRatio u D := by
  unfold roundRatio
  simp only [Nat.mul_mod_mul_right, Nat.mul_div_mul_right _ _ hc, ← Nat.mul_assoc, Nat.mul_lt_mul_right hc,
    Nat.mul_left_inj hc.ne']

/-- A ratio below one unit is rounded to 0 or 1. -/
theorem ratioMag_of_lt_one {u den : Nat} (h : u < den) : ratioMag u den = roundRatio u den := by
  have hdiv : u / den = 0 := Nat.div_eq_of_lt h
  have hsmall : roundRatio u den ≤ 1 := roundRatio_le (Nat.zero_lt_of_lt h) (by omega)
  have hexp : ratioExp u den = 0 := by rw [ratioExp, hdiv]; rfl
  rw [ratioMag, ratioSig, ratioStep, hexp, pow_zero, Nat.mul_one, Nat.zero_mul, Nat.zero_add]
  exact Nat.min_eq_left (hsmall.trans (by decide))

/-- Half a unit is a tie, which the even 0 takes. -/
theorem roundRatio_of_lt_twoPow52 {m : Nat} (h : m < 2 ^ 52) : roundRatio m (2 ^ 52) = if m ≤ 2 ^ 51 then 0 else 1 := by
  rw [roundRatio, Nat.div_eq_of_lt h, Nat.mod_eq_of_lt h]
  split <;> split <;> omega

theorem realBetweenBits_smallest (w : Word) : realBetweenBits 0 1 w = if w.toNat / 2 ^ 12 ≤ 2 ^ 51 then 0 else 1 := by
  have hsub : f64Sub 1 0 = 1 := by decide +kernel
  have hm : w.toNat / 2 ^ 12 < 2 ^ 52 := by omega
  have hexp : 1074 = 52 + 1022 := rfl
  have hpos : 0 < 2 ^ 1022 := pow_pos two_pos 1022
  rw [realBetweenBits_of_finite w rfl rfl (by rw [hsub]; rfl), hsub, f64Mul_eq_pack rfl (f64Finite_real01Bits w),
    f64Sign_real01Bits, f64Units_real01Bits, show f64Units 1 = 1 from rfl, Nat.one_mul, hexp, pow_add,
    ratioMag_of_lt_one (Nat.mul_lt_mul_of_pos_right hm hpos), roundRatio_mul_right _ _ hpos, roundRatio_of_lt_twoPow52 hm]
  split <;> rfl

/-! ## The table -/

theorem f64Sub_self {x : Word} (hx : f64Finite x = true) : f64Sub x x = 0 := by
  rw [f64Sub_of_value_eq hx hx rfl, Bool.and_not_self]
  rfl

theorem f64Sub_largest : f64Sub 0x7FEFFFFFFFFFFFFF#64 0xFFEFFFFFFFFFFFFF#64 = 0x7FF0000000000000#64 := by decide +kernel

theorem realBetweenBits_largest (w : Word) : realBetweenBits 0xFFEFFFFFFFFFFFFF#64 0x7FEFFFFFFFFFFFFF#64 w =
    if w.toNat < 2 ^ 12 then 0x7FF8000000000000#64 else 0x7FF0000000000000#64 := by
  rw [realBetweenBits_of_isInf w (by rw [f64Sub_largest]; rfl), f64Sub_largest]
  rfl

/-- Settles O42: a zero, an infinity or a finite number as difference, and the two results written out. -/
theorem realBetweenCornerCases : Obligations.RealBetweenCornerCases := by
  unfold Obligations.RealBetweenCornerCases
  refine ⟨?_, ?_, ?_, ?_, ?_, realBetweenBits_largest, realBetweenBits_smallest, by decide +kernel⟩
  · intro x w hx
    have hsub := f64Sub_self hx
    rw [realBetweenBits_of_zero w hx hx (by rw [hsub]; rfl) (.inl (by rw [hsub]; rfl)), hsub]
    rfl
  · intro w
    have hsub : f64Sub 0x8000000000000000#64 0 = 0x8000000000000000#64 := by decide +kernel
    rw [realBetweenBits_of_zero w rfl rfl (by rw [hsub]; rfl) (.inl (by rw [hsub]; rfl)), hsub]
    rfl
  · intro lo hi w hlo hhi hlt hnan
    rw [f64Sign_realBetweenBits w hlo hhi hnan, f64Sign_f64Sub hhi hlo hlt.ne, decide_eq_true hlt]
  · intro lo hi w hlo hhi hinf hw
    rw [realBetweenBits_of_zero w hlo hhi hinf (.inr hw)]
    constructor
    · intro hlt
      rw [f64Sign_f64Sub hhi hlo hlt.ne', decide_eq_false hlt.not_gt]
      rfl
    · intro hlt
      rw [f64Sign_f64Sub hhi hlo hlt.ne, decide_eq_true hlt]
      rfl
  · intro lo hi w hlo hhi hinf hw
    rw [realBetweenBits_of_isInf w hinf, if_neg hw.not_gt, ← f64Sub_eq_of_isInf hlo hhi hinf]

end Sys2Proof.Machine
end

section
/-!
PROOF. The assembler (30_encoding.md R68): its examples; a decimal literal is read as a ratio and rounded to nearest; and the
text of every instruction, whose operands are sixteen hexadecimal digits, assembles to its encoding.
-/

namespace Sys2Proof.Machine

/-- Settles O5: the assembler evaluated on each text. -/
theorem assemblerExamples : Obligations.AssemblerExamples := by
  unfold Obligations.AssemblerExamples
  decide +kernel

/-! ## Decimal literals -/

/-- The digits before the first point and those after it are read as one number. -/
theorem decimalOperand_append (neg : Bool) {whole frac : List Char} {n : Nat} (hwhole : ∀ c ∈ whole, c ≠ '.')
    (hn : readNumber 10 (whole ++ frac) = some n) :
    decimalOperand neg (whole ++ '.' :: frac) = some (f64OfRatio neg n (10 ^ frac.length)) := by
  have hpoint : ∀ c ∈ whole, (c != '.') = true := fun c hc => bne_iff_ne.mpr (hwhole c hc)
  have htake : (whole ++ '.' :: frac).takeWhile (· != '.') = whole := by
    rw [List.takeWhile_append_of_pos hpoint]
    simp
  have hdrop : (whole ++ '.' :: frac).dropWhile (· != '.') = '.' :: frac := by
    rw [List.dropWhile_append_of_pos hpoint]
    simp
  simp only [decimalOperand, htake, hdrop, hn, Option.map_some]

/-- A literal that begins with neither `-` nor `f` has no sign and is no bit pattern. -/
theorem floatOperand_of_head {cs : List Char} (hminus : cs.head? ≠ some '-') (hf : cs.head? ≠ some 'f') :
    floatOperand cs = decimalOperand false cs := by
  unfold floatOperand
  split
  · exact absurd rfl hf
  · exact absurd rfl hminus
  · rfl

/-- Settles O7: the reading of the digits, and the rounding of a ratio in units of `2^-1074`. -/
theorem decimalLiteralIsNearest : Obligations.DecimalLiteralIsNearest := by
  unfold Obligations.DecimalLiteralIsNearest
  refine ⟨fun neg whole frac n => decimalOperand_append neg, fun cs => rfl, fun cs => floatOperand_of_head,
    fun neg num den hden => ⟨?_, ?_, ?_, fun g r hr hfin _ => ?_⟩⟩
  · rw [f64OfRatio_eq_pack, f64Sign_pack neg (ratioMag_le.trans_lt infMag_lt)]
  · rw [f64OfRatio_eq_pack, isNaN_pack ratioMag_le]
  · rw [f64OfRatio_eq_pack, isInf_pack_ratioMag_iff neg hden]
  · have h := pack_ratioMag_nearest (g := g) neg hden hr hfin
    rw [withSign, Nat.cast_mul, Nat.cast_pow, Nat.cast_ofNat] at h
    exact h

/-! ## Hexadecimal operands -/

theorem digitValue_digitChar : ∀ d < 16, digitValue 16 d.digitChar = some d := by decide

/-- The digits that `hexText` writes read as the number, from the highest down. -/
theorem readDigits_hex (v n acc : Nat) :
    readDigits 16 acc ((List.range n).map fun i => (v / 16 ^ (n - 1 - i) % 16).digitChar) =
      some (acc * 16 ^ n + v % 16 ^ n) := by
  induction n generalizing acc with
  | zero => simp [readDigits, Nat.mod_one]
  | succ n ih =>
    have htail : ((List.range n).map Nat.succ).map (fun i => (v / 16 ^ (n + 1 - 1 - i) % 16).digitChar) =
        (List.range n).map fun i => (v / 16 ^ (n - 1 - i) % 16).digitChar := by
      rw [List.map_map]
      refine List.map_congr_left fun i _ => ?_
      rw [Function.comp_apply, Nat.add_sub_cancel, Nat.sub_sub, Nat.add_comm 1]
    rw [List.range_succ_eq_map, List.map_cons, htail, readDigits, Nat.add_sub_cancel, Nat.sub_zero,
      digitValue_digitChar _ (Nat.mod_lt _ (by decide))]
    simp only [ih]
    rw [Nat.mod_pow_succ, pow_succ]
    congr 1
    ring

/-- The sixteen digits of a word. -/
def hexDigits (w : Word) : List Char := (List.range 16).map fun i => (w.toNat / 16 ^ (15 - i) % 16).digitChar

theorem hexText_eq (w : Word) : hexText w = '0' :: 'x' :: hexDigits w := rfl

theorem readNumber_hexDigits (w : Word) : (readNumber 16 (hexDigits w)).bind fitWord = some w := by
  have hne : hexDigits w ≠ [] := by simp [hexDigits]
  have hread : readDigits 16 0 (hexDigits w) = some w.toNat := by
    have h := readDigits_hex w.toNat 16 0
    rwa [Nat.zero_mul, Nat.zero_add, Nat.mod_eq_of_lt (by have := w.isLt; omega)] at h
  rw [readNumber, if_neg hne, hread, Option.bind_some, fitWord, if_pos w.isLt, BitVec.ofNat_toNat, BitVec.setWidth_eq]

theorem integerOperand_hexText (w : Word) : integerOperand (hexText w) = some w := readNumber_hexDigits w

/-- A bit pattern written out. -/
def patternText (w : Word) : List Char := "f64:".toList ++ hexText w

theorem floatOperand_patternText (w : Word) : floatOperand (patternText w) = some w := readNumber_hexDigits w

/-! ## Spaces and commas -/

/-- A text that is one word: not empty, with no space and no comma. -/
def OneWord (cs : List Char) : Prop := cs ≠ [] ∧ ∀ c ∈ cs, c ≠ ' ' ∧ c ≠ ','

theorem oneWord_of_all {cs : List Char} (h : (cs != [] && cs.all fun c => c != ' ' && c != ',') = true) : OneWord cs := by
  simpa [OneWord] using h

theorem oneWord_append {xs ys : List Char} (hx : OneWord xs) (hy : OneWord ys) : OneWord (xs ++ ys) :=
  ⟨List.append_ne_nil_of_left_ne_nil hx.1 ys, fun c hc => (List.mem_append.mp hc).elim (hx.2 c) (hy.2 c)⟩

theorem oneWord_hexText (w : Word) : OneWord (hexText w) := by
  have hdigit : ∀ d < 16, d.digitChar ≠ ' ' ∧ d.digitChar ≠ ',' := by decide
  refine ⟨by simp [hexText], fun c hc => ?_⟩
  rw [hexText_eq, List.mem_cons, List.mem_cons, hexDigits, List.mem_map] at hc
  rcases hc with rfl | rfl | ⟨i, -, rfl⟩
  · decide
  · decide
  · exact hdigit _ (Nat.mod_lt _ (by decide))

theorem oneWord_patternText (w : Word) : OneWord (patternText w) :=
  oneWord_append (oneWord_of_all rfl) (oneWord_hexText w)

theorem OneWord.head_ne {cs : List Char} (h : OneWord cs) : cs.head? ≠ some ' ' :=
  fun hh => (h.2 ' ' (List.mem_of_head? hh)).1 rfl

theorem OneWord.getLast_ne {cs : List Char} (h : OneWord cs) : cs.getLast? ≠ some ' ' :=
  fun hh => (h.2 ' ' (List.mem_of_getLast? hh)).1 rfl

theorem dropWhile_space_eq_self {cs : List Char} (h : cs.head? ≠ some ' ') : cs.dropWhile (· == ' ') = cs := by
  cases cs with
  | nil => rfl
  | cons c rest =>
    have hc : c ≠ ' ' := fun hc => h (congrArg some hc)
    simp [hc]

/-- A text with no space at either end. -/
theorem trimSpaces_eq_self {cs : List Char} (hhead : cs.head? ≠ some ' ') (hlast : cs.getLast? ≠ some ' ') :
    trimSpaces cs = cs := by
  rw [trimSpaces, dropWhile_space_eq_self hhead, dropWhile_space_eq_self (by rwa [List.head?_reverse]), List.reverse_reverse]

theorem getLast_append_ne (xs : List Char) {t : List Char} (h : OneWord t) : (xs ++ t).getLast? ≠ some ' ' := by
  rw [List.getLast?_append_of_ne_nil xs h.1]
  exact h.getLast_ne

theorem head_append_ne {t : List Char} (h : OneWord t) (ys : List Char) : (t ++ ys).head? ≠ some ' ' := by
  rw [List.head?_append_of_ne_nil _ h.1]
  exact h.head_ne

theorem trimSpaces_cons_space (cs : List Char) : trimSpaces (' ' :: cs) = trimSpaces cs := by
  simp [trimSpaces]

theorem trimSpaces_oneWord {cs : List Char} (h : OneWord cs) : trimSpaces cs = cs := trimSpaces_eq_self h.head_ne h.getLast_ne

theorem splitCommas_of_not_mem {cs : List Char} (h : ',' ∉ cs) : splitCommas cs = [cs] := by
  induction cs with
  | nil => rfl
  | cons c rest ih =>
    obtain ⟨hc, hrest⟩ := not_or.mp fun hc => h (List.mem_cons.mpr hc)
    rw [splitCommas, if_neg (Ne.symm hc), ih hrest]

theorem splitCommas_append {xs : List Char} (h : ',' ∉ xs) (ys : List Char) :
    splitCommas (xs ++ ',' :: ys) = xs :: splitCommas ys := by
  induction xs with
  | nil => rfl
  | cons c rest ih =>
    obtain ⟨hc, hrest⟩ := not_or.mp fun hc => h (List.mem_cons.mpr hc)
    rw [List.cons_append, splitCommas, if_neg (Ne.symm hc), ih hrest]

theorem OneWord.not_mem_comma {cs : List Char} (h : OneWord cs) : ',' ∉ ' ' :: cs := by
  rw [List.mem_cons]
  rintro (hc | hc)
  · cases hc
  · exact (h.2 ',' hc).2 rfl

theorem operandTexts_one {t : List Char} (h : OneWord t) : operandTexts (' ' :: t) = [t] := by
  rw [operandTexts, trimSpaces_cons_space, trimSpaces_oneWord h, if_neg h.1, splitCommas_of_not_mem h.not_mem_comma]
  simp only [List.map_cons, List.map_nil, trimSpaces_cons_space, trimSpaces_oneWord h]

theorem operandTexts_two {x y : List Char} (hx : OneWord x) (hy : OneWord y) :
    operandTexts (' ' :: (x ++ ',' :: ' ' :: y)) = [x, y] := by
  have hne : trimSpaces (x ++ ',' :: ' ' :: y) ≠ [] := by
    rw [trimSpaces_eq_self (head_append_ne hx _) (by simpa using getLast_append_ne (x ++ [',', ' ']) hy)]
    exact List.append_ne_nil_of_right_ne_nil x (List.cons_ne_nil _ _)
  rw [operandTexts, trimSpaces_cons_space, if_neg hne, ← List.cons_append, splitCommas_append hx.not_mem_comma,
    splitCommas_of_not_mem hy.not_mem_comma]
  simp only [List.map_cons, List.map_nil, trimSpaces_cons_space, trimSpaces_oneWord hx, trimSpaces_oneWord hy]

/-! ## Whole lines -/

/-- The table names each mnemonic once. -/
theorem find_mnemonic : ∀ row ∈ mnemonicTable, mnemonicTable.find? (fun r => r.1.toList == row.1.toList) = some row := by
  decide +kernel

theorem oneWord_mnemonic {row : String × BitVec 8 × OperandForm} (h : row ∈ mnemonicTable) : OneWord row.1.toList := by
  have hall : ∀ row ∈ mnemonicTable, (row.1.toList != [] && row.1.toList.all fun c => c != ' ' && c != ',') = true := by
    decide +kernel
  exact oneWord_of_all (hall row h)

/-- A line splits into its mnemonic and the text after it. -/
theorem line_parts {m rest : List Char} (hm : OneWord m) (hlast : (m ++ ' ' :: rest).getLast? ≠ some ' ') :
    trimSpaces (m ++ ' ' :: rest) = m ++ ' ' :: rest ∧ (m ++ ' ' :: rest).takeWhile (· != ' ') = m ∧
      (m ++ ' ' :: rest).dropWhile (· != ' ') = ' ' :: rest := by
  have hspace : ∀ c ∈ m, (c != ' ') = true := fun c hc => bne_iff_ne.mpr (hm.2 c hc).1
  refine ⟨trimSpaces_eq_self (head_append_ne hm _) hlast, ?_, ?_⟩
  · rw [List.takeWhile_append_of_pos hspace]
    simp
  · rw [List.dropWhile_append_of_pos hspace]
    simp

section
variable {name : String} {c : BitVec 8} {pre t x y : List Char}

theorem assemble_noOperand (hrow : (name, c, .noOperand) ∈ mnemonicTable) : assemble name.toList = some ⟨c, 0, 0⟩ := by
  have hm := oneWord_mnemonic hrow
  have hspace : ∀ c ∈ name.toList, (c != ' ') = true := fun c hc => bne_iff_ne.mpr (hm.2 c hc).1
  have htake : name.toList.takeWhile (· != ' ') = name.toList := List.takeWhile_eq_self_iff.mpr hspace
  have hdrop : name.toList.dropWhile (· != ' ') = [] := List.dropWhile_eq_nil_iff.mpr hspace
  have hnone : operandTexts [] = [] := rfl
  simp only [assemble, trimSpaces_oneWord hm, htake, hdrop, find_mnemonic _ hrow, hnone]

theorem assemble_integer {w : Word} (hrow : (name, c, .integer) ∈ mnemonicTable) (ht : OneWord t)
    (hw : integerOperand t = some w) : assemble (name.toList ++ ' ' :: t) = some ⟨c, w, 0⟩ := by
  obtain ⟨htrim, htake, hdrop⟩ := line_parts (rest := t) (oneWord_mnemonic hrow)
    (by simpa using getLast_append_ne (name.toList ++ [' ']) ht)
  simp only [assemble, htrim, htake, hdrop, find_mnemonic _ hrow, operandTexts_one ht, hw, Option.map_some]

theorem assemble_floats {lo hi : Word} (hrow : (name, c, .floats) ∈ mnemonicTable) (hx : OneWord x) (hy : OneWord y)
    (hlo : floatOperand x = some lo) (hhi : floatOperand y = some hi) :
    assemble (name.toList ++ ' ' :: (x ++ ',' :: ' ' :: y)) = some ⟨c, lo, hi⟩ := by
  obtain ⟨htrim, htake, hdrop⟩ := line_parts (rest := x ++ ',' :: ' ' :: y) (oneWord_mnemonic hrow)
    (by simpa using getLast_append_ne (name.toList ++ ' ' :: (x ++ [',', ' '])) hy)
  simp only [assemble, htrim, htake, hdrop, find_mnemonic _ hrow, operandTexts_two hx hy, hlo, hhi, Option.map_some,
    Option.bind_some]

/-- A mnemonic, a space and a word in hexadecimal. -/
theorem assemble_hexText (w : Word) (hrow : (name, c, .integer) ∈ mnemonicTable) (hpre : pre = name.toList ++ [' ']) :
    assemble (pre ++ hexText w) = some ⟨c, w, 0⟩ := by
  rw [hpre, List.append_assoc]
  exact assemble_integer hrow (oneWord_hexText w) (integerOperand_hexText w)

/-- A mnemonic, a space and two bit patterns. -/
theorem assemble_patternTexts (lo hi : Word) (hrow : (name, c, .floats) ∈ mnemonicTable)
    (hpre : pre = name.toList ++ ' ' :: "f64:".toList) :
    assemble (pre ++ hexText lo ++ ", f64:".toList ++ hexText hi) = some ⟨c, lo, hi⟩ := by
  have hsep : ", f64:".toList = ',' :: ' ' :: "f64:".toList := by decide
  have h := assemble_floats hrow (oneWord_patternText lo) (oneWord_patternText hi) (floatOperand_patternText lo)
    (floatOperand_patternText hi)
  simpa only [hpre, hsep, patternText, List.append_assoc, List.cons_append] using h

end

/-- Settles O6: each text is the mnemonic of a row of the table with the operands that the row takes. -/
theorem textOfEveryInstructionAssembles : Obligations.TextOfEveryInstructionAssembles := by
  unfold Obligations.TextOfEveryInstructionAssembles
  intro i
  cases i with
  | seedSm w => exact assemble_hexText (name := "SEED.SM") w (by decide) (by decide)
  | seedXs w => exact assemble_hexText (name := "SEED.XS") w (by decide) (by decide)
  | seedEntSm => exact assemble_noOperand (name := "SEED_ENT.SM") (by decide)
  | seedEntXs => exact assemble_noOperand (name := "SEED_ENT.XS") (by decide)
  | drawSm => exact assemble_noOperand (name := "DRAW.SM") (by decide)
  | drawXs => exact assemble_noOperand (name := "DRAW.XS") (by decide)
  | boundedSm n => exact assemble_hexText (name := "BOUNDED.SM") n (by decide) (by decide)
  | boundedXs n => exact assemble_hexText (name := "BOUNDED.XS") n (by decide) (by decide)
  | boundedRejSm n => exact assemble_hexText (name := "BOUNDED_REJ.SM") n (by decide) (by decide)
  | boundedRejXs n => exact assemble_hexText (name := "BOUNDED_REJ.XS") n (by decide) (by decide)
  | real01Sm => exact assemble_noOperand (name := "REAL01.SM") (by decide)
  | real01Xs => exact assemble_noOperand (name := "REAL01.XS") (by decide)
  | realBetweenSm lo hi => exact assemble_patternTexts (name := "REAL_BETWEEN.SM") lo hi (by decide) (by decide)
  | realBetweenXs lo hi => exact assemble_patternTexts (name := "REAL_BETWEEN.XS") lo hi (by decide) (by decide)
  | minSm => exact assemble_noOperand (name := "MIN.SM") (by decide)
  | minXs => exact assemble_noOperand (name := "MIN.XS") (by decide)
  | maxSm => exact assemble_noOperand (name := "MAX.SM") (by decide)
  | maxXs => exact assemble_noOperand (name := "MAX.XS") (by decide)
  | stateRdSm index => exact assemble_hexText (name := "STATE_RD.SM") index (by decide) (by decide)
  | stateRdXs index => exact assemble_hexText (name := "STATE_RD.XS") index (by decide) (by decide)
  | status => exact assemble_noOperand (name := "STATUS") (by decide)

end Sys2Proof.Machine
end
